-- ==== Sys2Proof/Word.lean ====
section
/-! DEFINITION. The two word types of the block: a 32-bit register value and a byte (00_scope.md R7 and section 4). -/

namespace Sys2Proof

/-- The width of every host-visible register (R7). -/
abbrev Word := BitVec 32

/-- An 8-bit value (00_scope.md section 4, "Bits and bytes"). -/
abbrev Byte := BitVec 8

end Sys2Proof
end

