-- ==== Sys2Proof/Syntax.lean ====
section
/-! DEFINITION. The commands of the block, one constructor per row of spec/opcode_table.json (30_encoding.md R82). -/

namespace Sys2Proof

/-- A command. It has no operand fields: its operands are the ARG values latched at issue (R80, R83). -/
inductive Instr where
  /-- `CRC_CHECKSUM`, opcode 0x01 (R102). -/
  | crcChecksum
  /-- `CRC_CHECK`, opcode 0x02 (R103). -/
  | crcCheck
  /-- `TYPE_FROM_BYTES`, opcode 0x10 (R123). -/
  | typeFromBytes
  /-- `TYPE_FROM_TEXT`, opcode 0x11 (R124). -/
  | typeFromText
  /-- `TYPE_AS_BYTES`, opcode 0x12 (R125). -/
  | typeAsBytes
  /-- `TYPE_AS_TEXT`, opcode 0x13 (R126). -/
  | typeAsText
  /-- `TYPE_PROPS`, opcode 0x14 (R127). -/
  | typeProps
  /-- `TYPE_EQ`, opcode 0x15 (R128). -/
  | typeEq
  /-- `CHUNK_NEW`, opcode 0x20 (R154). -/
  | chunkNew
  /-- `CHUNK_PARSE`, opcode 0x21 (R152). -/
  | chunkParse
  /-- `CHUNK_SERIALIZE`, opcode 0x22 (R155). -/
  | chunkSerialize
  /-- `CHUNK_TYPE`, opcode 0x23 (R157). -/
  | chunkType
  /-- `CHUNK_INFO`, opcode 0x24 (R158). -/
  | chunkInfo
  /-- `CHUNK_DATA`, opcode 0x25 (R159). -/
  | chunkData
  /-- `CHUNK_PAYLOAD_TEXT`, opcode 0x26 (R161). -/
  | chunkPayloadText
  /-- `CONT_PARSE`, opcode 0x30 (R190). -/
  | contParse
  /-- `CONT_SERIALIZE`, opcode 0x31 (R193). -/
  | contSerialize
  /-- `CONT_FIND`, opcode 0x32 (R196). -/
  | contFind
  /-- `CONT_GET`, opcode 0x33 (R198). -/
  | contGet
  /-- `CONT_APPEND`, opcode 0x34 (R199). -/
  | contAppend
  /-- `CONT_REMOVE_FIRST`, opcode 0x35 (R200). -/
  | contRemoveFirst
  /-- `CONT_COUNT`, opcode 0x36 (R202). -/
  | contCount
  deriving DecidableEq, Repr

end Sys2Proof
end

