-- ==== Sys2Proof/Decode.lean ====
section
/-! DEFINITION. Decoding and encoding of the command word (30_encoding.md R80 to R82, R85). -/

namespace Sys2Proof

/-- Why a command word is illegal (R81): its reserved bits 31:8 are not 0, or its opcode is not assigned. -/
inductive DecodeError where
  | reservedBits
  | unassignedOpcode
  deriving DecidableEq, Repr

/-- Bits 31:8 of the command word, `RSV` (R80). -/
def rsvField (w : Word) : BitVec 24 := w.extractLsb' 8 24

/-- Bits 7:0 of the command word, `OPCODE` (R80). -/
def opcodeField (w : Word) : Byte := w.extractLsb' 0 8

/-- The opcode map (R82), row by row. -/
def opcodeMap : List (Byte × Instr) :=
  [(0x01#8, .crcChecksum), (0x02#8, .crcCheck)] ++
  [(0x10#8, .typeFromBytes), (0x11#8, .typeFromText), (0x12#8, .typeAsBytes), (0x13#8, .typeAsText), (0x14#8, .typeProps), (0x15#8, .typeEq)] ++
  [(0x20#8, .chunkNew), (0x21#8, .chunkParse), (0x22#8, .chunkSerialize), (0x23#8, .chunkType), (0x24#8, .chunkInfo), (0x25#8, .chunkData), (0x26#8, .chunkPayloadText)] ++
  [(0x30#8, .contParse), (0x31#8, .contSerialize), (0x32#8, .contFind), (0x33#8, .contGet), (0x34#8, .contAppend), (0x35#8, .contRemoveFirst), (0x36#8, .contCount)]

/-- Decoding in the order of R81: the reserved bits first, then the opcode. -/
def decode (w : Word) : Except DecodeError Instr :=
  if rsvField w ≠ 0#24 then .error .reservedBits
  else
    match opcodeMap.lookup (opcodeField w) with
    | some i => .ok i
    | none => .error .unassignedOpcode

/-- The instruction the decoder reads from a table word: one 32-bit word, with zeros above the `nbits` given. -/
def decodeTableWord (nbits w : Nat) : Option Instr :=
  if w % 2 ^ nbits < 2 ^ 32 then
    match decode (BitVec.ofNat 32 (w % 2 ^ nbits)) with
    | .ok i => some i
    | .error _ => none
  else none

/-- The opcode of each command, from the opcode map's column (R82). -/
def opcode (i : Instr) : Byte :=
  match i with
  | .crcChecksum => 0x01#8
  | .crcCheck => 0x02#8
  | .typeFromBytes => 0x10#8
  | .typeFromText => 0x11#8
  | .typeAsBytes => 0x12#8
  | .typeAsText => 0x13#8
  | .typeProps => 0x14#8
  | .typeEq => 0x15#8
  | .chunkNew => 0x20#8
  | .chunkParse => 0x21#8
  | .chunkSerialize => 0x22#8
  | .chunkType => 0x23#8
  | .chunkInfo => 0x24#8
  | .chunkData => 0x25#8
  | .chunkPayloadText => 0x26#8
  | .contParse => 0x30#8
  | .contSerialize => 0x31#8
  | .contFind => 0x32#8
  | .contGet => 0x33#8
  | .contAppend => 0x34#8
  | .contRemoveFirst => 0x35#8
  | .contCount => 0x36#8

/-- The command word of an instruction: its opcode zero-extended to 32 bits (R80, R91). -/
def encode (i : Instr) : Word := (opcode i).setWidth 32

end Sys2Proof
end

