-- ==== Sys2Proof/Config.lean ====
section
/-! DEFINITION. What an implementation fixes (the parameters of 00_scope.md R6) and the values the spec leaves free. -/

namespace Sys2Proof

/-- The implementation parameters (R6). They are an argument of the model: `State` carries one record of them, which no
step changes (log 3), so that a statement about every state is a statement about every choice of them. -/
structure Params where
  /-- `BUF_BYTES`: size of BUF in bytes. -/
  bufBytes : Nat
  /-- `MAX_PAYLOAD`: the largest payload CR can hold. -/
  maxPayload : Nat
  /-- `MAX_CHUNKS`: the largest number of chunks CONT can hold. -/
  maxChunks : Nat
  /-- `STORE_BYTES`: the largest sum of payload lengths CONT can hold. -/
  storeBytes : Nat
  /-- `BLOCK_ID`: what the ID register reads (R24). -/
  blockId : Word
  /-- `REG_BASE`: where the platform places the register space; no rule depends on it (R72). -/
  regBase : Nat
  /-- `BUF_BASE`: where the platform places BUF; no rule depends on it (R72). -/
  bufBase : Nat
  deriving DecidableEq, Repr

/-- The constraints of R6. -/
abbrev Params.legal (p : Params) : Prop :=
  (20 ≤ p.bufBytes ∧ p.bufBytes ≤ 2 ^ 31) ∧
  (p.bufBytes - 12 ≤ p.maxPayload ∧ p.maxPayload ≤ 2 ^ 32 - 1) ∧
  (p.bufBytes - 8) / 12 ≤ p.maxChunks ∧
  (p.bufBytes - 20 ≤ p.storeBytes ∧ 8 + 12 * p.maxChunks + p.storeBytes ≤ 2 ^ 32 - 1)

/-- The values the spec's test vectors assume (R6, last sentence). DESIGN CHOICE: REG_BASE and BUF_BASE are 0 (log 16). -/
def Params.vectorDefaults : Params :=
  { bufBytes := 4096, maxPayload := 4084, maxChunks := 340, storeBytes := 4076, blockId := 0x504E4731#32,
    regBase := 0, bufBase := 0 }

/-- The free byte of draw number n: the byte a read returns where the spec lets it be any byte (R270, I10, I11). -/
opaque Config.freeByte : Nat → Byte

/-- The free word of draw number n: what a result register reads while a command is pending (R270, I9). -/
opaque Config.freeWord : Nat → Word

end Sys2Proof
end

