-- ==== Sys2Proof/Machine/State.lean ====
section
/-! DEFINITION. The state of the block and of its host (10_state.md R20, R21), the reasons a step can stop, and the state
after reset (70_reset_and_hazards.md R262). -/

namespace Sys2Proof.Machine

/-- A ChunkTypeCode: exactly 4 bytes, in wire order (R40, 00_scope.md R8). The same shape holds any 4-byte wire word. -/
structure TypeCode where
  b0 : Byte
  b1 : Byte
  b2 : Byte
  b3 : Byte
  deriving DecidableEq, Repr

/-- A Chunk (R42). That `length = |data|` and that crc is the checksum (R43) are `Chunk.wf`. -/
structure Chunk where
  type : TypeCode
  length : Word
  data : List Byte
  crc : Word
  deriving DecidableEq, Repr

/-- The seven argument registers (R33): live in `State.args`, latched in `Pending.args` (R49). -/
structure Args where
  src : Word
  len : Word
  dst : Word
  cap : Word
  type : Word
  index : Word
  crc : Word
  deriving DecidableEq, Repr

/-- The pending-command record (R49): the CMD value written and the seven ARG registers as they stood then. -/
structure Pending where
  cmd : Word
  args : Args
  deriving DecidableEq, Repr

/-- The host-visible registers, by name (R23). -/
inductive Reg where
  | id | cmd | status
  | argSrc | argLen | argDst | argCap | argType | argIndex | argCrc
  | resLen | resCrc | resType | resIndex | resFlags | errOffset
  | capBuf | capPayload | capChunks | capStore
  deriving DecidableEq, Repr

/-- The errors a command can raise, one constructor per (error, detail) pair of 60_exceptions.md R230 and R231.
Their codes and details are `CmdError.code` and `CmdError.detail`. -/
inductive CmdError where
  /-- INVALID_FORMAT 1: text length is not 4 bytes. -/
  | textLength
  /-- INVALID_FORMAT 2: a byte is not an ASCII letter. -/
  | textNotAlpha
  /-- INVALID_FORMAT 3: the reserved bit is set. -/
  | textReservedBit
  /-- TRUNCATED 1: fewer than 12 bytes remain for a frame. -/
  | frameTooShort
  /-- TRUNCATED 2: the declared length exceeds the bytes remaining. -/
  | frameLengthTooLong
  /-- CHECKSUM_MISMATCH: the stored or expected CRC disagrees with the recomputed one. -/
  | checksumMismatch
  /-- BAD_SIGNATURE 1: the buffer is shorter than 8 bytes. -/
  | signatureTooShort
  /-- BAD_SIGNATURE 2: the first 8 bytes differ from the signature. -/
  | signatureDiffers
  /-- NOT_FOUND: the removal target is absent. -/
  | notFound
  /-- NOT_TEXT 1: the payload is empty. -/
  | payloadEmpty
  /-- NOT_TEXT 2: the payload is not valid UTF-8. -/
  | payloadNotUtf8
  /-- ILLEGAL_COMMAND 1: CMD bits 31:8 are not 0. -/
  | illegalReserved
  /-- ILLEGAL_COMMAND 2: the opcode is not assigned. -/
  | illegalOpcode
  /-- ADDRESS_RANGE 1: the source range is out of bounds. -/
  | sourceRange
  /-- ADDRESS_RANGE 2: the destination range is out of bounds. -/
  | destRange
  /-- CAPACITY 1: the destination capacity is smaller than the output. -/
  | destCapacity
  /-- CAPACITY 2: the payload exceeds MAX_PAYLOAD. -/
  | payloadCapacity
  /-- CAPACITY 3: CONT already holds MAX_CHUNKS chunks. -/
  | chunkTableFull
  /-- CAPACITY 4: the payloads would exceed STORE_BYTES. -/
  | storeFull
  /-- NO_TYPE: TR is none. -/
  | noType
  /-- NO_CHUNK: CR is none. -/
  | noChunk
  /-- INDEX_RANGE: ARG_INDEX is not the index of a chunk. -/
  | indexRange
  deriving DecidableEq, Repr

/-- The model faults of 60_exceptions.md R244. They are RECORDED in `State.faults` and the machine goes on ("A faulted
state is never final"), so no step ends in one (log 11). Recording is safe: a claim about a run takes "no model fault
recorded" as a premise. -/
inductive Fault where
  /-- A command's MemRead or a host BUF read meets an unwritten byte (R62, R63). Recorded by `memRead` and
  `hostReadBuf`; safe. -/
  | uninitRead
  /-- A host access the spec gives no meaning (R62, R68). Recorded by the four host accesses; safe. -/
  | hostAccess
  /-- A host BUF write into a pending command's declared range (R267). Recorded by `hostWriteBuf`; safe. -/
  | hostHazard
  deriving DecidableEq, Repr

/-- Why a step has no meaning. No step of this model ends in one: every command has its meaning, and an illegal command
word completes with ILLEGAL_COMMAND (R81). -/
inductive Refusal where
  /-- An instruction without a meaning, by its mnemonic. Raised by no arm of `exec`; safe. -/
  | notModelled (mnemonic : String)
  deriving DecidableEq, Repr

/-- Which model faults have been recorded (R244); nothing clears one, reset included (R262). -/
structure Recorded where
  uninitRead : Bool
  hostAccess : Bool
  hostHazard : Bool
  deriving DecidableEq, Repr

/-- The two agents (R20). -/
inductive Agent where
  | host
  | block
  deriving DecidableEq, Repr

/-- One host step (60_exceptions.md R246). A width is in bytes; an access of a width, offset or address the spec gives no
meaning can be written down, because the host can make it (R68, R62). -/
inductive HostOp where
  /-- Register read at an offset (R32). -/
  | readReg (offset width : Nat)
  /-- Register write at an offset (R32). -/
  | writeReg (offset width : Nat) (value : Word)
  /-- BUF read (R62). -/
  | readBuf (address width : Nat)
  /-- BUF write (R62); for a width other than 1 the value does not matter. -/
  | writeBuf (address width : Nat) (value : Byte)
  /-- Assert the reset input (R260). -/
  | reset
  /-- Power the block off and on (R260, R261). -/
  | powerOn
  /-- One poll of WAIT: read STATUS, and stay while BUSY = 1 (30_encoding.md R91). -/
  | wait
  /-- The loop test of REMOVE_ALL (R92): read STATUS, and go round again unless ERR = NOT_FOUND. -/
  | removeAllTest (key : Word)
  /-- The loop test of FIND_ALL (R92): read RES_FLAGS, and stop if FOUND = 0. -/
  | findAllTest (key : Word)
  /-- The rest of FIND_ALL's loop body (R92): read RES_INDEX, yield it, and go round from the next index. -/
  | findAllYield (key : Word)
  deriving DecidableEq, Repr

/-- What the host learned (R246): the value of a register read, of a BUF read, or an index FIND_ALL yielded. -/
inductive Seen where
  | reg (offset : Nat) (value : Word)
  | byte (address : Nat) (value : Byte)
  | found (index : Word)
  deriving DecidableEq, Repr

/-- BUF's written bytes in canonical form (20_memory.md R60): (address, byte) pairs, addresses strictly rising. An address
that is not listed is `unwritten`: it holds no value. -/
abbrev Memory := List Host.Cell

/-- The state of the block (R21) and, below the line, the model's own fields: the host agent and the free-draw counter. -/
structure State where
  /-- The implementation parameters (00_scope.md R6); constant. -/
  params : Params
  /-- ARG_SRC .. ARG_CRC, live (R33). -/
  args : Args
  /-- RES_LEN (R35). -/
  resLen : Word
  /-- RES_CRC (R35). -/
  resCrc : Word
  /-- RES_TYPE (R35). -/
  resType : Word
  /-- RES_INDEX (R35). -/
  resIndex : Word
  /-- RES_FLAGS (R36). -/
  resFlags : Word
  /-- ERR_OFFSET (R37). -/
  errOffset : Word
  /-- STATUS.DONE (R27). -/
  done : Bool
  /-- STATUS.OVR (R30). -/
  ovr : Bool
  /-- STATUS.ERR (R28). -/
  err : Byte
  /-- STATUS.ERR_DETAIL (R28). -/
  errDetail : Byte
  /-- TR (R40). -/
  tr : Option TypeCode
  /-- CR (R42). -/
  cr : Option Chunk
  /-- CONT (R45). -/
  cont : List Chunk
  /-- BUF (R48, R60). -/
  buf : Memory
  /-- PEND (R49). -/
  pend : Option Pending
  /-- Model faults recorded (R244). -/
  faults : Recorded
  -- The model's own: the host agent (log 4) and the free draws (log 7).
  /-- How many free draws have been taken. -/
  draws : Nat
  /-- The host's remaining steps. -/
  script : List HostOp
  /-- Which agent moves next, next first; when none is listed a pending command moves before the host (log 15). -/
  turns : List Agent
  /-- What the host's reads returned, oldest first. -/
  seen : List Seen
  deriving DecidableEq, Repr

/-- The block right after power-on with parameters `p` (R261, R262): nothing loaded, every BUF byte unwritten, no model
fault recorded, and a host with nothing to do. -/
def State.powerOn (p : Params) : State :=
  { params := p, args := { src := 0#32, len := 0#32, dst := 0#32, cap := 0#32, type := 0#32, index := 0#32, crc := 0#32 },
    resLen := 0#32, resCrc := 0#32, resType := 0#32, resIndex := 0#32, resFlags := 0#32, errOffset := 0#32,
    done := false, ovr := false, err := 0#8, errDetail := 0#8,
    tr := none, cr := none, cont := [], buf := [], pend := none,
    faults := { uninitRead := false, hostAccess := false, hostHazard := false },
    draws := 0, script := [], turns := [], seen := [] }

/-- The machine right after reset (R262), with the vector defaults for its parameters (log 3). -/
def State.reset : State := State.powerOn Params.vectorDefaults

end Sys2Proof.Machine
end

