-- ==== Sys2Proof/Machine/Format.lean ====
section
/-! DEFINITION. The data formats and the functions over them: 4-byte words, the CRC-32, the chunk frame, the container,
the text check and UTF-8 (10_state.md R34; 30_encoding.md R86 to R90; 41_crc32.md; 42_type_code.md; 43_chunk.md R160). -/

namespace Sys2Proof.Machine

/-! ### Four-byte words -/

/-- The four bytes in wire order. -/
def TypeCode.bytes (t : TypeCode) : List Byte := [t.b0, t.b1, t.b2, t.b3]

/-- The type code of a 4-byte sequence; used on sequences of length 4 only. -/
def quad (b : List Byte) : TypeCode :=
  { b0 := b.getD 0 0#8, b1 := b.getD 1 0#8, b2 := b.getD 2 0#8, b3 := b.getD 3 0#8 }

/-- `unpack4` (R34): byte 0 from bits 31:24. -/
def unpack4 (w : Word) : TypeCode :=
  { b0 := w.extractLsb' 24 8, b1 := w.extractLsb' 16 8, b2 := w.extractLsb' 8 8, b3 := w.extractLsb' 0 8 }

/-- `pack4` (R34), which is also `be32` of the four bytes. -/
def pack4 (t : TypeCode) : Word := t.b0 ++ t.b1 ++ t.b2 ++ t.b3

/-- `be32` of a 4-byte sequence (00_scope.md section 4, R69). -/
def be32 (b : List Byte) : Word := pack4 (quad b)

/-- `enc_be32` (00_scope.md section 4, R69). -/
def encBe32 (v : Word) : List Byte := (unpack4 v).bytes

/-! ### The CRC-32 (R100, R101) -/

/-- One pass of the inner loop of R100. -/
def crcShift (c : Word) : Word :=
  if c.getLsbD 0 then (c >>> 1) ^^^ 0xEDB88320#32 else c >>> 1

/-- One pass of the outer loop of R100: one byte taken in, then 8 shifts. -/
def crcByte (c : Word) (b : Byte) : Word :=
  crcShift (crcShift (crcShift (crcShift (crcShift (crcShift (crcShift (crcShift (c ^^^ b.setWidth 32))))))))

/-- `crc32` (R100). -/
def crc32 (b : List Byte) : Word := b.foldl crcByte 0xFFFFFFFF#32 ^^^ 0xFFFFFFFF#32

/-- `checksum` (R101): over the type bytes and the payload, and nothing else. -/
def checksum (t : TypeCode) (d : List Byte) : Word := crc32 (t.bytes ++ d)

/-! ### The frame and the container -/

/-- `frame(c)` (R86). -/
def frame (c : Chunk) : List Byte := encBe32 c.length ++ c.type.bytes ++ c.data ++ encBe32 c.crc

/-- The size of a chunk's frame, `12 + c.length`, on unbounded naturals (R86, R7). -/
def frameLen (c : Chunk) : Nat := 12 + c.length.toNat

/-- `SIG` (R88). -/
def signature : List Byte := [0x89#8, 0x50#8, 0x4E#8, 0x47#8, 0x0D#8, 0x0A#8, 0x1A#8, 0x0A#8]

/-- `serialize(L)` (R87, R192). -/
def serialize (l : List Chunk) : List Byte := signature ++ l.flatMap frame

/-- `ser_len(L)` (R192). -/
def serLen (l : List Chunk) : Nat := 8 + (l.map frameLen).sum

/-- The sum of the payload lengths of a chunk list (R46, R199). -/
def storeUse (l : List Chunk) : Nat := (l.map fun c => c.length.toNat).sum

/-- The index, counted from `i` at the head, of the first chunk at or after index `start` whose type is `k` (R195, R196). -/
def firstMatch (k : TypeCode) (start i : Nat) (l : List Chunk) : Option Nat :=
  match l with
  | [] => none
  | c :: r => if start ≤ i ∧ c.type = k then some i else firstMatch k start (i + 1) r

/-! ### The type-code predicates (R120, R121) and the text check (R122) -/

/-- Critical: bit 5 of byte 0 clear. -/
def TypeCode.critical (t : TypeCode) : Bool := !t.b0.getLsbD 5

/-- Public: bit 5 of byte 1 clear. -/
def TypeCode.isPublic (t : TypeCode) : Bool := !t.b1.getLsbD 5

/-- Reserved bit valid: bit 5 of byte 2 clear. -/
def TypeCode.reservedValid (t : TypeCode) : Bool := !t.b2.getLsbD 5

/-- Safe to copy: bit 5 of byte 3 set. -/
def TypeCode.safeToCopy (t : TypeCode) : Bool := t.b3.getLsbD 5

/-- An ASCII alphabetic letter (R121). -/
def isAlpha (b : Byte) : Bool :=
  (0x41 ≤ b.toNat && b.toNat ≤ 0x5A) || (0x61 ≤ b.toNat && b.toNat ≤ 0x7A)

/-- `ALPHA(t)` (R121). -/
def TypeCode.alpha (t : TypeCode) : Bool := t.bytes.all isAlpha

/-- `VALID(t)` (R121). -/
def TypeCode.valid (t : TypeCode) : Bool := t.alpha && t.reservedValid

/-- `text_check` (R122): the first failure in its order, or none. -/
def textCheck (s : List Byte) : Option CmdError :=
  if s.length ≠ 4 then some .textLength
  else if !s.all isAlpha then some .textNotAlpha
  else if !(quad s).reservedValid then some .textReservedBit
  else none

/-! ### UTF-8 (R160) -/

/-- An inclusive range of byte values. -/
structure ByteRange where
  lo : Nat
  hi : Nat
  deriving DecidableEq, Repr

/-- The byte lies in the range. -/
def ByteRange.has (r : ByteRange) (b : Byte) : Bool := r.lo ≤ b.toNat && b.toNat ≤ r.hi

/-- One row of R160's table: the first byte's range and the ranges of the bytes that must follow it. -/
structure Utf8Row where
  first : ByteRange
  rest : List ByteRange
  deriving DecidableEq, Repr

/-- R160's table, row by row. -/
def utf8Table : List Utf8Row :=
  [⟨⟨0x00, 0x7F⟩, []⟩,
   ⟨⟨0xC2, 0xDF⟩, [⟨0x80, 0xBF⟩]⟩,
   ⟨⟨0xE0, 0xE0⟩, [⟨0xA0, 0xBF⟩, ⟨0x80, 0xBF⟩]⟩,
   ⟨⟨0xE1, 0xEC⟩, [⟨0x80, 0xBF⟩, ⟨0x80, 0xBF⟩]⟩,
   ⟨⟨0xED, 0xED⟩, [⟨0x80, 0x9F⟩, ⟨0x80, 0xBF⟩]⟩,
   ⟨⟨0xEE, 0xEF⟩, [⟨0x80, 0xBF⟩, ⟨0x80, 0xBF⟩]⟩,
   ⟨⟨0xF0, 0xF0⟩, [⟨0x90, 0xBF⟩, ⟨0x80, 0xBF⟩, ⟨0x80, 0xBF⟩]⟩,
   ⟨⟨0xF1, 0xF3⟩, [⟨0x80, 0xBF⟩, ⟨0x80, 0xBF⟩, ⟨0x80, 0xBF⟩]⟩,
   ⟨⟨0xF4, 0xF4⟩, [⟨0x80, 0x8F⟩, ⟨0x80, 0xBF⟩, ⟨0x80, 0xBF⟩]⟩]

/-- The bytes `d` complete the ranges still `due` and go on in well-formed sequences to their end. -/
def utf8From (due : List ByteRange) (d : List Byte) : Bool :=
  match d with
  | [] => due.isEmpty
  | b :: d' =>
    match due with
    | r :: due' => r.has b && utf8From due' d'
    | [] =>
      match utf8Table.find? (fun row => row.first.has b) with
      | some row => utf8From row.rest d'
      | none => false

/-- `utf8_valid` (R160). -/
def utf8Valid (d : List Byte) : Bool := utf8From [] d

end Sys2Proof.Machine
end

