-- ==== Sys2Proof/Machine/Flags.lean ====
section
/-! DEFINITION. The error codes and details, and the fields of STATUS and RES_FLAGS (10_state.md R26, R36;
60_exceptions.md R230, R231). -/

namespace Sys2Proof.Machine

/-- `code(E)` (R230). -/
def CmdError.code (e : CmdError) : Byte :=
  match e with
  | .textLength | .textNotAlpha | .textReservedBit => 0x01#8
  | .frameTooShort | .frameLengthTooLong => 0x02#8
  | .checksumMismatch => 0x03#8
  | .signatureTooShort | .signatureDiffers => 0x04#8
  | .notFound => 0x05#8
  | .payloadEmpty | .payloadNotUtf8 => 0x06#8
  | .illegalReserved | .illegalOpcode => 0x10#8
  | .sourceRange | .destRange => 0x11#8
  | .destCapacity | .payloadCapacity | .chunkTableFull | .storeFull => 0x12#8
  | .noType => 0x13#8
  | .noChunk => 0x14#8
  | .indexRange => 0x15#8

/-- The detail code (R231); every error not in its table has detail 0. -/
def CmdError.detail (e : CmdError) : Byte :=
  match e with
  | .textLength | .frameTooShort | .signatureTooShort | .payloadEmpty | .illegalReserved | .sourceRange
  | .destCapacity => 1#8
  | .textNotAlpha | .frameLengthTooLong | .signatureDiffers | .payloadNotUtf8 | .illegalOpcode | .destRange
  | .payloadCapacity => 2#8
  | .textReservedBit | .chunkTableFull => 3#8
  | .storeFull => 4#8
  | .checksumMismatch | .notFound | .noType | .noChunk | .indexRange => 0#8

/-- A flag at bit n of a 32-bit register. -/
def flag (b : Bool) (n : Nat) : Word := (BitVec.ofBool b).setWidth 32 <<< n

/-- STATUS.BUSY (R26). -/
def State.busy (s : State) : Bool := s.pend.isSome

/-- STATUS.ERR_ANY (R26). -/
def State.errAny (s : State) : Bool := s.err != 0#8

/-- STATUS.TR_VALID (R26, R31). -/
def State.trValid (s : State) : Bool := s.tr.isSome

/-- STATUS.CR_VALID (R26, R31). -/
def State.crValid (s : State) : Bool := s.cr.isSome

/-- The STATUS register as it reads (R26). -/
def State.status (s : State) : Word :=
  flag s.busy 0 ||| flag s.done 1 ||| flag s.errAny 2 ||| flag s.trValid 3 ||| flag s.crValid 4 ||| flag s.ovr 5
    ||| s.err.setWidth 32 <<< 8 ||| s.errDetail.setWidth 32 <<< 16

/-- What TYPE_PROPS writes to RES_FLAGS (R127). -/
def propsFlags (t : TypeCode) : Word :=
  flag t.critical 0 ||| flag t.isPublic 1 ||| flag t.reservedValid 2 ||| flag t.safeToCopy 3 ||| flag t.alpha 4
    ||| flag t.valid 5

/-- What TYPE_EQ writes to RES_FLAGS (R128). -/
def equalFlags (e : Bool) : Word := flag e 6

/-- What CONT_FIND writes to RES_FLAGS (R196). -/
def foundFlags (found : Bool) : Word := flag found 7

end Sys2Proof.Machine
end

