-- ==== Sys2Proof/Machine/Operands.lean ====
section
/-! DEFINITION. Operand forms: the declared ranges of each command (30_encoding.md R83, 20_memory.md R65) and the register
map (10_state.md R23, R32). -/

namespace Sys2Proof.Machine

/-- `in_bounds(a, n)` (R65), on unbounded naturals. -/
def inBounds (s : State) (a n : Nat) : Bool := a + n ≤ s.params.bufBytes

/-- The command declares the source range (ARG_SRC, ARG_LEN) (R83, column "ranges"). -/
def declaresSource (i : Instr) : Bool :=
  match i with
  | .crcChecksum | .crcCheck | .typeFromText | .chunkNew | .chunkParse | .contParse => true
  | .typeFromBytes | .typeAsBytes | .typeAsText | .typeProps | .typeEq | .chunkSerialize | .chunkType | .chunkInfo
  | .chunkData | .chunkPayloadText | .contSerialize | .contFind | .contGet | .contAppend | .contRemoveFirst
  | .contCount => false

/-- The command declares the destination range (ARG_DST, ARG_CAP) (R83, column "ranges"). -/
def declaresDest (i : Instr) : Bool :=
  match i with
  | .typeAsText | .chunkSerialize | .chunkData | .chunkPayloadText | .contSerialize => true
  | .crcChecksum | .crcCheck | .typeFromBytes | .typeFromText | .typeAsBytes | .typeProps | .typeEq | .chunkNew
  | .chunkParse | .chunkType | .chunkInfo | .contParse | .contFind | .contGet | .contAppend | .contRemoveFirst
  | .contCount => false

/-- The address lies in the range of n bytes from a. -/
def inRange (a n address : Nat) : Bool := a ≤ address && address < a + n

/-- The address lies in the declared source range of the pending command (R267); an illegal command declares none. -/
def inPendingSource (s : State) (address : Nat) : Bool :=
  match s.pend with
  | none => false
  | some p =>
    match decode p.cmd with
    | .ok i => declaresSource i && inRange p.args.src.toNat p.args.len.toNat address
    | .error _ => false

/-- The address lies in the declared destination range of the pending command (R267, R270); an illegal command declares
none. -/
def inPendingDest (s : State) (address : Nat) : Bool :=
  match s.pend with
  | none => false
  | some p =>
    match decode p.cmd with
    | .ok i => declaresDest i && inRange p.args.dst.toNat p.args.cap.toNat address
    | .error _ => false

/-- The offset of a register (R23). -/
def Reg.offset (r : Reg) : Nat :=
  match r with
  | .id => 0x00
  | .cmd => 0x04
  | .status => 0x08
  | .argSrc => 0x0C
  | .argLen => 0x10
  | .argDst => 0x14
  | .argCap => 0x18
  | .argType => 0x1C
  | .argIndex => 0x20
  | .argCrc => 0x24
  | .resLen => 0x28
  | .resCrc => 0x2C
  | .resType => 0x30
  | .resIndex => 0x34
  | .resFlags => 0x38
  | .errOffset => 0x3C
  | .capBuf => 0x40
  | .capPayload => 0x44
  | .capChunks => 0x48
  | .capStore => 0x4C

/-- The twenty registers in the order of their offsets (R23). -/
def allRegs : List Reg :=
  [.id, .cmd, .status, .argSrc, .argLen, .argDst, .argCap, .argType, .argIndex, .argCrc] ++
  [.resLen, .resCrc, .resType, .resIndex, .resFlags, .errOffset, .capBuf, .capPayload, .capChunks, .capStore]

/-- The register at an offset; none at a reserved one (R23). -/
def regAt (offset : Nat) : Option Reg := allRegs.find? fun r => r.offset == offset

/-- What a register reads when its value is not blurred by R270 (R24 to R38); CMD reads 0 (R32). -/
def State.regValue (s : State) (r : Reg) : Word :=
  match r with
  | .id => s.params.blockId
  | .cmd => 0#32
  | .status => s.status
  | .argSrc => s.args.src
  | .argLen => s.args.len
  | .argDst => s.args.dst
  | .argCap => s.args.cap
  | .argType => s.args.type
  | .argIndex => s.args.index
  | .argCrc => s.args.crc
  | .resLen => s.resLen
  | .resCrc => s.resCrc
  | .resType => s.resType
  | .resIndex => s.resIndex
  | .resFlags => s.resFlags
  | .errOffset => s.errOffset
  | .capBuf => BitVec.ofNat 32 s.params.bufBytes
  | .capPayload => BitVec.ofNat 32 s.params.maxPayload
  | .capChunks => BitVec.ofNat 32 s.params.maxChunks
  | .capStore => BitVec.ofNat 32 s.params.storeBytes

/-- The registers that read any value while a command is pending (R270). -/
def Reg.blurredWhileBusy (r : Reg) : Bool :=
  match r with
  | .resLen | .resCrc | .resType | .resIndex | .resFlags | .errOffset => true
  | .id | .cmd | .status | .argSrc | .argLen | .argDst | .argCap | .argType | .argIndex | .argCrc | .capBuf
  | .capPayload | .capChunks | .capStore => false

end Sys2Proof.Machine
end

