-- ==== Sys2Proof/Machine/Ops.lean ====
section
/-! DEFINITION. The shared operations: BUF (20_memory.md R60 to R66), issue and reset (70_reset_and_hazards.md R261 to R266),
raising an error and completing (60_exceptions.md R234, R235), and the checks commands share (R83). -/

namespace Sys2Proof.Machine

/-- The outcome of a step of this machine. -/
abbrev Out := Host.Outcome State Fault Refusal

/-! ### BUF -/

/-- The canonical form of BUF: addresses strictly rising. (An unlisted address holds no value, so no entry can equal it.) -/
abbrev Memory.wf (m : Memory) : Prop := m.Pairwise fun x y => x.1 < y.1

/-- The byte at an address, or none where it is unwritten (R60). -/
def Memory.read (m : Memory) (a : Nat) : Option Byte :=
  match m with
  | [] => none
  | (x, b) :: m' => if x = a then some b else Memory.read m' a

/-- Set the byte at an address (R62, R64). -/
def Memory.write (m : Memory) (a : Nat) (v : Byte) : Memory :=
  match m with
  | [] => [(a, v)]
  | (x, b) :: m' =>
    if a < x then (a, v) :: (x, b) :: m'
    else if x = a then (a, v) :: m'
    else (x, b) :: Memory.write m' a v

/-- Set the bytes from an address up, in ascending address order (R64). -/
def Memory.writeAll (m : Memory) (a : Nat) (v : List Byte) : Memory :=
  match v with
  | [] => m
  | b :: v' => Memory.writeAll (Memory.write m a b) (a + 1) v'

/-- The n cells from an address up, in ascending address order (R63). -/
def Memory.readAll (m : Memory) (a n : Nat) : List (Option Byte) := (List.range n).map fun k => Memory.read m (a + k)

/-! ### Model faults and free draws -/

/-- Record a model fault and keep what was recorded (R244). -/
def Recorded.add (r : Recorded) (f : Fault) : Recorded :=
  match f with
  | .uninitRead => { r with uninitRead := true }
  | .hostAccess => { r with hostAccess := true }
  | .hostHazard => { r with hostHazard := true }

/-- Record a model fault (R244). -/
def State.record (s : State) (f : Fault) : State := { s with faults := s.faults.add f }

/-- The bytes a read of cells returns: an unwritten cell gives the next free byte from draw n on (I11; log 1). -/
def fillFree (n : Nat) (cells : List (Option Byte)) : List Byte :=
  match cells with
  | [] => []
  | some b :: r => b :: fillFree n r
  | none :: r => Config.freeByte n :: fillFree (n + 1) r

/-- How many of the cells are unwritten. -/
def unwrittenCount (cells : List (Option Byte)) : Nat := cells.countP Option.isNone

/-- `MemRead(a, n)` (R63): the bytes, and the state with UNINIT_READ recorded if a byte read was unwritten (log 1). -/
def memRead (a n : Nat) (s : State) : List Byte × State :=
  let cells := Memory.readAll s.buf a n
  let missing := unwrittenCount cells
  (fillFree s.draws cells,
   if missing = 0 then s else { s.record .uninitRead with draws := s.draws + missing })

/-- `MemWrite(a, n, v)` (R64). The spec has |v| = n; bytes past n are not written (log 9). -/
def memWrite (a n : Nat) (v : List Byte) (s : State) : State :=
  { s with buf := Memory.writeAll s.buf a (v.take n) }

/-! ### Completion -/

/-- The completion state of R234 and R235: the code, detail and offset given, DONE set and nothing pending. -/
def State.finish (s : State) (code detail : Byte) (offset : Nat) : State :=
  { s with err := code, errDetail := detail, errOffset := BitVec.ofNat 32 offset, done := true, pend := none }

/-- `raise E(detail, offset)` (R234): what an error does, shared by every command. It is a completion, not a trap (R237). -/
def raise (e : CmdError) (offset : Nat) (s : State) : Out := .next (s.finish e.code e.detail offset)

/-- Completion without an error (R235). -/
def complete (s : State) : Out := .next (s.finish 0#8 0#8 0)

/-! ### What commands share -/

/-- Give a command the ARG values latched at issue (R266). With nothing pending the block takes no step (R20; log 5). -/
def withArgs (s : State) (k : Args → Out) : Out :=
  match s.pend with
  | none => .next s
  | some p => k p.args

/-- Needs TR (R31, R83). -/
def needType (s : State) (k : TypeCode → Out) : Out :=
  match s.tr with
  | none => raise .noType 0 s
  | some t => k t

/-- Needs CR (R31, R83). -/
def needChunk (s : State) (k : Chunk → Out) : Out :=
  match s.cr with
  | none => raise .noChunk 0 s
  | some c => k c

/-- Declares the source range (R65). -/
def withSource (x : Args) (s : State) (k : Out) : Out :=
  if inBounds s x.src.toNat x.len.toNat then k else raise .sourceRange 0 s

/-- Declares the destination range (R65). -/
def withDest (x : Args) (s : State) (k : Out) : Out :=
  if inBounds s x.dst.toNat x.cap.toNat then k else raise .destRange 0 s

/-- Write n bytes to the destination range and report n in RES_LEN, or raise CAPACITY detail 1 (R66). -/
def putDest (x : Args) (n : Nat) (v : List Byte) (s : State) : Out :=
  if n > x.cap.toNat then raise .destCapacity 0 s
  else complete { memWrite x.dst.toNat n v s with resLen := BitVec.ofNat 32 n }

/-! ### Issue and reset -/

/-- Issue of a command word (R266). -/
def issue (w : Word) (s : State) : State :=
  { s with pend := some { cmd := w, args := s.args }, done := false, err := 0#8, errDetail := 0#8, ovr := false }

/-- The parts of the state a reset does not touch: the parameters, the model faults recorded (R262) and the host. -/
def keptByReset (s : State) (m : Memory) : State :=
  { State.powerOn s.params with
    buf := m, faults := s.faults, draws := s.draws, script := s.script, turns := s.turns, seen := s.seen }

/-- BUF after a reset (R261): as it was, but for the destination range of a command that was pending. -/
def bufAfterReset (s : State) : Memory := s.buf.filter fun c => !inPendingDest s c.1

/-- A reset that is not a power-on (R260 to R263). -/
def resetBlock (s : State) : State := keptByReset s (bufAfterReset s)

/-- A power-on (R260, R261): every BUF byte unwritten. -/
def powerCycle (s : State) : State := keptByReset s []

/-! ### Whose turn it is -/

/-- Take the next turn: which agent moves, and the state with that turn used up. When no turn is listed, a pending command
moves before the host (R265 allows every order; log 15). -/
def takeTurn (s : State) : Agent × State :=
  match s.turns with
  | a :: r => (a, { s with turns := r })
  | [] => (if s.busy then .block else .host, s)

/-- Give the block the command word w and the next turn: the issue of R266, from whatever state (log 12). -/
def loadCommand (s : State) (w : Word) : State := { issue w s with turns := .block :: s.turns }

end Sys2Proof.Machine
end

