-- ==== Sys2Proof/Machine/Chunk.lean ====
section
/-! DEFINITION. The frame parser and serializer (43_chunk.md). -/

namespace Sys2Proof.Machine

/-- What `parse_frame` returns (R150): a chunk and the bytes its frame occupies, or an error with the recomputed checksum
where there is one. -/
inductive FrameResult where
  | ok (c : Chunk) (n : Nat)
  | fail (e : CmdError)
  | mismatch (computed : Word)
  deriving DecidableEq, Repr

/-- `parse_frame(a, m)` (R150): it reads only the bytes shown there, in that order. -/
def parseFrame (a m : Nat) (s : State) : FrameResult × State :=
  if m < 12 then (.fail .frameTooShort, s)
  else
    let (lb, s1) := memRead a 4 s
    let l := be32 lb
    if m < 12 + l.toNat then (.fail .frameLengthTooLong, s1)
    else
      let (tb, s2) := memRead (a + 4) 4 s1
      let (d, s3) := memRead (a + 8) l.toNat s2
      let (cb, s4) := memRead (a + 8 + l.toNat) 4 s3
      let k := checksum (quad tb) d
      if k ≠ be32 cb then (.mismatch k, s4)
      else (.ok { type := quad tb, length := l, data := d, crc := be32 cb } (12 + l.toNat), s4)

/-- CHUNK_NEW (R154). -/
def execChunkNew (s : State) : Out :=
  withArgs s fun x =>
  needType s fun t =>
  withSource x s <|
    if x.len.toNat > s.params.maxPayload then raise .payloadCapacity 0 s
    else
      let (d, s1) := memRead x.src.toNat x.len.toNat s
      let k := checksum t d
      complete { s1 with cr := some { type := t, length := x.len, data := d, crc := k }, resLen := x.len, resCrc := k }

/-- CHUNK_PARSE (R152). -/
def execChunkParse (s : State) : Out :=
  withArgs s fun x =>
  withSource x s <|
    match parseFrame x.src.toNat x.len.toNat s with
    | (.mismatch k, s1) => raise .checksumMismatch 0 { s1 with resCrc := k }
    | (.fail e, s1) => raise e 0 s1
    | (.ok c n, s1) => complete { s1 with cr := some c, resLen := BitVec.ofNat 32 n, resCrc := c.crc }

/-- CHUNK_SERIALIZE (R155). -/
def execChunkSerialize (s : State) : Out :=
  withArgs s fun x =>
  needChunk s fun c =>
  withDest x s <| putDest x (frameLen c) (frame c) s

/-- CHUNK_TYPE (R157). -/
def execChunkType (s : State) : Out :=
  withArgs s fun _ =>
  needChunk s fun c => complete { s with tr := some c.type, resType := pack4 c.type }

/-- CHUNK_INFO (R158). -/
def execChunkInfo (s : State) : Out :=
  withArgs s fun _ =>
  needChunk s fun c => complete { s with resLen := c.length, resCrc := c.crc, resType := pack4 c.type }

/-- CHUNK_DATA (R159). -/
def execChunkData (s : State) : Out :=
  withArgs s fun x =>
  needChunk s fun c =>
  withDest x s <| putDest x c.length.toNat c.data s

/-- CHUNK_PAYLOAD_TEXT (R161): empty, then UTF-8, then capacity. -/
def execChunkPayloadText (s : State) : Out :=
  withArgs s fun x =>
  needChunk s fun c =>
  withDest x s <|
    if c.length = 0#32 then raise .payloadEmpty 0 s
    else if !utf8Valid c.data then raise .payloadNotUtf8 0 s
    else putDest x c.length.toNat c.data s

end Sys2Proof.Machine
end

