-- ==== Sys2Proof/Machine/Container.lean ====
section
/-! DEFINITION. The chunk buffer round-tripper (44_container.md). -/

namespace Sys2Proof.Machine

/-- How the loop of CONT_PARSE ends (R190): with the whole list, or with an error at an offset and the recomputed checksum
where there is one. -/
inductive ContResult where
  | ok (list : List Chunk)
  | fail (e : CmdError) (off : Nat)
  | mismatch (computed : Word) (off : Nat)
  deriving DecidableEq, Repr

/-- The loop of CONT_PARSE (R190) over the m bytes from a, at offset `off`, with the list so far and its payload total.
The fuel bounds the frames still to come: each takes 12 bytes or more, so the m given at the start is never used up (log 8,
`parseLoop_fuel`). -/
def parseLoop (fuel a m off total : Nat) (list : List Chunk) (s : State) : ContResult × State :=
  if m ≤ off then (.ok list, s)
  else
    match fuel with
    | 0 => (.fail .frameTooShort off, s)
    | fuel' + 1 =>
      match parseFrame (a + off) (m - off) s with
      | (.mismatch k, s1) => (.mismatch k off, s1)
      | (.fail e, s1) => (.fail e off, s1)
      | (.ok c n, s1) =>
        if list.length = s.params.maxChunks then (.fail .chunkTableFull off, s1)
        else if total + c.length.toNat > s.params.storeBytes then (.fail .storeFull off, s1)
        else parseLoop fuel' a m (off + n) (total + c.length.toNat) (list ++ [c]) s1

/-- CONT_PARSE (R190): CONT is replaced only when the whole buffer has parsed (R191). -/
def execContParse (s : State) : Out :=
  withArgs s fun x =>
  withSource x s <|
    if x.len.toNat < 8 then raise .signatureTooShort 0 s
    else
      let (g, s1) := memRead x.src.toNat 8 s
      if g ≠ signature then raise .signatureDiffers 0 s1
      else
        match parseLoop x.len.toNat x.src.toNat x.len.toNat 8 0 [] s1 with
        | (.mismatch k off, s2) => raise .checksumMismatch off { s2 with resCrc := k }
        | (.fail e off, s2) => raise e off s2
        | (.ok l, s2) =>
          complete { s2 with cont := l, resIndex := BitVec.ofNat 32 l.length, resLen := x.len }

/-- CONT_SERIALIZE (R193). -/
def execContSerialize (s : State) : Out :=
  withArgs s fun x =>
  withDest x s <| putDest x (serLen s.cont) (serialize s.cont) s

/-- CONT_FIND (R196): not finding a chunk is a result, not an error. -/
def execContFind (s : State) : Out :=
  withArgs s fun x =>
  match firstMatch (unpack4 x.type) x.index.toNat 0 s.cont with
  | some i => complete { s with resIndex := BitVec.ofNat 32 i, resFlags := foundFlags true }
  | none => complete { s with resIndex := BitVec.ofNat 32 s.cont.length, resFlags := foundFlags false }

/-- CONT_GET (R198). -/
def execContGet (s : State) : Out :=
  withArgs s fun x =>
  match s.cont[x.index.toNat]? with
  | none => raise .indexRange 0 s
  | some c => complete { s with cr := some c }

/-- CONT_APPEND (R199): table full before store full. -/
def execContAppend (s : State) : Out :=
  withArgs s fun _ =>
  needChunk s fun c =>
    if s.cont.length = s.params.maxChunks then raise .chunkTableFull 0 s
    else if storeUse s.cont + c.length.toNat > s.params.storeBytes then raise .storeFull 0 s
    else complete { s with cont := s.cont ++ [c], resIndex := BitVec.ofNat 32 s.cont.length }

/-- CONT_REMOVE_FIRST (R200). -/
def execContRemoveFirst (s : State) : Out :=
  withArgs s fun x =>
  match firstMatch (unpack4 x.type) 0 0 s.cont with
  | none => raise .notFound 0 s
  | some i => complete { s with cont := s.cont.take i ++ s.cont.drop (i + 1), resIndex := BitVec.ofNat 32 i }

/-- CONT_COUNT (R202). -/
def execContCount (s : State) : Out :=
  withArgs s fun _ =>
  complete { s with resIndex := BitVec.ofNat 32 s.cont.length, resLen := BitVec.ofNat 32 (serLen s.cont) }

end Sys2Proof.Machine
end

