-- ==== Sys2Proof/Machine/Crc.lean ====
section
/-! DEFINITION. The CRC-32 validator: CRC_CHECKSUM and CRC_CHECK (41_crc32.md). -/

namespace Sys2Proof.Machine

/-- CRC_CHECKSUM (R102). -/
def execCrcChecksum (s : State) : Out :=
  withArgs s fun x =>
  withSource x s <|
    let (d, s1) := memRead x.src.toNat x.len.toNat s
    complete { s1 with resCrc := checksum (unpack4 x.type) d }

/-- CRC_CHECK (R103): RES_CRC is written on a mismatch too (R236). -/
def execCrcCheck (s : State) : Out :=
  withArgs s fun x =>
  withSource x s <|
    let (d, s1) := memRead x.src.toNat x.len.toNat s
    let c := checksum (unpack4 x.type) d
    let s2 := { s1 with resCrc := c }
    if c ≠ x.crc then raise .checksumMismatch 0 s2 else complete s2

end Sys2Proof.Machine
end

