-- ==== Sys2Proof/Machine/TypeCode.lean ====
section
/-! DEFINITION. The type-code parser (42_type_code.md). -/

namespace Sys2Proof.Machine

/-- TYPE_FROM_BYTES (R123): no check is made. -/
def execTypeFromBytes (s : State) : Out :=
  withArgs s fun x => complete { s with tr := some (unpack4 x.type) }

/-- TYPE_FROM_TEXT (R124): the length is checked before any byte is read. -/
def execTypeFromText (s : State) : Out :=
  withArgs s fun x =>
  withSource x s <|
    if x.len ≠ 4#32 then raise .textLength 0 s
    else
      let (t, s1) := memRead x.src.toNat 4 s
      match textCheck t with
      | some e => raise e 0 s1
      | none => complete { s1 with tr := some (quad t) }

/-- TYPE_AS_BYTES (R125). -/
def execTypeAsBytes (s : State) : Out :=
  withArgs s fun _ =>
  needType s fun t => complete { s with resType := pack4 t }

/-- TYPE_AS_TEXT (R126): the four raw bytes. -/
def execTypeAsText (s : State) : Out :=
  withArgs s fun x =>
  needType s fun t =>
  withDest x s <| putDest x 4 t.bytes s

/-- TYPE_PROPS (R127). -/
def execTypeProps (s : State) : Out :=
  withArgs s fun _ =>
  needType s fun t => complete { s with resFlags := propsFlags t }

/-- TYPE_EQ (R128). -/
def execTypeEq (s : State) : Out :=
  withArgs s fun x =>
  needType s fun t => complete { s with resFlags := equalFlags (t = unpack4 x.type) }

end Sys2Proof.Machine
end

