-- ==== Sys2Proof/Machine/Dispatch.lean ====
section
/-! DEFINITION. One arm per command: the meaning each one has (30_encoding.md R81, R82). -/

namespace Sys2Proof.Machine

def exec (i : Instr) (s : State) : Host.Outcome State Fault Refusal :=
  match i with
  | .crcChecksum => Sys2Proof.Machine.execCrcChecksum s
  | .crcCheck => Sys2Proof.Machine.execCrcCheck s
  | .typeFromBytes => Sys2Proof.Machine.execTypeFromBytes s
  | .typeFromText => Sys2Proof.Machine.execTypeFromText s
  | .typeAsBytes => Sys2Proof.Machine.execTypeAsBytes s
  | .typeAsText => Sys2Proof.Machine.execTypeAsText s
  | .typeProps => Sys2Proof.Machine.execTypeProps s
  | .typeEq => Sys2Proof.Machine.execTypeEq s
  | .chunkNew => Sys2Proof.Machine.execChunkNew s
  | .chunkParse => Sys2Proof.Machine.execChunkParse s
  | .chunkSerialize => Sys2Proof.Machine.execChunkSerialize s
  | .chunkType => Sys2Proof.Machine.execChunkType s
  | .chunkInfo => Sys2Proof.Machine.execChunkInfo s
  | .chunkData => Sys2Proof.Machine.execChunkData s
  | .chunkPayloadText => Sys2Proof.Machine.execChunkPayloadText s
  | .contParse => Sys2Proof.Machine.execContParse s
  | .contSerialize => Sys2Proof.Machine.execContSerialize s
  | .contFind => Sys2Proof.Machine.execContFind s
  | .contGet => Sys2Proof.Machine.execContGet s
  | .contAppend => Sys2Proof.Machine.execContAppend s
  | .contRemoveFirst => Sys2Proof.Machine.execContRemoveFirst s
  | .contCount => Sys2Proof.Machine.execContCount s

end Sys2Proof.Machine
end

