-- ==== Sys2Proof/Machine/HostPort.lean ====
section
/-! DEFINITION. The host's side of the block: register and BUF accesses, reset, polling (10_state.md R32; 20_memory.md R62,
R68; 70_reset_and_hazards.md R260 to R270), and the host command scripts (30_encoding.md R91, R92). -/

namespace Sys2Proof.Machine

/-! ### Accesses -/

/-- The host learns something (R246). -/
def State.sees (s : State) (x : Seen) : State := { s with seen := s.seen ++ [x] }

/-- The register access has a meaning: 32 bits, aligned, inside the register space (R68). -/
def regAccessOk (offset width : Nat) : Bool := width == 4 && offset % 4 == 0 && decide (offset < 0x100)

/-- The BUF access has a meaning: one byte, inside BUF (R62). -/
def bufAccessOk (s : State) (address width : Nat) : Bool := width == 1 && decide (address < s.params.bufBytes)

/-- What a register read at a legal offset returns (R32), and the state after it: a reserved offset reads 0, and a result
register read while BUSY = 1 takes a free draw (R270). -/
def readRegister (offset : Nat) (s : State) : Word × State :=
  match regAt offset with
  | none => (0#32, s)
  | some r =>
    if s.busy && r.blurredWhileBusy then (Config.freeWord s.draws, { s with draws := s.draws + 1 })
    else (s.regValue r, s)

/-- A host register read (R32, R68). -/
def hostReadReg (offset width : Nat) (s : State) : State :=
  if regAccessOk offset width then
    let (v, s1) := readRegister offset s
    s1.sees (.reg offset v)
  else s.record .hostAccess

/-- A write of the ARG register given, or no change for any other register (R32, R33, R269). -/
def writeArg (r : Reg) (v : Word) (x : Args) : Args :=
  match r with
  | .argSrc => { x with src := v }
  | .argLen => { x with len := v }
  | .argDst => { x with dst := v }
  | .argCap => { x with cap := v }
  | .argType => { x with type := v }
  | .argIndex => { x with index := v }
  | .argCrc => { x with crc := v }
  | .id | .cmd | .status | .resLen | .resCrc | .resType | .resIndex | .resFlags | .errOffset | .capBuf | .capPayload
  | .capChunks | .capStore => x

/-- A host write of CMD: issues a command (R266), or is dropped while one is pending (R268). -/
def writeCmd (w : Word) (s : State) : State :=
  if s.busy then { s with ovr := true } else issue w s

/-- A host register write (R32, R68); a write of an RO register or a reserved offset changes nothing. -/
def hostWriteReg (offset width : Nat) (v : Word) (s : State) : State :=
  if regAccessOk offset width then
    match regAt offset with
    | some .cmd => writeCmd v s
    | some r => { s with args := writeArg r v s.args }
    | none => s
  else s.record .hostAccess

/-- A host BUF read (R62). An unwritten byte records UNINIT_READ (log 1, log 10); it and a byte of a pending command's
destination range take a free draw (R270, I11). -/
def hostReadBuf (address width : Nat) (s : State) : State :=
  if bufAccessOk s address width then
    let drawn := ({ s with draws := s.draws + 1 } : State).sees (.byte address (Config.freeByte s.draws))
    match Memory.read s.buf address with
    | none => drawn.record .uninitRead
    | some b => if inPendingDest s address then drawn else s.sees (.byte address b)
  else s.record .hostAccess

/-- A host BUF write (R62). A write into a pending command's declared range records HOST_HAZARD, and what the byte then
holds is a free draw (R267; log 2). -/
def hostWriteBuf (address width : Nat) (v : Byte) (s : State) : State :=
  if bufAccessOk s address width then
    if inPendingSource s address || inPendingDest s address then
      { s.record .hostHazard with
        buf := Memory.write s.buf address (Config.freeByte s.draws), draws := s.draws + 1 }
    else { s with buf := Memory.write s.buf address v }
  else s.record .hostAccess

/-! ### Host command scripts (R91, R92) -/

/-- A keyed ARG write of a command line (R91). -/
inductive ArgKey where
  | src | len | dst | cap | type | index | crc
  deriving DecidableEq, Repr

/-- The register a key names (R91). -/
def ArgKey.reg (k : ArgKey) : Reg :=
  match k with
  | .src => .argSrc
  | .len => .argLen
  | .dst => .argDst
  | .cap => .argCap
  | .type => .argType
  | .index => .argIndex
  | .crc => .argCrc

/-- `WR reg, v` (R91). -/
def opWr (r : Reg) (v : Word) : HostOp := .writeReg r.offset 4 v

/-- `RD reg` (R91). -/
def opRd (r : Reg) : HostOp := .readReg r.offset 4

/-- `MNEMONIC k=v, ...` (R91): the ARG writes in the order written, the CMD write, then WAIT. -/
def commandLine (i : Instr) (keys : List (ArgKey × Word)) : List HostOp :=
  keys.map (fun kv => opWr kv.1.reg kv.2) ++ [opWr .cmd (encode i), .wait]

/-- `FIND_ALL TYPE=t` from an index on (R92). -/
def findAllFrom (key index : Word) : List HostOp :=
  commandLine .contFind [(.type, key), (.index, index)] ++ [.findAllTest key]

/-- `REMOVE_ALL TYPE=t` (R92). -/
def removeAll (key : Word) : List HostOp := commandLine .contRemoveFirst [(.type, key)] ++ [.removeAllTest key]

/-- A statement of the host command-script language (R91, R92). -/
inductive Statement where
  | wr (r : Reg) (v : Word)
  | rd (r : Reg)
  | wb (address : Nat) (bytes : List Byte)
  | rb (address n : Nat)
  | wait
  | command (i : Instr) (keys : List (ArgKey × Word))
  | findFirst (key : Word)
  | findAll (key : Word)
  | removeAll (key : Word)
  deriving DecidableEq, Repr

/-- `WB a, b0 b1 ...` (R91): byte writes to a, a+1, ... -/
def writeBytes (address : Nat) (bytes : List Byte) : List HostOp :=
  match bytes with
  | [] => []
  | b :: r => .writeBuf address 1 b :: writeBytes (address + 1) r

/-- The host steps of a statement (R91, R92). -/
def Statement.ops (t : Statement) : List HostOp :=
  match t with
  | .wr r v => [opWr r v]
  | .rd r => [opRd r]
  | .wb a bs => writeBytes a bs
  | .rb a n => (List.range n).map fun k => .readBuf (a + k) 1
  | .wait => [.wait]
  | .command i keys => commandLine i keys
  | .findFirst key => commandLine .contFind [(.type, key), (.index, 0#32)]
  | .findAll key => findAllFrom key 0#32
  | .removeAll key => Sys2Proof.Machine.removeAll key

/-- The host steps of a script (R91). -/
def assemble (program : List Statement) : List HostOp := program.flatMap Statement.ops

/-! ### The host's step -/

/-- The value of the last register read. -/
def lastWord (s : State) : Word :=
  match s.seen.getLast? with
  | some (.reg _ v) => v
  | some (.byte _ _) | some (.found _) | none => 0#32

/-- One host step, the script's head already taken off. The polling steps read a register as `RD` does and decide by what
was read (R91, R92). -/
def hostOp (o : HostOp) (s : State) : State :=
  match o with
  | .readReg offset width => hostReadReg offset width s
  | .writeReg offset width v => hostWriteReg offset width v s
  | .readBuf address width => hostReadBuf address width s
  | .writeBuf address width v => hostWriteBuf address width v s
  | .reset => resetBlock s
  | .powerOn => powerCycle s
  | .wait =>
    let s1 := hostReadReg Reg.status.offset 4 s
    if (lastWord s1).getLsbD 0 then { s1 with script := .wait :: s1.script } else s1
  | .removeAllTest key =>
    let s1 := hostReadReg Reg.status.offset 4 s
    if (lastWord s1).extractLsb' 8 8 = CmdError.notFound.code then s1
    else { s1 with script := removeAll key ++ s1.script }
  | .findAllTest key =>
    let s1 := hostReadReg Reg.resFlags.offset 4 s
    if (lastWord s1).getLsbD 7 then { s1 with script := .findAllYield key :: s1.script } else s1
  | .findAllYield key =>
    let s1 := hostReadReg Reg.resIndex.offset 4 s
    let i := lastWord s1
    let s2 := s1.sees (.found i)
    { s2 with script := findAllFrom key (i + 1#32) ++ s2.script }

/-- The host's turn: its next step; nothing when it has none left (log 5). -/
def hostTurn (s : State) : State :=
  match s.script with
  | [] => s
  | o :: r => hostOp o { s with script := r }

/-- The ILLEGAL_COMMAND error of an undecodable word (R81). -/
def illegalCommand (e : DecodeError) : CmdError :=
  match e with
  | .reservedBits => .illegalReserved
  | .unassignedOpcode => .illegalOpcode

end Sys2Proof.Machine
end

