-- ==== Sys2Proof/Machine/Step.lean ====
section
/-! DEFINITION. One step of the machine: the agent whose turn it is moves (10_state.md R20; 20_memory.md R74;
30_encoding.md R81). -/

namespace Sys2Proof.Machine

/-- The block's step (R20, R81): decode the pending command word, then perform its rule; nothing without a pending command. -/
def blockTurn (s : State) : Host.Outcome State Fault Refusal :=
  match s.pend with
  | none => .next s
  | some p =>
    match decode p.cmd with
    | .ok i => exec i s
    | .error e => raise (illegalCommand e) 0 s

/-- One step. -/
def step (s : State) : Host.Outcome State Fault Refusal :=
  match takeTurn s with
  | (.host, s1) => .next (hostTurn s1)
  | (.block, s1) => blockTurn s1

/-- `s` with a command word issued (R266) and the block to move next, so that the next step decodes and performs exactly
that word (log 12). The word is the table's: one 32-bit word with zeros above the `nbits` given. -/
def State.withFetchWord (s : State) (nbits w : Nat) : State := loadCommand s (BitVec.ofNat 32 (w % 2 ^ nbits))

end Sys2Proof.Machine
end

