-- ==== Sys2Proof/WellFormed.lean ====
section
/-! DEFINITION. The checks on terms: command words and instructions (30_encoding.md R80, R85), host steps (20_memory.md R62,
R68) and chunks (10_state.md R43). The parameters' check is `Params.legal` (00_scope.md R6), BUF's is `Memory.wf`. -/

namespace Sys2Proof

/-- The command word is legal: reserved bits 0 and an assigned opcode (R80, R85). -/
def commandWordOk (w : Word) : Bool := rsvField w == 0#24 && (opcodeMap.lookup (opcodeField w)).isSome

/-- An instruction is well-formed when its word is a legal command word. A command has no operand field, so every
instruction passes (R80). -/
def Instr.wf (i : Instr) : Bool := commandWordOk (encode i)

namespace Machine

/-- The host step has a meaning under the parameters (R62, R68). -/
def HostOp.wf (p : Params) (o : HostOp) : Bool :=
  match o with
  | .readReg offset width => regAccessOk offset width
  | .writeReg offset width _ => regAccessOk offset width
  | .readBuf address width => width == 1 && decide (address < p.bufBytes)
  | .writeBuf address width _ => width == 1 && decide (address < p.bufBytes)
  | .reset | .powerOn | .wait | .removeAllTest _ | .findAllTest _ | .findAllYield _ => true

/-- A chunk as R43 says every held chunk is: its length is its payload's and its crc is the checksum. -/
abbrev Chunk.wf (c : Chunk) : Prop := c.length.toNat = c.data.length ∧ c.crc = checksum c.type c.data

end Machine

end Sys2Proof
end

