-- ==== Sys2Proof/Safety.lean ====
section
/-! DEFINITION. What counts as a safe run, in the terms statements use: the invariant of the state, the model faults, the end
of a run and its observation (60_exceptions.md R244, R247), and the completion state written out (R234, R235). -/

namespace Sys2Proof.Machine

/-- The invariant of the state, from the rules that say what holds "at every instant". -/
structure State.Inv (s : State) : Prop where
  /-- The parameters meet their constraints (00_scope.md R6). -/
  paramsLegal : s.params.legal
  /-- BUF keeps its canonical form. -/
  bufCanonical : Memory.wf s.buf
  /-- Only addresses below BUF_BYTES hold a byte (R60). -/
  bufInside : ∀ c ∈ s.buf, c.1 < s.params.bufBytes
  /-- The chunk in CR is well-formed and fits CR (R43, R42). -/
  chunkHeld : ∀ c, s.cr = some c → Chunk.wf c ∧ c.length.toNat ≤ s.params.maxPayload
  /-- Every chunk in CONT is well-formed and fits CR (R43). -/
  contHeld : ∀ c ∈ s.cont, Chunk.wf c ∧ c.length.toNat ≤ s.params.maxPayload
  /-- CONT holds at most MAX_CHUNKS chunks (R46). -/
  contCount : s.cont.length ≤ s.params.maxChunks
  /-- CONT's payloads fit STORE_BYTES (R46). -/
  contStore : storeUse s.cont ≤ s.params.storeBytes
  /-- While a command is pending DONE, ERR and ERR_DETAIL are 0 (R266, R270). -/
  pendingClear : s.pend.isSome = true → s.done = false ∧ s.err = 0#8 ∧ s.errDetail = 0#8
  /-- ERR and ERR_DETAIL are 0 or a pair of the tables of R230 and R231. -/
  errorListed : (s.err = 0#8 ∧ s.errDetail = 0#8) ∨ ∃ e : CmdError, s.err = e.code ∧ s.errDetail = e.detail
  /-- RES_FLAGS bits 31:8 are 0 (R36). -/
  flagsReserved : s.resFlags.toNat < 256

/-- No model fault is recorded (R244). -/
def State.clean (s : State) : Bool := !s.faults.uninitRead && !s.faults.hostAccess && !s.faults.hostHazard

/-- Every fault recorded in the first is recorded in the second. -/
def Recorded.le (x y : Recorded) : Prop :=
  (x.uninitRead = true → y.uninitRead = true) ∧ (x.hostAccess = true → y.hostAccess = true) ∧
    (x.hostHazard = true → y.hostHazard = true)

/-- The run has ended (R247): the host has no step left and BUSY = 0. -/
def State.ended (s : State) : Bool := s.script.isEmpty && !s.busy

/-- What the end of a run shows (R247): register values, TR, CR, CONT, BUF and the model faults recorded. -/
structure Observation where
  regs : List Word
  tr : Option TypeCode
  cr : Option Chunk
  cont : List Chunk
  buf : Memory
  faults : Recorded
  deriving DecidableEq, Repr

/-- The observation at a state (R247). -/
def State.observe (s : State) : Observation :=
  { regs := allRegs.map s.regValue, tr := s.tr, cr := s.cr, cont := s.cont, buf := s.buf, faults := s.faults }

/-- The n bytes of BUF from address a are written, and are `d`. -/
def Holds (s : State) (a n : Nat) (d : List Byte) : Prop := Memory.readAll s.buf a n = d.map some

/-- Completion without an error, field by field (R235). -/
def State.succeeded (s : State) : State :=
  { s with err := 0#8, errDetail := 0#8, errOffset := 0#32, done := true, pend := none }

/-- Completion with the error code, detail and offset given, field by field (R234). -/
def State.failed (s : State) (code detail : Byte) (offset : Word) : State :=
  { s with err := code, errDetail := detail, errOffset := offset, done := true, pend := none }

/-- A value lies in an inclusive range. -/
def Within (lo hi : Nat) (b : Byte) : Prop := lo ≤ b.toNat ∧ b.toNat ≤ hi

/-- One well-formed UTF-8 sequence, written out from R160's table. -/
def Utf8Sequence (q : List Byte) : Prop :=
  match q with
  | [a] => Within 0x00 0x7F a
  | [a, b] => Within 0xC2 0xDF a ∧ Within 0x80 0xBF b
  | [a, b, c] =>
    (Within 0xE0 0xE0 a ∧ Within 0xA0 0xBF b ∧ Within 0x80 0xBF c) ∨
    (Within 0xE1 0xEC a ∧ Within 0x80 0xBF b ∧ Within 0x80 0xBF c) ∨
    (Within 0xED 0xED a ∧ Within 0x80 0x9F b ∧ Within 0x80 0xBF c) ∨
    (Within 0xEE 0xEF a ∧ Within 0x80 0xBF b ∧ Within 0x80 0xBF c)
  | [a, b, c, d] =>
    (Within 0xF0 0xF0 a ∧ Within 0x90 0xBF b ∧ Within 0x80 0xBF c ∧ Within 0x80 0xBF d) ∨
    (Within 0xF1 0xF3 a ∧ Within 0x80 0xBF b ∧ Within 0x80 0xBF c ∧ Within 0x80 0xBF d) ∨
    (Within 0xF4 0xF4 a ∧ Within 0x80 0x8F b ∧ Within 0x80 0xBF c ∧ Within 0x80 0xBF d)
  | _ => False

/-- An ASCII letter, written out from R121. -/
def AsciiLetter (b : Byte) : Prop := Within 0x41 0x5A b ∨ Within 0x61 0x7A b

/-- The source range of the latched arguments is in bounds (R65). -/
abbrev SourceOk (s : State) (x : Args) : Prop := x.src.toNat + x.len.toNat ≤ s.params.bufBytes

/-- The destination range of the latched arguments is in bounds (R65). -/
abbrev DestOk (s : State) (x : Args) : Prop := x.dst.toNat + x.cap.toNat ≤ s.params.bufBytes

/-- The indices FIND_ALL has yielded (R92). -/
def State.yielded (s : State) : List Word :=
  s.seen.filterMap fun x =>
    match x with
    | .found i => some i
    | .reg _ _ | .byte _ _ => none

/-- The same state on a platform that places the two spaces elsewhere (R72). -/
def State.placedAt (s : State) (regBase bufBase : Nat) : State :=
  { s with params := { s.params with regBase := regBase, bufBase := bufBase } }

/-- `m` is the memory of `s` with exactly the bytes `v` stored from address a up: every other address reads as before. -/
def StoredAt (s : State) (m : Memory) (a : Nat) (v : List Byte) : Prop :=
  ∀ x, Memory.read m x = if a ≤ x ∧ x < a + v.length then v[x - a]? else Memory.read s.buf x

/-- Some of the n bytes of BUF from address a are unwritten (R60). -/
abbrev Unwritten (s : State) (a n : Nat) : Prop := none ∈ Memory.readAll s.buf a n

/-- The command completes in `s` with UNINIT_READ recorded (R63, R244; that it completes is log 1). -/
def CompletesUninit (i : Instr) (s : State) : Prop :=
  ∃ t, exec i s = .next t ∧ t.faults.uninitRead = true ∧ t.done = true

/-- Every piece of state but BUF at its value after a reset, field by field (70_reset_and_hazards.md R262), with BUF `m`. -/
def State.afterReset (s : State) (m : Memory) : State :=
  { s with args := { src := 0#32, len := 0#32, dst := 0#32, cap := 0#32, type := 0#32, index := 0#32, crc := 0#32 },
           resLen := 0#32, resCrc := 0#32, resType := 0#32, resIndex := 0#32, resFlags := 0#32, errOffset := 0#32,
           done := false, ovr := false, err := 0#8, errDetail := 0#8, tr := none, cr := none, cont := [],
           pend := none, buf := m }

end Sys2Proof.Machine
end

