-- ==== Sys2Proof/Certificates/Slice0/Obligations.lean ====
section
/-! DEFINITION. The statements for the provers, from the numbered rules of the spec. In a command statement `p` is the pending
record (10_state.md R49) and `p.args` the ARG values latched at issue; `succeeded` and `failed` are the completions of
60_exceptions.md R235 and R234 written out field by field, so that an equation with one of them is the command's result, its
frame and its completion at once. Each of the 22 command statements begins with the command word its rule gives. -/

open Sys2Proof Sys2Proof.Machine

/-! ### Encoding and the step -/

/-- Words written out from the opcode map (R82) and from R85's examples of illegal words decode as the map says. -/
def Obligations.SampleWordsDecode : Prop :=
  decode 0x00000002#32 = .ok .crcCheck ∧ decode 0x00000011#32 = .ok .typeFromText ∧
  decode 0x00000026#32 = .ok .chunkPayloadText ∧ decode 0x00000035#32 = .ok .contRemoveFirst ∧
  decode 0x00000000#32 = .error .unassignedOpcode ∧ decode 0x00000130#32 = .error .reservedBits

/-- Decode of encode is the instruction, for all 22 (R80, R82). -/
def Obligations.DecodeOfEncodeIsTheCommand : Prop :=
  ∀ i : Instr, decode (encode i) = .ok i

/-- R85, R81: which words are reserved or illegal, and that every other word is exactly one command's word. -/
def Obligations.LegalWordsAreExactlyTheCommands : Prop :=
  (∀ w : Word, rsvField w ≠ 0#24 → decode w = .error .reservedBits) ∧
  (∀ w : Word, rsvField w = 0#24 →
    (w.toNat = 0 ∨ (0x03 ≤ w.toNat ∧ w.toNat ≤ 0x0F) ∨ (0x16 ≤ w.toNat ∧ w.toNat ≤ 0x1F) ∨
      (0x27 ≤ w.toNat ∧ w.toNat ≤ 0x2F) ∨ (0x37 ≤ w.toNat ∧ w.toNat ≤ 0xFF) ↔
        decode w = .error .unassignedOpcode)) ∧
  (∀ (w : Word) (i : Instr), decode w = .ok i ↔ w = encode i)

/-- A step runs the decoded command when the block moves, and the host's next step when the host moves (R20, R81, R265). -/
def Obligations.StepRunsTheDecodedCommand : Prop :=
  (∀ s p i, s.pend = some p → decode p.cmd = .ok i → s.turns = [] → step s = exec i s) ∧
  (∀ s p i r, s.pend = some p → decode p.cmd = .ok i → s.turns = .block :: r → step s = exec i { s with turns := r }) ∧
  (∀ s o q r, s.script = o :: q → s.turns = .host :: r →
    step s = .next (hostOp o { s with turns := r, script := q })) ∧
  (∀ s o q, s.script = o :: q → s.turns = [] → s.pend = none → step s = .next (hostOp o { s with script := q }))

/-- R81, when the block moves: an illegal word completes with ILLEGAL_COMMAND detail 1 or 2 and changes nothing else, and any
other word runs its command. `r` are the turns left: the block moves because it is listed next, or because none is listed
(the default order of log 15). -/
def Obligations.IllegalWordReportsIllegalCommand : Prop :=
  ∀ (s : State) (p : Pending) (r : List Agent), s.pend = some p → s.turns = .block :: r ∨ s.turns = [] ∧ r = [] →
    (rsvField p.cmd ≠ 0#24 → step s = .next (({ s with turns := r } : State).failed 0x10#8 1#8 0#32)) ∧
    (rsvField p.cmd = 0#24 → (∀ i, encode i ≠ p.cmd) →
      step s = .next (({ s with turns := r } : State).failed 0x10#8 2#8 0#32)) ∧
    (∀ i, p.cmd = encode i → step s = exec i { s with turns := r })

/-- R233: every command completes in its one step, without error or with one listed error. (With an unwritten source byte too,
where UNINIT_READ is recorded and the command goes on with a free byte: the model's choice of log 1.) -/
def Obligations.EveryCommandCompletes : Prop :=
  ∀ (i : Instr) s p, s.pend = some p →
    ∃ t, exec i s = .next t ∧ t.pend = none ∧ t.done = true ∧
      ((t.err = 0#8 ∧ t.errDetail = 0#8) ∨ ∃ e : CmdError, t.err = e.code ∧ t.errDetail = e.detail)

/-- No step of the machine stops: a recorded model fault is never final (R244), an error is not a trap (R237). -/
def Obligations.EveryStepAnswersANextState : Prop :=
  ∀ s, ∃ t, step s = .next t

/-! ### CRC -/

/-- R102: CRC_CHECKSUM. -/
def Obligations.CrcChecksumResult : Prop :=
  decode 0x00000001#32 = .ok .crcChecksum ∧ ∀ s p, s.pend = some p →
    (¬ SourceOk s p.args → exec .crcChecksum s = .next (s.failed 0x11#8 1#8 0#32)) ∧
    (∀ d, SourceOk s p.args → Holds s p.args.src.toNat p.args.len.toNat d →
      exec .crcChecksum s =
        .next ({ s with resCrc := crc32 ((unpack4 p.args.type).bytes ++ d) } : State).succeeded)

/-- R103: CRC_CHECK, with RES_CRC written on a mismatch too. -/
def Obligations.CrcCheckResult : Prop :=
  decode 0x00000002#32 = .ok .crcCheck ∧ ∀ s p, s.pend = some p →
    (¬ SourceOk s p.args → exec .crcCheck s = .next (s.failed 0x11#8 1#8 0#32)) ∧
    (∀ d, SourceOk s p.args → Holds s p.args.src.toNat p.args.len.toNat d →
      crc32 ((unpack4 p.args.type).bytes ++ d) = p.args.crc →
      exec .crcCheck s = .next ({ s with resCrc := p.args.crc } : State).succeeded) ∧
    (∀ d, SourceOk s p.args → Holds s p.args.src.toNat p.args.len.toNat d →
      crc32 ((unpack4 p.args.type).bytes ++ d) ≠ p.args.crc →
      exec .crcCheck s =
        .next (({ s with resCrc := crc32 ((unpack4 p.args.type).bytes ++ d) } : State).failed 0x03#8 0#8 0#32))

/-- The two values R100 gives for its CRC. -/
def Obligations.CrcKnownValues : Prop :=
  crc32 [] = 0x00000000#32 ∧
  crc32 [0x31#8, 0x32#8, 0x33#8, 0x34#8, 0x35#8, 0x36#8, 0x37#8, 0x38#8, 0x39#8] = 0xCBF43926#32

/-- R104: flipping one bit of the type or the payload changes the checksum. -/
def Obligations.BitFlipChangesChecksum : Prop :=
  ∀ (t t' : TypeCode) (d d' l r : List Byte) (b : Byte) (k : Nat), k < 8 →
    t.bytes ++ d = l ++ b :: r → t'.bytes ++ d' = l ++ (b ^^^ (1#8 <<< k)) :: r → checksum t d ≠ checksum t' d'

/-! ### Type code -/

/-- R34: the register form of a type code, byte 0 highest, and that it loses nothing. -/
def Obligations.TypePackingIsLossless : Prop :=
  (∀ t : TypeCode, unpack4 (pack4 t) = t ∧
    (pack4 t).toNat = t.b0.toNat * 2 ^ 24 + t.b1.toNat * 2 ^ 16 + t.b2.toNat * 2 ^ 8 + t.b3.toNat) ∧
  (∀ w : Word, pack4 (unpack4 w) = w)

/-- R123: TYPE_FROM_BYTES stores the four bytes, whatever they are. -/
def Obligations.TypeFromBytesResult : Prop :=
  decode 0x00000010#32 = .ok .typeFromBytes ∧ ∀ s p, s.pend = some p →
    exec .typeFromBytes s = .next ({ s with tr := some (unpack4 p.args.type) } : State).succeeded

/-- R124, R122: TYPE_FROM_TEXT, with its checks in their order. -/
def Obligations.TypeFromTextResult : Prop :=
  decode 0x00000011#32 = .ok .typeFromText ∧ ∀ s p, s.pend = some p →
    (¬ SourceOk s p.args → exec .typeFromText s = .next (s.failed 0x11#8 1#8 0#32)) ∧
    (SourceOk s p.args → p.args.len ≠ 4#32 → exec .typeFromText s = .next (s.failed 0x01#8 1#8 0#32)) ∧
    (∀ a b c d, SourceOk s p.args → p.args.len = 4#32 → Holds s p.args.src.toNat 4 [a, b, c, d] →
      (¬ (AsciiLetter a ∧ AsciiLetter b ∧ AsciiLetter c ∧ AsciiLetter d) →
        exec .typeFromText s = .next (s.failed 0x01#8 2#8 0#32)) ∧
      (AsciiLetter a → AsciiLetter b → AsciiLetter c → AsciiLetter d → c.getLsbD 5 = true →
        exec .typeFromText s = .next (s.failed 0x01#8 3#8 0#32)) ∧
      (AsciiLetter a → AsciiLetter b → AsciiLetter c → AsciiLetter d → c.getLsbD 5 = false →
        exec .typeFromText s =
          .next ({ s with tr := some { b0 := a, b1 := b, b2 := c, b3 := d } } : State).succeeded))

/-- R125: TYPE_AS_BYTES. -/
def Obligations.TypeAsBytesResult : Prop :=
  decode 0x00000012#32 = .ok .typeAsBytes ∧ ∀ s p, s.pend = some p →
    (s.tr = none → exec .typeAsBytes s = .next (s.failed 0x13#8 0#8 0#32)) ∧
    (∀ t, s.tr = some t → exec .typeAsBytes s = .next ({ s with resType := pack4 t } : State).succeeded)

/-- R126: TYPE_AS_TEXT writes the four raw bytes and no other byte. -/
def Obligations.TypeAsTextResult : Prop :=
  decode 0x00000013#32 = .ok .typeAsText ∧ ∀ s p, s.pend = some p →
    (s.tr = none → exec .typeAsText s = .next (s.failed 0x13#8 0#8 0#32)) ∧
    (∀ t, s.tr = some t → ¬ DestOk s p.args → exec .typeAsText s = .next (s.failed 0x11#8 2#8 0#32)) ∧
    (∀ t, s.tr = some t → DestOk s p.args → p.args.cap.toNat < 4 →
      exec .typeAsText s = .next (s.failed 0x12#8 1#8 0#32)) ∧
    (∀ t, s.tr = some t → DestOk s p.args → 4 ≤ p.args.cap.toNat → Memory.wf s.buf →
      ∃ m, exec .typeAsText s = .next ({ s with buf := m, resLen := 4#32 } : State).succeeded ∧
        StoredAt s m p.args.dst.toNat [t.b0, t.b1, t.b2, t.b3])

/-- R127, R120, R121: TYPE_PROPS writes the six property bits and 0 above them. -/
def Obligations.TypePropsResult : Prop :=
  decode 0x00000014#32 = .ok .typeProps ∧ ∀ s p, s.pend = some p →
    (s.tr = none → exec .typeProps s = .next (s.failed 0x13#8 0#8 0#32)) ∧
    (∀ t, s.tr = some t → ∃ v : Word, exec .typeProps s = .next ({ s with resFlags := v } : State).succeeded ∧
      v.getLsbD 0 = !t.b0.getLsbD 5 ∧ v.getLsbD 1 = !t.b1.getLsbD 5 ∧ v.getLsbD 2 = !t.b2.getLsbD 5 ∧
      v.getLsbD 3 = t.b3.getLsbD 5 ∧
      (v.getLsbD 4 = true ↔ AsciiLetter t.b0 ∧ AsciiLetter t.b1 ∧ AsciiLetter t.b2 ∧ AsciiLetter t.b3) ∧
      v.getLsbD 5 = (v.getLsbD 4 && v.getLsbD 2) ∧ ∀ n, 6 ≤ n → v.getLsbD n = false)

/-- R128: TYPE_EQ compares byte for byte. -/
def Obligations.TypeEqResult : Prop :=
  decode 0x00000015#32 = .ok .typeEq ∧ ∀ s p, s.pend = some p →
    (s.tr = none → exec .typeEq s = .next (s.failed 0x13#8 0#8 0#32)) ∧
    (s.tr = some (unpack4 p.args.type) → exec .typeEq s = .next ({ s with resFlags := 0x40#32 } : State).succeeded) ∧
    (∀ t, s.tr = some t → t ≠ unpack4 p.args.type →
      exec .typeEq s = .next ({ s with resFlags := 0#32 } : State).succeeded)

/-! ### Chunk -/

/-- R154: CHUNK_NEW. -/
def Obligations.ChunkNewResult : Prop :=
  decode 0x00000020#32 = .ok .chunkNew ∧ ∀ s p, s.pend = some p →
    (s.tr = none → exec .chunkNew s = .next (s.failed 0x13#8 0#8 0#32)) ∧
    (∀ t, s.tr = some t → ¬ SourceOk s p.args → exec .chunkNew s = .next (s.failed 0x11#8 1#8 0#32)) ∧
    (∀ t, s.tr = some t → SourceOk s p.args → s.params.maxPayload < p.args.len.toNat →
      exec .chunkNew s = .next (s.failed 0x12#8 2#8 0#32)) ∧
    (∀ t d, s.tr = some t → SourceOk s p.args → p.args.len.toNat ≤ s.params.maxPayload →
      Holds s p.args.src.toNat p.args.len.toNat d →
      exec .chunkNew s =
        .next ({ s with cr := some { type := t, length := p.args.len, data := d, crc := crc32 (t.bytes ++ d) },
                        resLen := p.args.len, resCrc := crc32 (t.bytes ++ d) } : State).succeeded)

/-- R152, R150: CHUNK_PARSE, with the frame's checks in their order; the bytes after the frame need not be written. -/
def Obligations.ChunkParseResult : Prop :=
  decode 0x00000021#32 = .ok .chunkParse ∧ ∀ s p, s.pend = some p →
    (¬ SourceOk s p.args → exec .chunkParse s = .next (s.failed 0x11#8 1#8 0#32)) ∧
    (SourceOk s p.args → p.args.len.toNat < 12 → exec .chunkParse s = .next (s.failed 0x02#8 1#8 0#32)) ∧
    (∀ l : Word, SourceOk s p.args → 12 ≤ p.args.len.toNat → Holds s p.args.src.toNat 4 (encBe32 l) →
      p.args.len.toNat < 12 + l.toNat → exec .chunkParse s = .next (s.failed 0x02#8 2#8 0#32)) ∧
    (∀ c : Chunk, SourceOk s p.args → c.length.toNat = c.data.length → 12 + c.length.toNat ≤ p.args.len.toNat →
      Holds s p.args.src.toNat (12 + c.length.toNat)
        (encBe32 c.length ++ c.type.bytes ++ c.data ++ encBe32 c.crc) →
      (c.crc ≠ crc32 (c.type.bytes ++ c.data) →
        exec .chunkParse s =
          .next (({ s with resCrc := crc32 (c.type.bytes ++ c.data) } : State).failed 0x03#8 0#8 0#32)) ∧
      (c.crc = crc32 (c.type.bytes ++ c.data) →
        exec .chunkParse s =
          .next ({ s with cr := some c, resLen := BitVec.ofNat 32 (12 + c.length.toNat), resCrc := c.crc } :
            State).succeeded))

/-- R155, R86: CHUNK_SERIALIZE writes the frame of CR and no other byte. -/
def Obligations.ChunkSerializeResult : Prop :=
  decode 0x00000022#32 = .ok .chunkSerialize ∧ ∀ s p, s.pend = some p →
    (s.cr = none → exec .chunkSerialize s = .next (s.failed 0x14#8 0#8 0#32)) ∧
    (∀ c, s.cr = some c → ¬ DestOk s p.args → exec .chunkSerialize s = .next (s.failed 0x11#8 2#8 0#32)) ∧
    (∀ c, s.cr = some c → DestOk s p.args → p.args.cap.toNat < 12 + c.length.toNat →
      exec .chunkSerialize s = .next (s.failed 0x12#8 1#8 0#32)) ∧
    (∀ c, s.cr = some c → DestOk s p.args → 12 + c.length.toNat ≤ p.args.cap.toNat → Memory.wf s.buf →
      c.length.toNat = c.data.length →
      ∃ m, exec .chunkSerialize s =
          .next ({ s with buf := m, resLen := BitVec.ofNat 32 (12 + c.length.toNat) } : State).succeeded ∧
        StoredAt s m p.args.dst.toNat (encBe32 c.length ++ c.type.bytes ++ c.data ++ encBe32 c.crc))

/-- R157: CHUNK_TYPE. -/
def Obligations.ChunkTypeResult : Prop :=
  decode 0x00000023#32 = .ok .chunkType ∧ ∀ s p, s.pend = some p →
    (s.cr = none → exec .chunkType s = .next (s.failed 0x14#8 0#8 0#32)) ∧
    (∀ c, s.cr = some c →
      exec .chunkType s = .next ({ s with tr := some c.type, resType := pack4 c.type } : State).succeeded)

/-- R158: CHUNK_INFO. -/
def Obligations.ChunkInfoResult : Prop :=
  decode 0x00000024#32 = .ok .chunkInfo ∧ ∀ s p, s.pend = some p →
    (s.cr = none → exec .chunkInfo s = .next (s.failed 0x14#8 0#8 0#32)) ∧
    (∀ c, s.cr = some c →
      exec .chunkInfo s =
        .next ({ s with resLen := c.length, resCrc := c.crc, resType := pack4 c.type } : State).succeeded)

/-- R159: CHUNK_DATA copies the payload, an empty one too. -/
def Obligations.ChunkDataResult : Prop :=
  decode 0x00000025#32 = .ok .chunkData ∧ ∀ s p, s.pend = some p →
    (s.cr = none → exec .chunkData s = .next (s.failed 0x14#8 0#8 0#32)) ∧
    (∀ c, s.cr = some c → ¬ DestOk s p.args → exec .chunkData s = .next (s.failed 0x11#8 2#8 0#32)) ∧
    (∀ c, s.cr = some c → DestOk s p.args → p.args.cap.toNat < c.length.toNat →
      exec .chunkData s = .next (s.failed 0x12#8 1#8 0#32)) ∧
    (∀ c, s.cr = some c → DestOk s p.args → c.length.toNat ≤ p.args.cap.toNat → Memory.wf s.buf →
      c.length.toNat = c.data.length →
      ∃ m, exec .chunkData s = .next ({ s with buf := m, resLen := c.length } : State).succeeded ∧
        StoredAt s m p.args.dst.toNat c.data)

/-- R160: valid UTF-8 is exactly a concatenation of the well-formed sequences of the table. -/
def Obligations.Utf8ValidIsConcatenation : Prop :=
  ∀ d : List Byte, utf8Valid d = true ↔ ∃ qs : List (List Byte), d = qs.flatten ∧ ∀ q ∈ qs, Utf8Sequence q

/-- R161: CHUNK_PAYLOAD_TEXT, the text checks before the capacity check. -/
def Obligations.ChunkPayloadTextResult : Prop :=
  decode 0x00000026#32 = .ok .chunkPayloadText ∧ ∀ s p, s.pend = some p →
    (s.cr = none → exec .chunkPayloadText s = .next (s.failed 0x14#8 0#8 0#32)) ∧
    (∀ c, s.cr = some c →
      (¬ DestOk s p.args → exec .chunkPayloadText s = .next (s.failed 0x11#8 2#8 0#32)) ∧
      (DestOk s p.args → c.length = 0#32 → exec .chunkPayloadText s = .next (s.failed 0x06#8 1#8 0#32)) ∧
      (DestOk s p.args → c.length ≠ 0#32 → utf8Valid c.data = false →
        exec .chunkPayloadText s = .next (s.failed 0x06#8 2#8 0#32)) ∧
      (DestOk s p.args → c.length ≠ 0#32 → utf8Valid c.data = true → p.args.cap.toNat < c.length.toNat →
        exec .chunkPayloadText s = .next (s.failed 0x12#8 1#8 0#32)) ∧
      (DestOk s p.args → c.length ≠ 0#32 → utf8Valid c.data = true → c.length.toNat ≤ p.args.cap.toNat →
        Memory.wf s.buf → c.length.toNat = c.data.length →
        ∃ m, exec .chunkPayloadText s = .next ({ s with buf := m, resLen := c.length } : State).succeeded ∧
          StoredAt s m p.args.dst.toNat c.data))

/-- R156: a well-formed chunk serialized and parsed again is the same chunk; a frame parsed and serialized again is the same
bytes. `s` and `u` are the states in which the two commands run; between them only BUF (first part) or CR (second part) need
carry over. -/
def Obligations.ChunkRoundTrips : Prop :=
  (∀ (s t u : State) (p q : Pending) (c : Chunk), s.pend = some p → s.cr = some c → Chunk.wf c → Memory.wf s.buf →
    DestOk s p.args → 12 + c.length.toNat ≤ p.args.cap.toNat → exec .chunkSerialize s = .next t →
    u.buf = t.buf → u.pend = some q → SourceOk u q.args → q.args.src = p.args.dst →
    12 + c.length.toNat ≤ q.args.len.toNat →
    ∃ v, exec .chunkParse u = .next v ∧ v.err = 0#8 ∧ v.cr = some c) ∧
  (∀ (s t u : State) (p q : Pending) (b : List Byte), s.pend = some p → SourceOk s p.args →
    Holds s p.args.src.toNat p.args.len.toNat b → s.params.bufBytes ≤ 2 ^ 31 →
    exec .chunkParse s = .next t → t.err = 0#8 →
    u.cr = t.cr → u.pend = some q → DestOk u q.args → Memory.wf u.buf → t.resLen.toNat ≤ q.args.cap.toNat →
    ∃ v, exec .chunkSerialize u = .next v ∧ v.err = 0#8 ∧ v.resLen = t.resLen ∧
      StoredAt u v.buf q.args.dst.toNat (b.take t.resLen.toNat))

/-- R162: a frame that CHUNK_PARSE accepts, with one bit of its type or payload flipped, is refused with CHECKSUM_MISMATCH. -/
def Obligations.FlippedFrameIsRefused : Prop :=
  ∀ (s t u : State) (p q : Pending) (b l r : List Byte) (x : Byte) (k : Nat), s.pend = some p → SourceOk s p.args →
    Holds s p.args.src.toNat p.args.len.toNat b → s.params.bufBytes ≤ 2 ^ 31 →
    exec .chunkParse s = .next t → t.err = 0#8 →
    b = l ++ x :: r → 4 ≤ l.length → l.length < t.resLen.toNat - 4 → k < 8 →
    u.pend = some q → SourceOk u q.args → q.args.len = p.args.len →
    Holds u q.args.src.toNat q.args.len.toNat (l ++ (x ^^^ (1#8 <<< k)) :: r) →
    ∃ v, exec .chunkParse u = .next v ∧ v.err = 0x03#8 ∧ v.cr = u.cr

/-! ### Container -/

/-- The signature checks of R190: nothing is read of a buffer shorter than 8 bytes, and nothing after a wrong signature. -/
def Obligations.ContParseChecksTheSignature : Prop :=
  decode 0x00000030#32 = .ok .contParse ∧ ∀ s p, s.pend = some p →
    (¬ SourceOk s p.args → exec .contParse s = .next (s.failed 0x11#8 1#8 0#32)) ∧
    (SourceOk s p.args → p.args.len.toNat < 8 → exec .contParse s = .next (s.failed 0x04#8 1#8 0#32)) ∧
    (∀ g, SourceOk s p.args → 8 ≤ p.args.len.toNat → Holds s p.args.src.toNat 8 g →
      g ≠ [0x89#8, 0x50#8, 0x4E#8, 0x47#8, 0x0D#8, 0x0A#8, 0x1A#8, 0x0A#8] →
      exec .contParse s = .next (s.failed 0x04#8 2#8 0#32))

/-- R190, R87: CONT_PARSE of the bytes of any list of well-formed chunks gives exactly that list, in order. -/
def Obligations.ContParseGivesTheList : Prop :=
  ∀ (s : State) (p : Pending) (l : List Chunk), s.pend = some p → s.params.legal → SourceOk s p.args →
    (∀ c ∈ l, Chunk.wf c) →
    Holds s p.args.src.toNat p.args.len.toNat
      ([0x89#8, 0x50#8, 0x4E#8, 0x47#8, 0x0D#8, 0x0A#8, 0x1A#8, 0x0A#8] ++ l.flatMap frame) →
    exec .contParse s =
      .next ({ s with cont := l, resIndex := BitVec.ofNat 32 l.length, resLen := p.args.len } : State).succeeded

/-- R190: the first frame that fails gives the error, at its own offset from ARG_SRC, and CONT keeps its value. `l` are the
good frames before it, `off` its offset and `m - off` the bytes that remain from it. -/
def Obligations.ContParseReportsTheFirstBadFrame : Prop :=
  ∀ (s : State) (p : Pending) (l : List Chunk) (off : Nat), s.pend = some p → s.params.legal → SourceOk s p.args →
    (∀ c ∈ l, Chunk.wf c) → off = serLen l → off < p.args.len.toNat →
    Holds s p.args.src.toNat off (serialize l) →
    (p.args.len.toNat < off + 12 → exec .contParse s = .next (s.failed 0x02#8 1#8 (BitVec.ofNat 32 off))) ∧
    (∀ n : Word, off + 12 ≤ p.args.len.toNat → Holds s (p.args.src.toNat + off) 4 (encBe32 n) →
      p.args.len.toNat < off + 12 + n.toNat →
      exec .contParse s = .next (s.failed 0x02#8 2#8 (BitVec.ofNat 32 off))) ∧
    (∀ c : Chunk, c.length.toNat = c.data.length → off + frameLen c ≤ p.args.len.toNat →
      Holds s (p.args.src.toNat + off) (frameLen c) (frame c) → c.crc ≠ checksum c.type c.data →
      exec .contParse s =
        .next (({ s with resCrc := checksum c.type c.data } : State).failed 0x03#8 0#8 (BitVec.ofNat 32 off)))

/-- R193, R192: CONT_SERIALIZE writes the signature and every frame in order, and no other byte. -/
def Obligations.ContSerializeResult : Prop :=
  decode 0x00000031#32 = .ok .contSerialize ∧ ∀ s p, s.pend = some p →
    (¬ DestOk s p.args → exec .contSerialize s = .next (s.failed 0x11#8 2#8 0#32)) ∧
    (DestOk s p.args → p.args.cap.toNat < 8 + (s.cont.map fun c => 12 + c.length.toNat).sum →
      exec .contSerialize s = .next (s.failed 0x12#8 1#8 0#32)) ∧
    (DestOk s p.args → 8 + (s.cont.map fun c => 12 + c.length.toNat).sum ≤ p.args.cap.toNat → Memory.wf s.buf →
      (∀ c ∈ s.cont, c.length.toNat = c.data.length) →
      ∃ m, exec .contSerialize s =
          .next ({ s with buf := m, resLen := BitVec.ofNat 32 (8 + (s.cont.map fun c => 12 + c.length.toNat).sum) } :
            State).succeeded ∧
        StoredAt s m p.args.dst.toNat
          ([0x89#8, 0x50#8, 0x4E#8, 0x47#8, 0x0D#8, 0x0A#8, 0x1A#8, 0x0A#8] ++ s.cont.flatMap frame))

/-- R194: a buffer that CONT_PARSE accepts is what CONT_SERIALIZE writes afterwards. -/
def Obligations.ContainerRoundTrips : Prop :=
  ∀ (s t u : State) (p q : Pending) (b : List Byte), s.pend = some p → SourceOk s p.args →
    Holds s p.args.src.toNat p.args.len.toNat b → exec .contParse s = .next t → t.err = 0#8 →
    u.cont = t.cont → u.pend = some q → DestOk u q.args → Memory.wf u.buf → p.args.len.toNat ≤ q.args.cap.toNat →
    ∃ v, exec .contSerialize u = .next v ∧ v.err = 0#8 ∧ v.resLen = p.args.len ∧ StoredAt u v.buf q.args.dst.toNat b

/-- R196: CONT_FIND gives the least matching index at or after ARG_INDEX, or |CONT| and FOUND = 0. -/
def Obligations.ContFindResult : Prop :=
  decode 0x00000032#32 = .ok .contFind ∧ ∀ s p, s.pend = some p →
    (∀ i c, p.args.index.toNat ≤ i → s.cont[i]? = some c → c.type = unpack4 p.args.type →
      (∀ j d, p.args.index.toNat ≤ j → j < i → s.cont[j]? = some d → d.type ≠ unpack4 p.args.type) →
      exec .contFind s =
        .next ({ s with resIndex := BitVec.ofNat 32 i, resFlags := 0x80#32 } : State).succeeded) ∧
    ((∀ j d, p.args.index.toNat ≤ j → s.cont[j]? = some d → d.type ≠ unpack4 p.args.type) →
      exec .contFind s =
        .next ({ s with resIndex := BitVec.ofNat 32 s.cont.length, resFlags := 0#32 } : State).succeeded)

/-- R198: CONT_GET copies a chunk into CR. -/
def Obligations.ContGetResult : Prop :=
  decode 0x00000033#32 = .ok .contGet ∧ ∀ s p, s.pend = some p →
    (s.cont.length ≤ p.args.index.toNat → exec .contGet s = .next (s.failed 0x15#8 0#8 0#32)) ∧
    (∀ c, s.cont[p.args.index.toNat]? = some c →
      exec .contGet s = .next ({ s with cr := some c } : State).succeeded)

/-- R199: CONT_APPEND, table full before store full. -/
def Obligations.ContAppendResult : Prop :=
  decode 0x00000034#32 = .ok .contAppend ∧ ∀ s p, s.pend = some p →
    (s.cr = none → exec .contAppend s = .next (s.failed 0x14#8 0#8 0#32)) ∧
    (∀ c, s.cr = some c →
      (s.cont.length = s.params.maxChunks → exec .contAppend s = .next (s.failed 0x12#8 3#8 0#32)) ∧
      (s.cont.length ≠ s.params.maxChunks →
        s.params.storeBytes < (s.cont.map fun c => c.length.toNat).sum + c.length.toNat →
        exec .contAppend s = .next (s.failed 0x12#8 4#8 0#32)) ∧
      (s.cont.length ≠ s.params.maxChunks →
        (s.cont.map fun c => c.length.toNat).sum + c.length.toNat ≤ s.params.storeBytes →
        exec .contAppend s =
          .next ({ s with cont := s.cont ++ [c], resIndex := BitVec.ofNat 32 s.cont.length } : State).succeeded))

/-- R200: CONT_REMOVE_FIRST takes out the first match only, and keeps the order of the rest. -/
def Obligations.ContRemoveFirstResult : Prop :=
  decode 0x00000035#32 = .ok .contRemoveFirst ∧ ∀ s p, s.pend = some p →
    ((∀ d ∈ s.cont, d.type ≠ unpack4 p.args.type) →
      exec .contRemoveFirst s = .next (s.failed 0x05#8 0#8 0#32)) ∧
    (∀ l c r, s.cont = l ++ c :: r → c.type = unpack4 p.args.type → (∀ d ∈ l, d.type ≠ unpack4 p.args.type) →
      exec .contRemoveFirst s =
        .next ({ s with cont := l ++ r, resIndex := BitVec.ofNat 32 l.length } : State).succeeded)

/-- R202: CONT_COUNT. -/
def Obligations.ContCountResult : Prop :=
  decode 0x00000036#32 = .ok .contCount ∧ ∀ s p, s.pend = some p →
    exec .contCount s =
      .next ({ s with resIndex := BitVec.ofNat 32 s.cont.length,
                      resLen := BitVec.ofNat 32 (8 + (s.cont.map fun c => 12 + c.length.toNat).sum) } : State).succeeded

/-- The parameter bounds of R6 make CAPACITY unreachable for every parse of a buffer in BUF (R151, R190), whatever its bytes
(an unwritten one reads as a free byte: log 1). -/
def Obligations.ParsesNeverRunOutOfCapacity : Prop :=
  ∀ (s : State) (p : Pending), s.pend = some p → s.params.legal →
    (∀ t, exec .chunkParse s = .next t → t.err ≠ 0x12#8 ∧
      ∀ c, s.cr ≠ t.cr → t.cr = some c → c.length.toNat ≤ s.params.maxPayload) ∧
    (∀ t, exec .contParse s = .next t → t.err ≠ 0x12#8)

/-! ### All commands -/

/-- R236: a command that ends in an error changes no TR, CR, CONT, BUF byte or result register, but RES_CRC on
CHECKSUM_MISMATCH. -/
def Obligations.ErrorsArePrecise : Prop :=
  ∀ (i : Instr) s p t, s.pend = some p → exec i s = .next t → t.err ≠ 0#8 →
    t.tr = s.tr ∧ t.cr = s.cr ∧ t.cont = s.cont ∧ (∀ a, Memory.read t.buf a = Memory.read s.buf a) ∧
    t.resLen = s.resLen ∧ t.resType = s.resType ∧ t.resIndex = s.resIndex ∧ t.resFlags = s.resFlags ∧
    (t.resCrc = s.resCrc ∨ t.err = 0x03#8 ∧ (i = .crcCheck ∨ i = .chunkParse ∨ i = .contParse))

/-- R83, column "writes", and R64: a command writes nothing that is not in its row, no BUF byte outside its destination range,
no ARG register, OVR or parameter. -/
def Obligations.CommandsWriteOnlyTheirRow : Prop :=
  ∀ (i : Instr) s p t, s.pend = some p → exec i s = .next t →
    (i ∉ [Instr.typeFromBytes, .typeFromText, .chunkType] → t.tr = s.tr) ∧
    (i ∉ [Instr.chunkNew, .chunkParse, .contGet] → t.cr = s.cr) ∧
    (i ∉ [Instr.contParse, .contAppend, .contRemoveFirst] → t.cont = s.cont) ∧
    (i ∉ [Instr.typeAsText, .chunkNew, .chunkParse, .chunkSerialize, .chunkInfo, .chunkData, .chunkPayloadText,
      .contParse, .contSerialize, .contCount] → t.resLen = s.resLen) ∧
    (i ∉ [Instr.crcChecksum, .crcCheck, .chunkNew, .chunkParse, .chunkInfo, .contParse] → t.resCrc = s.resCrc) ∧
    (i ∉ [Instr.typeAsBytes, .chunkType, .chunkInfo] → t.resType = s.resType) ∧
    (i ∉ [Instr.contParse, .contFind, .contAppend, .contRemoveFirst, .contCount] → t.resIndex = s.resIndex) ∧
    (i ∉ [Instr.typeProps, .typeEq, .contFind] → t.resFlags = s.resFlags) ∧
    (i ∉ [Instr.typeAsText, .chunkSerialize, .chunkData, .chunkPayloadText, .contSerialize] →
      ∀ a, Memory.read t.buf a = Memory.read s.buf a) ∧
    (Memory.wf s.buf → ∀ a, ¬ (p.args.dst.toNat ≤ a ∧ a < p.args.dst.toNat + p.args.cap.toNat) →
      Memory.read t.buf a = Memory.read s.buf a) ∧
    t.args = s.args ∧ t.ovr = s.ovr ∧ t.params = s.params ∧ t.script = s.script ∧ t.turns = s.turns ∧ t.seen = s.seen

/-- R232: a missing operand comes before a bad range, and a bad range before the command's own checks. -/
def Obligations.MissingOperandThenRange : Prop :=
  ∀ s p, s.pend = some p →
    (s.tr = none → ∀ i ∈ [Instr.typeAsBytes, .typeAsText, .typeProps, .typeEq, .chunkNew],
      exec i s = .next (s.failed 0x13#8 0#8 0#32)) ∧
    (s.cr = none → ∀ i ∈ [Instr.chunkSerialize, .chunkType, .chunkInfo, .chunkData, .chunkPayloadText, .contAppend],
      exec i s = .next (s.failed 0x14#8 0#8 0#32)) ∧
    (¬ SourceOk s p.args → s.tr ≠ none →
      ∀ i ∈ [Instr.crcChecksum, .crcCheck, .typeFromText, .chunkNew, .chunkParse, .contParse],
        exec i s = .next (s.failed 0x11#8 1#8 0#32)) ∧
    (¬ DestOk s p.args → s.tr ≠ none → s.cr ≠ none →
      ∀ i ∈ [Instr.typeAsText, .chunkSerialize, .chunkData, .chunkPayloadText, .contSerialize],
        exec i s = .next (s.failed 0x11#8 2#8 0#32))

/-- R163, R67: what a command does depends on no BUF byte outside its source range: with other bytes anywhere else, every part
of the state but BUF comes out the same (an unwritten byte reads as a free byte, log 1, and the draws are the model's, log 7). -/
def Obligations.CommandsReadOnlyTheirSource : Prop :=
  ∀ (i : Instr) (s : State) (p : Pending) (m : Memory) (t : State), s.pend = some p → exec i s = .next t →
    (∀ a, declaresSource i = true → p.args.src.toNat ≤ a → a < p.args.src.toNat + p.args.len.toNat →
      Memory.read m a = Memory.read s.buf a) →
    ∃ m', exec i { s with buf := m } = .next { t with buf := m' }

/-- R63: a command that reads an unwritten byte records UNINIT_READ; it completes all the same (the model's choice of log 1).
For each of the six commands that read BUF (R67), an unwritten byte among those its rule reads: all of the source range, the
four bytes of a text, a frame's length and then the whole frame, the signature and then each frame after good ones. -/
def Obligations.UnwrittenSourceIsRecorded : Prop :=
  ∀ s p, s.pend = some p → SourceOk s p.args →
    (Unwritten s p.args.src.toNat p.args.len.toNat →
      CompletesUninit .crcChecksum s ∧ CompletesUninit .crcCheck s ∧
      (s.tr ≠ none → p.args.len.toNat ≤ s.params.maxPayload → CompletesUninit .chunkNew s)) ∧
    (p.args.len = 4#32 → Unwritten s p.args.src.toNat 4 → CompletesUninit .typeFromText s) ∧
    (12 ≤ p.args.len.toNat → Unwritten s p.args.src.toNat 4 → CompletesUninit .chunkParse s) ∧
    (∀ n : Word, Holds s p.args.src.toNat 4 (encBe32 n) → 12 + n.toNat ≤ p.args.len.toNat →
      Unwritten s p.args.src.toNat (12 + n.toNat) → CompletesUninit .chunkParse s) ∧
    (8 ≤ p.args.len.toNat → Unwritten s p.args.src.toNat 8 → CompletesUninit .contParse s) ∧
    (∀ (l : List Chunk) (off : Nat), s.params.legal → (∀ c ∈ l, Chunk.wf c) → off = serLen l →
      off + 12 ≤ p.args.len.toNat → Holds s p.args.src.toNat off (serialize l) →
      (Unwritten s (p.args.src.toNat + off) 4 → CompletesUninit .contParse s) ∧
      (∀ n : Word, Holds s (p.args.src.toNat + off) 4 (encBe32 n) → off + 12 + n.toNat ≤ p.args.len.toNat →
        Unwritten s (p.args.src.toNat + off) (12 + n.toNat) → CompletesUninit .contParse s))

/-! ### The invariant, and what no step changes -/

/-- Every step keeps the invariant: BUF canonical and inside BUF_BYTES, chunks as R43 says, CONT in its bounds (R46), STATUS as
R270 says while BUSY, only listed error codes (R230, R231), RES_FLAGS' reserved bits 0 (R36). -/
def Obligations.StepKeepsTheInvariant : Prop :=
  ∀ s t, State.Inv s → step s = .next t → State.Inv t

/-- The machine right after reset meets the invariant, and so does a power-on with any legal parameters (R262). -/
def Obligations.ResetMeetsTheInvariant : Prop :=
  State.Inv State.reset ∧ ∀ p : Params, p.legal → State.Inv (State.powerOn p)

/-- R244, R21: no step clears a recorded model fault, reset included, and no step changes a parameter. -/
def Obligations.FaultsAndParametersAreKept : Prop :=
  ∀ s t, step s = .next t → Recorded.le s.faults t.faults ∧ t.params = s.params

/-- R72: where the platform places the two spaces has no influence on any step. -/
def Obligations.PlacementIsInvisible : Prop :=
  ∀ s t a b, step s = .next t → step (s.placedAt a b) = .next (t.placedAt a b)

/-! ### The host's accesses -/

/-- R266, R268: a write of CMD issues a command when none is pending, and only sets OVR when one is. -/
def Obligations.CmdWriteIssuesOrIsDropped : Prop :=
  ∀ (s : State) (w : Word),
    (s.pend = none → hostOp (.writeReg 0x04 4 w) s =
      { s with pend := some { cmd := w, args := s.args }, done := false, err := 0#8, errDetail := 0#8, ovr := false }) ∧
    (s.pend ≠ none → hostOp (.writeReg 0x04 4 w) s = { s with ovr := true })

/-- R32, R33, R269: a write of an ARG register sets that register alone, pending command or not, and a write of an RO register
or of a reserved offset changes nothing. -/
def Obligations.RegisterWrites : Prop :=
  ∀ (s : State) (v : Word),
    hostOp (.writeReg 0x0C 4 v) s = { s with args := { s.args with src := v } } ∧
    hostOp (.writeReg 0x10 4 v) s = { s with args := { s.args with len := v } } ∧
    hostOp (.writeReg 0x14 4 v) s = { s with args := { s.args with dst := v } } ∧
    hostOp (.writeReg 0x18 4 v) s = { s with args := { s.args with cap := v } } ∧
    hostOp (.writeReg 0x1C 4 v) s = { s with args := { s.args with type := v } } ∧
    hostOp (.writeReg 0x20 4 v) s = { s with args := { s.args with index := v } } ∧
    hostOp (.writeReg 0x24 4 v) s = { s with args := { s.args with crc := v } } ∧
    (∀ o, o ∈ [0x00, 0x08, 0x28, 0x2C, 0x30, 0x34, 0x38, 0x3C, 0x40, 0x44, 0x48, 0x4C] →
      hostOp (.writeReg o 4 v) s = s) ∧
    (∀ o, o % 4 = 0 → 0x50 ≤ o → o < 0x100 → hostOp (.writeReg o 4 v) s = s)

/-- R26: the fields of STATUS, with its reserved bits 0. -/
def Obligations.StatusFields : Prop :=
  ∀ s : State,
    s.status.getLsbD 0 = s.pend.isSome ∧ s.status.getLsbD 1 = s.done ∧
    (s.status.getLsbD 2 = true ↔ s.err ≠ 0#8) ∧ s.status.getLsbD 3 = s.tr.isSome ∧
    s.status.getLsbD 4 = s.cr.isSome ∧ s.status.getLsbD 5 = s.ovr ∧
    s.status.getLsbD 6 = false ∧ s.status.getLsbD 7 = false ∧
    s.status.extractLsb' 8 8 = s.err ∧ s.status.extractLsb' 16 8 = s.errDetail ∧ s.status.extractLsb' 24 8 = 0#8

/-- R32, R24, R38, R270's last bullet: what each register reads. STATUS, CMD, ID, the ARG and the CAP registers and the
reserved offsets read their value whether or not a command is pending; the result registers and ERR_OFFSET when none is. A
read changes nothing the block holds. -/
def Obligations.RegisterReads : Prop :=
  ∀ s : State,
    (∀ ov ∈ [(0x00, s.params.blockId), (0x04, 0#32), (0x08, s.status), (0x0C, s.args.src), (0x10, s.args.len),
        (0x14, s.args.dst), (0x18, s.args.cap), (0x1C, s.args.type), (0x20, s.args.index), (0x24, s.args.crc),
        (0x40, BitVec.ofNat 32 s.params.bufBytes), (0x44, BitVec.ofNat 32 s.params.maxPayload),
        (0x48, BitVec.ofNat 32 s.params.maxChunks), (0x4C, BitVec.ofNat 32 s.params.storeBytes)],
      hostOp (.readReg ov.1 4) s = { s with seen := s.seen ++ [.reg ov.1 ov.2] }) ∧
    (∀ o, o % 4 = 0 → 0x50 ≤ o → o < 0x100 →
      hostOp (.readReg o 4) s = { s with seen := s.seen ++ [.reg o 0#32] }) ∧
    (s.pend = none → ∀ ov ∈ [(0x28, s.resLen), (0x2C, s.resCrc), (0x30, s.resType), (0x34, s.resIndex),
        (0x38, s.resFlags), (0x3C, s.errOffset)],
      hostOp (.readReg ov.1 4) s = { s with seen := s.seen ++ [.reg ov.1 ov.2] })

/-- R270: while a command is pending STATUS reads exactly BUSY, TR_VALID, CR_VALID and OVR; the result registers and ERR_OFFSET
read a free draw, a fresh one for each read; a byte of the pending destination range reads a free draw. -/
def Obligations.ReadsWhileBusy : Prop :=
  ∀ s : State, State.Inv s → s.pend ≠ none →
    hostOp (.readReg 0x08 4) s =
      { s with seen := s.seen ++ [.reg 0x08 (flag true 0 ||| flag s.tr.isSome 3 ||| flag s.cr.isSome 4 ||| flag s.ovr 5)] } ∧
    (∀ o ∈ [0x28, 0x2C, 0x30, 0x34, 0x38, 0x3C],
      hostOp (.readReg o 4) s =
        { s with draws := s.draws + 1, seen := s.seen ++ [.reg o (Config.freeWord s.draws)] }) ∧
    (∀ a b, a < s.params.bufBytes → Memory.read s.buf a = some b → inPendingDest s a = true →
      hostOp (.readBuf a 1) s =
        { s with draws := s.draws + 1, seen := s.seen ++ [.byte a (Config.freeByte s.draws)] }) ∧
    (∀ a b, a < s.params.bufBytes → Memory.read s.buf a = some b → inPendingDest s a = false →
      hostOp (.readBuf a 1) s = { s with seen := s.seen ++ [.byte a b] })

/-- R62: host BUF reads and writes of one byte. A read of a written byte outside a pending destination range returns it. A read
of an unwritten byte records UNINIT_READ and returns a free byte (logs 1 and 7), inside a pending command's declared ranges
too (log 10). A write outside a pending command's ranges sets the byte. -/
def Obligations.HostBufAccess : Prop :=
  ∀ (s : State) (a : Nat), a < s.params.bufBytes →
    (∀ b, Memory.read s.buf a = some b → inPendingDest s a = false →
      hostOp (.readBuf a 1) s = { s with seen := s.seen ++ [.byte a b] }) ∧
    (Memory.read s.buf a = none → hostOp (.readBuf a 1) s =
      { s with faults := { s.faults with uninitRead := true }, draws := s.draws + 1,
               seen := s.seen ++ [.byte a (Config.freeByte s.draws)] }) ∧
    (∀ v, inPendingSource s a = false → inPendingDest s a = false → Memory.wf s.buf →
      ∃ m, hostOp (.writeBuf a 1 v) s = { s with buf := m } ∧ StoredAt s m a [v])

/-- R68, R62: an access the spec gives no meaning records HOST_ACCESS and does nothing else. -/
def Obligations.MeaninglessAccessIsRecorded : Prop :=
  ∀ (s : State) (o w a : Nat) (v : Word) (b : Byte),
    (w ≠ 4 ∨ o % 4 ≠ 0 ∨ 0x100 ≤ o →
      hostOp (.readReg o w) s = { s with faults := { s.faults with hostAccess := true } } ∧
      hostOp (.writeReg o w v) s = { s with faults := { s.faults with hostAccess := true } }) ∧
    (w ≠ 1 ∨ s.params.bufBytes ≤ a →
      hostOp (.readBuf a w) s = { s with faults := { s.faults with hostAccess := true } } ∧
      hostOp (.writeBuf a w b) s = { s with faults := { s.faults with hostAccess := true } })

/-- R267: a host BUF write inside a pending command's declared range records HOST_HAZARD; a command without a declared range
has no hazard. -/
def Obligations.RacingWriteIsRecorded : Prop :=
  ∀ (s : State) (p : Pending) (i : Instr) (a : Nat) (v : Byte), s.pend = some p → decode p.cmd = .ok i →
    a < s.params.bufBytes →
    ((declaresSource i = true ∧ p.args.src.toNat ≤ a ∧ a < p.args.src.toNat + p.args.len.toNat) ∨
      (declaresDest i = true ∧ p.args.dst.toNat ≤ a ∧ a < p.args.dst.toNat + p.args.cap.toNat) →
      (hostOp (.writeBuf a 1 v) s).faults = { s.faults with hostHazard := true }) ∧
    (declaresSource i = false → declaresDest i = false → (hostOp (.writeBuf a 1 v) s).faults = s.faults)

/-! ### Reset and the end of a command -/

/-- R261, R262, R263: what a reset leaves, with or without a pending command (a declared destination range becomes unwritten
whatever the abandoned command would have done: log 17), and what a power-on leaves (R260: registers as any reset; every BUF
byte unwritten; that it is a host step and keeps the model faults: log 13). -/
def Obligations.ResetState : Prop :=
  ∀ s : State,
    (∃ m, hostOp .reset s = s.afterReset m ∧
      (s.pend = none → ∀ a, Memory.read m a = Memory.read s.buf a) ∧
      (∀ p i, s.pend = some p → decode p.cmd = .ok i → ∀ a, Memory.read m a =
        if declaresDest i = true ∧ p.args.dst.toNat ≤ a ∧ a < p.args.dst.toNat + p.args.cap.toNat then none
        else Memory.read s.buf a) ∧
      (∀ p e, s.pend = some p → decode p.cmd = .error e → ∀ a, Memory.read m a = Memory.read s.buf a)) ∧
    (∃ m, hostOp .powerOn s = s.afterReset m ∧ ∀ a, Memory.read m a = none)

/-- R271: a pending command is over within as many steps as turns are listed, plus one. -/
def Obligations.PendingCommandEnds : Prop :=
  ∀ (s : State) (p : Pending), s.pend = some p →
    ∃ k t, k ≤ s.turns.length + 1 ∧ Host.Core.run Sys2Proof.core k s = .next t ∧ t.pend = none

/-- R92, R201: the host's loop REMOVE_ALL, from any state with nothing pending and for every list of turns, ends with every
chunk of the type gone and the rest in order, within as many steps as turns are listed plus 5 for each chunk removed and 5 for
the NOT_FOUND that stops it. The loop as host steps is log 20; after the turns listed the default order of log 15 holds. -/
def Obligations.RemoveAllRemovesEveryMatch : Prop :=
  ∀ (s : State) (key : Word) (r : List HostOp), s.pend = none → s.script = removeAll key ++ r →
    ∃ k t, k ≤ s.turns.length + 5 * ((s.cont.filter fun c => c.type = unpack4 key).length + 1) ∧
      Host.Core.run Sys2Proof.core k s = .next t ∧
      t.script = r ∧ t.pend = none ∧ t.err = 0x05#8 ∧ t.cont = s.cont.filter (fun c => c.type ≠ unpack4 key) ∧
      t.tr = s.tr ∧ t.cr = s.cr ∧ t.buf = s.buf ∧ t.faults = s.faults

/-- R92, R196: the host's loop FIND_ALL, from any state with nothing pending and for every list of turns, yields the index of
every match, in file order, and leaves CONT as it was, within as many steps as turns are listed plus 7 for each match and 6 for
the last search. The loop as host steps is log 20; after the turns listed the default order of log 15 holds. -/
def Obligations.FindAllYieldsEveryMatch : Prop :=
  ∀ (s : State) (key : Word) (r : List HostOp), s.pend = none → s.script = findAllFrom key 0#32 ++ r →
    s.cont.length < 2 ^ 32 →
    ∃ k t, k ≤ s.turns.length + 7 * (s.cont.filter fun c => c.type = unpack4 key).length + 6 ∧
      Host.Core.run Sys2Proof.core k s = .next t ∧ t.script = r ∧ t.pend = none ∧ t.cont = s.cont ∧
      t.tr = s.tr ∧ t.cr = s.cr ∧ t.buf = s.buf ∧ t.faults = s.faults ∧
      t.yielded = s.yielded ++
        ((List.range s.cont.length).filter fun i =>
          (s.cont[i]?.map fun c => decide (c.type = unpack4 key)).getD false).map (BitVec.ofNat 32)
end

