-- ==== Sys2Proof/Laws/Decode.lean ====
section
/-! SUPPORT. Decoding and encoding of command words agree, both ways (30_encoding.md R80 to R82, R85). -/

namespace Sys2Proof

/-- A command word is its reserved field above its opcode field (R80). -/
theorem word_eq_fields (w : Word) : w = rsvField w ++ opcodeField w := by
  apply BitVec.eq_of_getLsbD_eq
  intro k hk
  simp only [rsvField, opcodeField, BitVec.getLsbD_append, BitVec.getLsbD_extractLsb']
  by_cases h : k < 8
  · simp [h]
  · have : k - 8 < 24 := by omega
    simp [h, this, show 8 + (k - 8) = k by omega]

@[simp] theorem rsvField_encode (i : Instr) : rsvField (encode i) = 0#24 := by cases i <;> rfl

@[simp] theorem opcodeField_encode (i : Instr) : opcodeField (encode i) = opcode i := by cases i <;> rfl

/-- The opcode map and the opcode column say the same (R82). -/
theorem lookup_opcode (i : Instr) : opcodeMap.lookup (opcode i) = some i := by cases i <;> rfl

/-- Every row of the opcode map has its instruction's opcode (R82). -/
theorem opcode_of_lookup {b : Byte} {i : Instr} (h : opcodeMap.lookup b = some i) : opcode i = b := by
  have rows : ∀ x ∈ opcodeMap, opcode x.2 = x.1 := by decide
  obtain ⟨l₁, l₂, h, -⟩ := List.lookup_eq_some_iff.1 h
  exact rows (b, i) (by simp [h])

/-- Decoding an instruction's word gives it back. -/
theorem decode_encode (i : Instr) : decode (encode i) = .ok i := by
  simp [decode, lookup_opcode]

/-- A word decodes to an instruction only if it is that instruction's word: no bit is dropped. -/
theorem decode_eq_ok_iff (w : Word) (i : Instr) : decode w = .ok i ↔ w = encode i := by
  refine ⟨fun h => ?_, fun h => h ▸ decode_encode i⟩
  unfold decode at h
  split at h
  · cases h
  · rename_i hr
    split at h
    · rename_i j hj
      cases h
      have hr' : rsvField w = 0#24 := by simpa using hr
      rw [word_eq_fields w, word_eq_fields (encode i), hr', rsvField_encode, opcodeField_encode, opcode_of_lookup hj]
    · cases h

/-- The reserved bits are looked at first (R81). -/
theorem decode_reserved {w : Word} (h : rsvField w ≠ 0#24) : decode w = .error .reservedBits := by
  simp [decode, h]

/-- A word with reserved bits 0 whose opcode no row has is unassigned (R81). -/
theorem decode_unassigned {w : Word} (h : rsvField w = 0#24) (hi : ∀ i, opcode i ≠ opcodeField w) :
    decode w = .error .unassignedOpcode := by
  simp only [decode, h, ne_eq, not_true_eq_false, if_false]
  split
  · rename_i j hj
    exact absurd (opcode_of_lookup hj) (hi j)
  · rfl

end Sys2Proof
end

