-- ==== Sys2Proof/Laws/Format.lean ====
section
/-! SUPPORT. The laws of the data formats: 4-byte words, the CRC-32, frames and containers, lookups, the text check, UTF-8. -/

namespace Sys2Proof.Machine

/-! ### Four-byte words (R34) -/

@[simp] theorem unpack4_pack4 (t : TypeCode) : unpack4 (pack4 t) = t := by
  obtain ⟨a, b, c, d⟩ := t
  simp only [unpack4, pack4, TypeCode.mk.injEq]
  refine ⟨?_, ?_, ?_, ?_⟩ <;>
  · apply BitVec.eq_of_getLsbD_eq
    intro k hk
    simp only [BitVec.getLsbD_extractLsb', BitVec.getLsbD_append, hk, decide_true, Bool.true_and]
    simp (disch := omega) only [if_neg, if_pos]
    congr 1
    try omega

@[simp] theorem pack4_unpack4 (w : Word) : pack4 (unpack4 w) = w := by
  apply BitVec.eq_of_getLsbD_eq
  intro k hk
  simp only [unpack4, pack4, BitVec.getLsbD_append, BitVec.getLsbD_extractLsb']
  by_cases h0 : k < 8
  · simp [h0]
  · by_cases h1 : k - 8 < 8
    · simp [h0, h1, show 8 + (k - 8) = k by omega]
    · by_cases h2 : k - 8 - 8 < 8
      · simp [h0, h1, h2, show 16 + (k - 8 - 8) = k by omega]
      · simp [h0, h1, h2, show k - 8 - 8 - 8 < 8 by omega, show 24 + (k - 8 - 8 - 8) = k by omega]

@[simp] theorem TypeCode.bytes_length (t : TypeCode) : t.bytes.length = 4 := rfl

@[simp] theorem quad_bytes (t : TypeCode) : quad t.bytes = t := rfl

theorem bytes_quad {b : List Byte} (h : b.length = 4) : (quad b).bytes = b := by
  obtain ⟨x0, x1, x2, x3, rfl⟩ := List.length_eq_four.1 h
  rfl

@[simp] theorem encBe32_length (v : Word) : (encBe32 v).length = 4 := rfl

@[simp] theorem be32_encBe32 (v : Word) : be32 (encBe32 v) = v := by simp [be32, encBe32]

theorem encBe32_be32 {b : List Byte} (h : b.length = 4) : encBe32 (be32 b) = b := by
  simp [be32, encBe32, bytes_quad h]

/-! ### The CRC-32 (R100, R104) -/

/-- One shift loses nothing: the bit shifted out is the top bit of the result. -/
theorem crcShift_injective {c d : Word} (h : crcShift c = crcShift d) : c = d := by
  have top : ∀ x : Word, (crcShift x).getLsbD 31 = x.getLsbD 0 := by
    intro x
    unfold crcShift
    cases hx : x.getLsbD 0 <;> simp only [Bool.false_eq_true, if_false, if_true] <;> simp
  have low : c.getLsbD 0 = d.getLsbD 0 := by rw [← top c, ← top d, h]
  have rest : c >>> 1 = d >>> 1 := by
    unfold crcShift at h
    rw [low] at h
    split at h
    · exact (BitVec.xor_left_inj _).1 h
    · exact h
  apply BitVec.eq_of_getLsbD_eq
  intro k hk
  cases k with
  | zero => exact low
  | succ k =>
    have := congrArg (fun x : Word => x.getLsbD k) rest
    simpa [BitVec.getLsbD_ushiftRight, Nat.add_comm] using this

/-- Taking in one byte loses nothing of the register. -/
theorem crcByte_injective {c d : Word} {b : Byte} (h : crcByte c b = crcByte d b) : c = d := by
  unfold crcByte at h
  have := crcShift_injective (crcShift_injective (crcShift_injective (crcShift_injective
    (crcShift_injective (crcShift_injective (crcShift_injective (crcShift_injective h)))))))
  exact (BitVec.xor_left_inj _).1 this

/-- Taking in one byte loses nothing of the byte. -/
theorem crcByte_injective_byte {c : Word} {b b' : Byte} (h : crcByte c b = crcByte c b') : b = b' := by
  unfold crcByte at h
  have := crcShift_injective (crcShift_injective (crcShift_injective (crcShift_injective
    (crcShift_injective (crcShift_injective (crcShift_injective (crcShift_injective h)))))))
  have := (BitVec.xor_right_inj _).1 this
  have := congrArg (BitVec.setWidth 8) this
  simpa using this

theorem crcFold_injective (l : List Byte) {c d : Word} (h : l.foldl crcByte c = l.foldl crcByte d) : c = d := by
  induction l generalizing c d with
  | nil => exact h
  | cons b l ih => exact crcByte_injective (ih h)

/-- Changing one byte changes the CRC (the reason for R104). -/
theorem crc32_change_byte {l r : List Byte} {b b' : Byte} (h : crc32 (l ++ b :: r) = crc32 (l ++ b' :: r)) : b = b' := by
  unfold crc32 at h
  have h := (BitVec.xor_left_inj _).1 h
  simp only [List.foldl_append, List.foldl_cons] at h
  exact crcByte_injective_byte (crcFold_injective r h)

/-! ### Frames and containers (R86, R87, R192) -/

theorem frame_length {c : Chunk} (h : c.length.toNat = c.data.length) : (frame c).length = frameLen c := by
  simp only [frame, frameLen, List.length_append, encBe32_length, TypeCode.bytes_length]
  omega

theorem serialize_length {l : List Chunk} (h : ∀ c ∈ l, c.length.toNat = c.data.length) :
    (serialize l).length = serLen l := by
  have : l.map (fun c => (frame c).length) = l.map frameLen :=
    List.map_congr_left fun c hc => frame_length (h c hc)
  simp only [serialize, serLen, List.length_append, List.length_flatMap, this]
  rfl

/-- The serialized size is the signature, 12 bytes a chunk, and the payloads (R192). -/
theorem serLen_eq (l : List Chunk) : serLen l = 8 + 12 * l.length + storeUse l := by
  induction l with
  | nil => rfl
  | cons c l ih =>
    simp only [serLen, storeUse, List.map_cons, List.sum_cons, List.length_cons, frameLen] at ih ⊢
    omega

/-! ### Lookup (R195, R196) -/

/-- A found index is the least one at or after `start` whose chunk matches. -/
theorem firstMatch_some {k : TypeCode} {start i j : Nat} {l : List Chunk} (h : firstMatch k start i l = some j) :
    i ≤ j ∧ start ≤ j ∧ (∃ c, l[j - i]? = some c ∧ c.type = k) ∧
      ∀ n, start ≤ i + n → i + n < j → ∀ c, l[n]? = some c → c.type ≠ k := by
  induction l generalizing i with
  | nil => cases h
  | cons c l ih =>
    unfold firstMatch at h
    split at h
    · rename_i hc
      cases h
      exact ⟨Nat.le_refl _, hc.1, ⟨c, by simp, hc.2⟩, fun n _ hn => absurd hn (by omega)⟩
    · rename_i hc
      obtain ⟨h1, h2, ⟨d, hd, hk⟩, h3⟩ := ih h
      refine ⟨by omega, h2, ⟨d, ?_, hk⟩, fun n hn hj e he => ?_⟩
      · rw [show j - i = (j - (i + 1)) + 1 by omega]; exact hd
      · cases n with
        | zero =>
          obtain rfl : c = e := by simpa using he
          exact fun hk => hc ⟨by simpa using hn, hk⟩
        | succ n => exact h3 n (by omega) (by omega) e (by simpa using he)

/-- Nothing found: no chunk at or after `start` matches. -/
theorem firstMatch_none {k : TypeCode} {start i : Nat} {l : List Chunk} (h : firstMatch k start i l = none) :
    ∀ n, start ≤ i + n → ∀ c, l[n]? = some c → c.type ≠ k := by
  induction l generalizing i with
  | nil => simp
  | cons c l ih =>
    unfold firstMatch at h
    split at h
    · cases h
    · rename_i hc
      intro n hn e he
      cases n with
      | zero =>
        obtain rfl : c = e := by simpa using he
        exact fun hk => hc ⟨by simpa using hn, hk⟩
      | succ n => exact ih h n (by omega) e (by simpa using he)

/-! ### The text check (R122) -/

/-- A text passes exactly when it is four letters with the reserved bit clear (R121, R122). -/
theorem textCheck_none_iff (d : List Byte) :
    textCheck d = none ↔ d.length = 4 ∧ (quad d).valid = true := by
  unfold textCheck
  by_cases hl : d.length = 4
  · have hb := bytes_quad hl
    simp only [hl, ne_eq, not_true_eq_false, if_false, TypeCode.valid, TypeCode.alpha, hb, Bool.and_eq_true, true_and]
    cases d.all isAlpha <;> cases (quad d).reservedValid <;> simp
  · simp [hl]

/-! ### UTF-8 (R160) -/

/-- The bytes of one well-formed sequence: a row of R160's table, byte by byte. -/
def Utf8Row.accepts (row : Utf8Row) (q : List Byte) : Prop :=
  ∃ b r, q = b :: r ∧ row.first.has b = true ∧ List.Forall₂ (fun x (g : ByteRange) => g.has x = true) r row.rest

/-- Completing the ranges due is a run of bytes in those ranges, then well-formed sequences. -/
theorem utf8From_append {due : List ByteRange} {r d : List Byte}
    (h : List.Forall₂ (fun x (g : ByteRange) => g.has x = true) r due) : utf8From due (r ++ d) = utf8From [] d := by
  induction h with
  | nil => rfl
  | cons hx _ ih => simp [utf8From, hx, ih]

/-- Accepted bytes complete the ranges due first. -/
theorem utf8From_split {due : List ByteRange} {d : List Byte} (h : utf8From due d = true) :
    ∃ r d', d = r ++ d' ∧ List.Forall₂ (fun x (g : ByteRange) => g.has x = true) r due ∧ utf8From [] d' = true := by
  induction due generalizing d with
  | nil => exact ⟨[], d, rfl, .nil, h⟩
  | cons g due ih =>
    cases d with
    | nil => simp [utf8From] at h
    | cons b d =>
      simp only [utf8From, Bool.and_eq_true] at h
      obtain ⟨r, d', rfl, hr, hd⟩ := ih h.2
      exact ⟨b :: r, d', rfl, .cons h.1 hr, hd⟩

/-- A well-formed sequence is one row of the table. -/
theorem utf8Sequence_iff (q : List Byte) : Utf8Sequence q ↔ ∃ row ∈ utf8Table, row.accepts q := by
  have has : ∀ lo hi (b : Byte), (ByteRange.mk lo hi).has b = true ↔ Within lo hi b := by
    intro lo hi b
    simp [ByteRange.has, Within]
  unfold utf8Table
  simp only [List.mem_cons, List.not_mem_nil, or_false, exists_eq_or_imp, exists_eq_left, Utf8Row.accepts, has]
  match q with
  | [] => simp [Utf8Sequence]
  | [a] => simp [Utf8Sequence, List.forall₂_cons_right_iff]
  | [a, b] => simp [Utf8Sequence, List.forall₂_cons_right_iff]
  | [a, b, c] => simp [Utf8Sequence, List.forall₂_cons_right_iff]
  | [a, b, c, d] => simp [Utf8Sequence, List.forall₂_cons_right_iff]
  | a :: b :: c :: d :: e :: r => simp [Utf8Sequence, List.forall₂_cons_right_iff]

/-- The rows' first bytes are disjoint: the first byte names its row. -/
theorem utf8Table_row : ∀ b : Byte, ∀ row ∈ utf8Table, row.first.has b = true →
    utf8Table.find? (fun row => row.first.has b) = some row := by
  decide +kernel

/-! ### Letters and flags -/

/-- The letter test is R121's two ranges. -/
theorem isAlpha_iff (b : Byte) : isAlpha b = true ↔ AsciiLetter b := by
  simp [isAlpha, AsciiLetter, Within]

/-- A flag is one bit of its register. -/
theorem getLsbD_flag (b : Bool) {n : Nat} (i : Nat) (hn : n < 32) : (flag b n).getLsbD i = (b && decide (i = n)) := by
  simp only [flag, BitVec.getLsbD_shiftLeft, BitVec.getLsbD_setWidth, BitVec.getLsbD_ofBool]
  by_cases h : i = n
  · subst h; simp [hn]
  · have : i < n ∨ i - n ≠ 0 := by omega
    rcases this with h' | h' <;> simp [h, h']

end Sys2Proof.Machine
end

