-- ==== Sys2Proof/Laws/Memory.lean ====
section
/-! SUPPORT. The laws of BUF: a read after a write, the canonical form kept by every memory operation, and BUF's bounds. -/

namespace Sys2Proof.Machine

/-! ### Reads after writes -/

@[simp] theorem Memory.read_nil (a : Nat) : Memory.read [] a = none := rfl

/-- An address below every listed one is unwritten. -/
theorem Memory.read_eq_none_of_lt {m : Memory} {a : Nat} (h : ∀ c ∈ m, a < c.1) : Memory.read m a = none := by
  induction m with
  | nil => rfl
  | cons c m ih =>
    have hc := h c (by simp)
    rw [Memory.read, if_neg (by omega), ih fun d hd => h d (by simp [hd])]

/-- Reading back what was written, and every other address unchanged. -/
theorem Memory.read_write (m : Memory) (a x : Nat) (v : Byte) (h : Memory.wf m) :
    Memory.read (Memory.write m a v) x = if x = a then some v else Memory.read m x := by
  induction m with
  | nil => simp [Memory.write, Memory.read, eq_comm]
  | cons c m ih =>
    obtain ⟨y, b⟩ := c
    have hm := (List.pairwise_cons.1 h).2
    have hy := (List.pairwise_cons.1 h).1
    simp only [Memory.write]
    split
    · simp only [Memory.read, eq_comm]
    · split
      · subst y
        simp only [Memory.read]
        by_cases hx : a = x <;> simp [hx, eq_comm]
      · simp only [Memory.read, ih hm]
        by_cases hx : y = x
        · subst hx
          have : ¬ y = a := by assumption
          simp [this]
        · simp [hx]

/-- What a listed address of a written memory is. -/
theorem Memory.mem_write {m : Memory} {a : Nat} {v : Byte} {c : Host.Cell} (h : c ∈ Memory.write m a v) :
    c = (a, v) ∨ c ∈ m := by
  induction m with
  | nil => simpa [Memory.write] using h
  | cons d m ih =>
    obtain ⟨y, b⟩ := d
    simp only [Memory.write] at h
    split at h
    · simpa using h
    · split at h
      · rcases List.mem_cons.1 h with h | h
        · exact .inl h
        · exact .inr (by simp [h])
      · rcases List.mem_cons.1 h with h | h
        · exact .inr (by simp [h])
        · exact (ih h).imp id fun h => by simp [h]

/-- A write keeps the canonical form. -/
theorem Memory.write_wf (m : Memory) (a : Nat) (v : Byte) (h : Memory.wf m) : Memory.wf (Memory.write m a v) := by
  induction m with
  | nil => simp [Memory.write, Memory.wf]
  | cons c m ih =>
    obtain ⟨y, b⟩ := c
    obtain ⟨hy, hm⟩ := List.pairwise_cons.1 h
    simp only [Memory.write]
    split
    · refine List.pairwise_cons.2 ⟨fun d hd => ?_, h⟩
      rcases List.mem_cons.1 hd with rfl | hd
      · assumption
      · exact Nat.lt_trans ‹a < y› (hy d hd)
    · split
      · subst y; exact List.pairwise_cons.2 ⟨hy, hm⟩
      · refine List.pairwise_cons.2 ⟨fun d hd => ?_, ih hm⟩
        rcases Memory.mem_write hd with rfl | hd
        · simp only; omega
        · exact hy d hd

/-- Writing a run of bytes keeps the canonical form. -/
theorem Memory.writeAll_wf (v : List Byte) (m : Memory) (a : Nat) (h : Memory.wf m) :
    Memory.wf (Memory.writeAll m a v) := by
  induction v generalizing m a with
  | nil => exact h
  | cons b v ih => exact ih _ _ (Memory.write_wf m a b h)

/-- What reading one address gives after a run of bytes is written (R64). -/
theorem Memory.read_writeAll (v : List Byte) (m : Memory) (a x : Nat) (h : Memory.wf m) :
    Memory.read (Memory.writeAll m a v) x =
      if a ≤ x ∧ x < a + v.length then v[x - a]? else Memory.read m x := by
  induction v generalizing m a with
  | nil =>
    have : ¬ (a ≤ x ∧ x < a + 0) := by omega
    simp [Memory.writeAll]
  | cons b v ih =>
    rw [Memory.writeAll, ih _ _ (Memory.write_wf m a b h), Memory.read_write m a x b h]
    by_cases hx : x = a
    · subst hx; simp
    · by_cases h1 : a ≤ x ∧ x < a + (v.length + 1)
      · have h2 : a + 1 ≤ x ∧ x < a + 1 + v.length := by omega
        have h3 : x - a = (x - (a + 1)) + 1 := by omega
        simp [h1, h2, h3]
      · have h2 : ¬ (a + 1 ≤ x ∧ x < a + 1 + v.length) := by omega
        simp only [h2, if_false, hx, List.length_cons, h1]

/-- What a listed address is after a run of bytes is written. -/
theorem Memory.mem_writeAll {v : List Byte} {m : Memory} {a : Nat} {c : Host.Cell}
    (h : c ∈ Memory.writeAll m a v) : (a ≤ c.1 ∧ c.1 < a + v.length) ∨ c ∈ m := by
  induction v generalizing m a with
  | nil => exact .inr h
  | cons b v ih =>
    rcases ih h with h | h
    · exact .inl ⟨by omega, by simp only [List.length_cons]; omega⟩
    · exact (Memory.mem_write h).imp (fun h => by subst h; simp) id

/-- Taking cells out keeps the canonical form. -/
theorem Memory.filter_wf (f : Host.Cell → Bool) (m : Memory) (h : Memory.wf m) : Memory.wf (m.filter f) :=
  List.Pairwise.filter f h

/-- Reading after the cells at some addresses are made unwritten (R261). -/
theorem Memory.read_filter (m : Memory) (f : Nat → Bool) (x : Nat) :
    Memory.read (m.filter fun c => f c.1) x = if f x then Memory.read m x else none := by
  induction m with
  | nil => simp
  | cons c m ih =>
    obtain ⟨y, b⟩ := c
    by_cases hf : f y = true
    · simp only [List.filter_cons, hf, if_true, Memory.read, ih]
      by_cases hx : y = x
      · subst hx; simp [hf]
      · simp [hx]
    · simp only [List.filter_cons, hf, Memory.read]
      by_cases hx : y = x
      · subst hx; simp only [hf, Bool.false_eq_true, if_false] at ih ⊢; exact ih
      · simpa [hx] using ih

/-! ### Runs of cells -/

@[simp] theorem Memory.readAll_length (m : Memory) (a n : Nat) : (Memory.readAll m a n).length = n := by
  simp [Memory.readAll]

@[simp] theorem Memory.readAll_zero (m : Memory) (a : Nat) : Memory.readAll m a 0 = [] := rfl

/-- A run of cells is a run and the run after it. -/
theorem Memory.readAll_add (m : Memory) (a n k : Nat) :
    Memory.readAll m a (n + k) = Memory.readAll m a n ++ Memory.readAll m (a + n) k := by
  simp [Memory.readAll, List.range_add, Function.comp_def, Nat.add_assoc]

/-- Runs of cells agree where the single reads agree. -/
theorem Memory.readAll_congr {m m' : Memory} {a n : Nat}
    (h : ∀ x, a ≤ x → x < a + n → Memory.read m x = Memory.read m' x) :
    Memory.readAll m a n = Memory.readAll m' a n := by
  refine List.map_congr_left fun k hk => h _ (by omega) ?_
  have := List.mem_range.1 hk
  omega

/-- Reading back a run of bytes just written. -/
theorem Memory.readAll_writeAll (m : Memory) (a : Nat) (v : List Byte) (h : Memory.wf m) :
    Memory.readAll (Memory.writeAll m a v) a v.length = v.map some := by
  refine List.ext_getElem (by simp) fun k h1 h2 => ?_
  have hk : k < v.length := by simpa using h1
  simp [Memory.readAll, Memory.read_writeAll _ _ _ _ h, hk]

/-! ### What a held run of bytes gives -/

/-- A run of the bytes held in a range is held at its own place. -/
theorem Holds.slice {s : State} {a n : Nat} {d : List Byte} (h : Holds s a n d) (i k : Nat) (hk : i + k ≤ n) :
    Holds s (a + i) k ((d.drop i).take k) := by
  have hn : n = i + (k + (n - i - k)) := by omega
  unfold Holds at h ⊢
  rw [hn, Memory.readAll_add, Memory.readAll_add] at h
  have h1 := congrArg (fun l => (l.drop i).take k) h
  simpa [List.drop_append, List.take_append, List.map_drop, List.map_take] using h1

theorem Holds.length {s : State} {a n : Nat} {d : List Byte} (h : Holds s a n d) : d.length = n := by
  have := congrArg List.length h
  simpa using this.symm

end Sys2Proof.Machine
end

