-- ==== Sys2Proof/Laws/State.lean ====
section
/-! SUPPORT. One lemma per field per update of the state, so that no proof unfolds a record update. -/

namespace Sys2Proof.Machine

variable (s : State)

/-! ### `finish` -/

@[simp] theorem finish_params (c d : Byte) (n : Nat) : (s.finish c d n).params = s.params := rfl
@[simp] theorem finish_args (c d : Byte) (n : Nat) : (s.finish c d n).args = s.args := rfl
@[simp] theorem finish_resLen (c d : Byte) (n : Nat) : (s.finish c d n).resLen = s.resLen := rfl
@[simp] theorem finish_resCrc (c d : Byte) (n : Nat) : (s.finish c d n).resCrc = s.resCrc := rfl
@[simp] theorem finish_resType (c d : Byte) (n : Nat) : (s.finish c d n).resType = s.resType := rfl
@[simp] theorem finish_resIndex (c d : Byte) (n : Nat) : (s.finish c d n).resIndex = s.resIndex := rfl
@[simp] theorem finish_resFlags (c d : Byte) (n : Nat) : (s.finish c d n).resFlags = s.resFlags := rfl
@[simp] theorem finish_errOffset (c d : Byte) (n : Nat) : (s.finish c d n).errOffset = BitVec.ofNat 32 n := rfl
@[simp] theorem finish_done (c d : Byte) (n : Nat) : (s.finish c d n).done = true := rfl
@[simp] theorem finish_ovr (c d : Byte) (n : Nat) : (s.finish c d n).ovr = s.ovr := rfl
@[simp] theorem finish_err (c d : Byte) (n : Nat) : (s.finish c d n).err = c := rfl
@[simp] theorem finish_errDetail (c d : Byte) (n : Nat) : (s.finish c d n).errDetail = d := rfl
@[simp] theorem finish_tr (c d : Byte) (n : Nat) : (s.finish c d n).tr = s.tr := rfl
@[simp] theorem finish_cr (c d : Byte) (n : Nat) : (s.finish c d n).cr = s.cr := rfl
@[simp] theorem finish_cont (c d : Byte) (n : Nat) : (s.finish c d n).cont = s.cont := rfl
@[simp] theorem finish_buf (c d : Byte) (n : Nat) : (s.finish c d n).buf = s.buf := rfl
@[simp] theorem finish_pend (c d : Byte) (n : Nat) : (s.finish c d n).pend = none := rfl
@[simp] theorem finish_faults (c d : Byte) (n : Nat) : (s.finish c d n).faults = s.faults := rfl
@[simp] theorem finish_draws (c d : Byte) (n : Nat) : (s.finish c d n).draws = s.draws := rfl
@[simp] theorem finish_script (c d : Byte) (n : Nat) : (s.finish c d n).script = s.script := rfl
@[simp] theorem finish_turns (c d : Byte) (n : Nat) : (s.finish c d n).turns = s.turns := rfl
@[simp] theorem finish_seen (c d : Byte) (n : Nat) : (s.finish c d n).seen = s.seen := rfl

/-! ### `record` -/

@[simp] theorem record_params (f : Fault) : (s.record f).params = s.params := rfl
@[simp] theorem record_args (f : Fault) : (s.record f).args = s.args := rfl
@[simp] theorem record_resLen (f : Fault) : (s.record f).resLen = s.resLen := rfl
@[simp] theorem record_resCrc (f : Fault) : (s.record f).resCrc = s.resCrc := rfl
@[simp] theorem record_resType (f : Fault) : (s.record f).resType = s.resType := rfl
@[simp] theorem record_resIndex (f : Fault) : (s.record f).resIndex = s.resIndex := rfl
@[simp] theorem record_resFlags (f : Fault) : (s.record f).resFlags = s.resFlags := rfl
@[simp] theorem record_errOffset (f : Fault) : (s.record f).errOffset = s.errOffset := rfl
@[simp] theorem record_done (f : Fault) : (s.record f).done = s.done := rfl
@[simp] theorem record_ovr (f : Fault) : (s.record f).ovr = s.ovr := rfl
@[simp] theorem record_err (f : Fault) : (s.record f).err = s.err := rfl
@[simp] theorem record_errDetail (f : Fault) : (s.record f).errDetail = s.errDetail := rfl
@[simp] theorem record_tr (f : Fault) : (s.record f).tr = s.tr := rfl
@[simp] theorem record_cr (f : Fault) : (s.record f).cr = s.cr := rfl
@[simp] theorem record_cont (f : Fault) : (s.record f).cont = s.cont := rfl
@[simp] theorem record_buf (f : Fault) : (s.record f).buf = s.buf := rfl
@[simp] theorem record_pend (f : Fault) : (s.record f).pend = s.pend := rfl
@[simp] theorem record_faults (f : Fault) : (s.record f).faults = s.faults.add f := rfl
@[simp] theorem record_draws (f : Fault) : (s.record f).draws = s.draws := rfl
@[simp] theorem record_script (f : Fault) : (s.record f).script = s.script := rfl
@[simp] theorem record_turns (f : Fault) : (s.record f).turns = s.turns := rfl
@[simp] theorem record_seen (f : Fault) : (s.record f).seen = s.seen := rfl

/-! ### `sees` -/

@[simp] theorem sees_params (x : Seen) : (s.sees x).params = s.params := rfl
@[simp] theorem sees_args (x : Seen) : (s.sees x).args = s.args := rfl
@[simp] theorem sees_resLen (x : Seen) : (s.sees x).resLen = s.resLen := rfl
@[simp] theorem sees_resCrc (x : Seen) : (s.sees x).resCrc = s.resCrc := rfl
@[simp] theorem sees_resType (x : Seen) : (s.sees x).resType = s.resType := rfl
@[simp] theorem sees_resIndex (x : Seen) : (s.sees x).resIndex = s.resIndex := rfl
@[simp] theorem sees_resFlags (x : Seen) : (s.sees x).resFlags = s.resFlags := rfl
@[simp] theorem sees_errOffset (x : Seen) : (s.sees x).errOffset = s.errOffset := rfl
@[simp] theorem sees_done (x : Seen) : (s.sees x).done = s.done := rfl
@[simp] theorem sees_ovr (x : Seen) : (s.sees x).ovr = s.ovr := rfl
@[simp] theorem sees_err (x : Seen) : (s.sees x).err = s.err := rfl
@[simp] theorem sees_errDetail (x : Seen) : (s.sees x).errDetail = s.errDetail := rfl
@[simp] theorem sees_tr (x : Seen) : (s.sees x).tr = s.tr := rfl
@[simp] theorem sees_cr (x : Seen) : (s.sees x).cr = s.cr := rfl
@[simp] theorem sees_cont (x : Seen) : (s.sees x).cont = s.cont := rfl
@[simp] theorem sees_buf (x : Seen) : (s.sees x).buf = s.buf := rfl
@[simp] theorem sees_pend (x : Seen) : (s.sees x).pend = s.pend := rfl
@[simp] theorem sees_faults (x : Seen) : (s.sees x).faults = s.faults := rfl
@[simp] theorem sees_draws (x : Seen) : (s.sees x).draws = s.draws := rfl
@[simp] theorem sees_script (x : Seen) : (s.sees x).script = s.script := rfl
@[simp] theorem sees_turns (x : Seen) : (s.sees x).turns = s.turns := rfl
@[simp] theorem sees_seen (x : Seen) : (s.sees x).seen = s.seen ++ [x] := rfl

/-! ### `memWrite` -/

@[simp] theorem memWrite_params (a n : Nat) (v : List Byte) : (memWrite a n v s).params = s.params := rfl
@[simp] theorem memWrite_args (a n : Nat) (v : List Byte) : (memWrite a n v s).args = s.args := rfl
@[simp] theorem memWrite_resLen (a n : Nat) (v : List Byte) : (memWrite a n v s).resLen = s.resLen := rfl
@[simp] theorem memWrite_resCrc (a n : Nat) (v : List Byte) : (memWrite a n v s).resCrc = s.resCrc := rfl
@[simp] theorem memWrite_resType (a n : Nat) (v : List Byte) : (memWrite a n v s).resType = s.resType := rfl
@[simp] theorem memWrite_resIndex (a n : Nat) (v : List Byte) : (memWrite a n v s).resIndex = s.resIndex := rfl
@[simp] theorem memWrite_resFlags (a n : Nat) (v : List Byte) : (memWrite a n v s).resFlags = s.resFlags := rfl
@[simp] theorem memWrite_errOffset (a n : Nat) (v : List Byte) : (memWrite a n v s).errOffset = s.errOffset := rfl
@[simp] theorem memWrite_done (a n : Nat) (v : List Byte) : (memWrite a n v s).done = s.done := rfl
@[simp] theorem memWrite_ovr (a n : Nat) (v : List Byte) : (memWrite a n v s).ovr = s.ovr := rfl
@[simp] theorem memWrite_err (a n : Nat) (v : List Byte) : (memWrite a n v s).err = s.err := rfl
@[simp] theorem memWrite_errDetail (a n : Nat) (v : List Byte) : (memWrite a n v s).errDetail = s.errDetail := rfl
@[simp] theorem memWrite_tr (a n : Nat) (v : List Byte) : (memWrite a n v s).tr = s.tr := rfl
@[simp] theorem memWrite_cr (a n : Nat) (v : List Byte) : (memWrite a n v s).cr = s.cr := rfl
@[simp] theorem memWrite_cont (a n : Nat) (v : List Byte) : (memWrite a n v s).cont = s.cont := rfl
@[simp] theorem memWrite_buf (a n : Nat) (v : List Byte) : (memWrite a n v s).buf = Memory.writeAll s.buf a (v.take n) := rfl
@[simp] theorem memWrite_pend (a n : Nat) (v : List Byte) : (memWrite a n v s).pend = s.pend := rfl
@[simp] theorem memWrite_faults (a n : Nat) (v : List Byte) : (memWrite a n v s).faults = s.faults := rfl
@[simp] theorem memWrite_draws (a n : Nat) (v : List Byte) : (memWrite a n v s).draws = s.draws := rfl
@[simp] theorem memWrite_script (a n : Nat) (v : List Byte) : (memWrite a n v s).script = s.script := rfl
@[simp] theorem memWrite_turns (a n : Nat) (v : List Byte) : (memWrite a n v s).turns = s.turns := rfl
@[simp] theorem memWrite_seen (a n : Nat) (v : List Byte) : (memWrite a n v s).seen = s.seen := rfl

/-! ### `issue` -/

@[simp] theorem issue_params (w : Word) : (issue w s).params = s.params := rfl
@[simp] theorem issue_args (w : Word) : (issue w s).args = s.args := rfl
@[simp] theorem issue_resLen (w : Word) : (issue w s).resLen = s.resLen := rfl
@[simp] theorem issue_resCrc (w : Word) : (issue w s).resCrc = s.resCrc := rfl
@[simp] theorem issue_resType (w : Word) : (issue w s).resType = s.resType := rfl
@[simp] theorem issue_resIndex (w : Word) : (issue w s).resIndex = s.resIndex := rfl
@[simp] theorem issue_resFlags (w : Word) : (issue w s).resFlags = s.resFlags := rfl
@[simp] theorem issue_errOffset (w : Word) : (issue w s).errOffset = s.errOffset := rfl
@[simp] theorem issue_done (w : Word) : (issue w s).done = false := rfl
@[simp] theorem issue_ovr (w : Word) : (issue w s).ovr = false := rfl
@[simp] theorem issue_err (w : Word) : (issue w s).err = 0#8 := rfl
@[simp] theorem issue_errDetail (w : Word) : (issue w s).errDetail = 0#8 := rfl
@[simp] theorem issue_tr (w : Word) : (issue w s).tr = s.tr := rfl
@[simp] theorem issue_cr (w : Word) : (issue w s).cr = s.cr := rfl
@[simp] theorem issue_cont (w : Word) : (issue w s).cont = s.cont := rfl
@[simp] theorem issue_buf (w : Word) : (issue w s).buf = s.buf := rfl
@[simp] theorem issue_pend (w : Word) : (issue w s).pend = some { cmd := w, args := s.args } := rfl
@[simp] theorem issue_faults (w : Word) : (issue w s).faults = s.faults := rfl
@[simp] theorem issue_draws (w : Word) : (issue w s).draws = s.draws := rfl
@[simp] theorem issue_script (w : Word) : (issue w s).script = s.script := rfl
@[simp] theorem issue_turns (w : Word) : (issue w s).turns = s.turns := rfl
@[simp] theorem issue_seen (w : Word) : (issue w s).seen = s.seen := rfl

/-! ### `succeeded` -/

@[simp] theorem succeeded_params : (s.succeeded).params = s.params := rfl
@[simp] theorem succeeded_args : (s.succeeded).args = s.args := rfl
@[simp] theorem succeeded_resLen : (s.succeeded).resLen = s.resLen := rfl
@[simp] theorem succeeded_resCrc : (s.succeeded).resCrc = s.resCrc := rfl
@[simp] theorem succeeded_resType : (s.succeeded).resType = s.resType := rfl
@[simp] theorem succeeded_resIndex : (s.succeeded).resIndex = s.resIndex := rfl
@[simp] theorem succeeded_resFlags : (s.succeeded).resFlags = s.resFlags := rfl
@[simp] theorem succeeded_errOffset : (s.succeeded).errOffset = 0#32 := rfl
@[simp] theorem succeeded_done : (s.succeeded).done = true := rfl
@[simp] theorem succeeded_ovr : (s.succeeded).ovr = s.ovr := rfl
@[simp] theorem succeeded_err : (s.succeeded).err = 0#8 := rfl
@[simp] theorem succeeded_errDetail : (s.succeeded).errDetail = 0#8 := rfl
@[simp] theorem succeeded_tr : (s.succeeded).tr = s.tr := rfl
@[simp] theorem succeeded_cr : (s.succeeded).cr = s.cr := rfl
@[simp] theorem succeeded_cont : (s.succeeded).cont = s.cont := rfl
@[simp] theorem succeeded_buf : (s.succeeded).buf = s.buf := rfl
@[simp] theorem succeeded_pend : (s.succeeded).pend = none := rfl
@[simp] theorem succeeded_faults : (s.succeeded).faults = s.faults := rfl
@[simp] theorem succeeded_draws : (s.succeeded).draws = s.draws := rfl
@[simp] theorem succeeded_script : (s.succeeded).script = s.script := rfl
@[simp] theorem succeeded_turns : (s.succeeded).turns = s.turns := rfl
@[simp] theorem succeeded_seen : (s.succeeded).seen = s.seen := rfl

/-! ### `failed` -/

@[simp] theorem failed_params (c d : Byte) (n : Word) : (s.failed c d n).params = s.params := rfl
@[simp] theorem failed_args (c d : Byte) (n : Word) : (s.failed c d n).args = s.args := rfl
@[simp] theorem failed_resLen (c d : Byte) (n : Word) : (s.failed c d n).resLen = s.resLen := rfl
@[simp] theorem failed_resCrc (c d : Byte) (n : Word) : (s.failed c d n).resCrc = s.resCrc := rfl
@[simp] theorem failed_resType (c d : Byte) (n : Word) : (s.failed c d n).resType = s.resType := rfl
@[simp] theorem failed_resIndex (c d : Byte) (n : Word) : (s.failed c d n).resIndex = s.resIndex := rfl
@[simp] theorem failed_resFlags (c d : Byte) (n : Word) : (s.failed c d n).resFlags = s.resFlags := rfl
@[simp] theorem failed_errOffset (c d : Byte) (n : Word) : (s.failed c d n).errOffset = n := rfl
@[simp] theorem failed_done (c d : Byte) (n : Word) : (s.failed c d n).done = true := rfl
@[simp] theorem failed_ovr (c d : Byte) (n : Word) : (s.failed c d n).ovr = s.ovr := rfl
@[simp] theorem failed_err (c d : Byte) (n : Word) : (s.failed c d n).err = c := rfl
@[simp] theorem failed_errDetail (c d : Byte) (n : Word) : (s.failed c d n).errDetail = d := rfl
@[simp] theorem failed_tr (c d : Byte) (n : Word) : (s.failed c d n).tr = s.tr := rfl
@[simp] theorem failed_cr (c d : Byte) (n : Word) : (s.failed c d n).cr = s.cr := rfl
@[simp] theorem failed_cont (c d : Byte) (n : Word) : (s.failed c d n).cont = s.cont := rfl
@[simp] theorem failed_buf (c d : Byte) (n : Word) : (s.failed c d n).buf = s.buf := rfl
@[simp] theorem failed_pend (c d : Byte) (n : Word) : (s.failed c d n).pend = none := rfl
@[simp] theorem failed_faults (c d : Byte) (n : Word) : (s.failed c d n).faults = s.faults := rfl
@[simp] theorem failed_draws (c d : Byte) (n : Word) : (s.failed c d n).draws = s.draws := rfl
@[simp] theorem failed_script (c d : Byte) (n : Word) : (s.failed c d n).script = s.script := rfl
@[simp] theorem failed_turns (c d : Byte) (n : Word) : (s.failed c d n).turns = s.turns := rfl
@[simp] theorem failed_seen (c d : Byte) (n : Word) : (s.failed c d n).seen = s.seen := rfl

/-! ### `keptByReset` -/

@[simp] theorem keptByReset_params (m : Memory) : (keptByReset s m).params = s.params := rfl
@[simp] theorem keptByReset_args (m : Memory) : (keptByReset s m).args = { src := 0#32, len := 0#32, dst := 0#32, cap := 0#32, type := 0#32, index := 0#32, crc := 0#32 } := rfl
@[simp] theorem keptByReset_resLen (m : Memory) : (keptByReset s m).resLen = 0#32 := rfl
@[simp] theorem keptByReset_resCrc (m : Memory) : (keptByReset s m).resCrc = 0#32 := rfl
@[simp] theorem keptByReset_resType (m : Memory) : (keptByReset s m).resType = 0#32 := rfl
@[simp] theorem keptByReset_resIndex (m : Memory) : (keptByReset s m).resIndex = 0#32 := rfl
@[simp] theorem keptByReset_resFlags (m : Memory) : (keptByReset s m).resFlags = 0#32 := rfl
@[simp] theorem keptByReset_errOffset (m : Memory) : (keptByReset s m).errOffset = 0#32 := rfl
@[simp] theorem keptByReset_done (m : Memory) : (keptByReset s m).done = false := rfl
@[simp] theorem keptByReset_ovr (m : Memory) : (keptByReset s m).ovr = false := rfl
@[simp] theorem keptByReset_err (m : Memory) : (keptByReset s m).err = 0#8 := rfl
@[simp] theorem keptByReset_errDetail (m : Memory) : (keptByReset s m).errDetail = 0#8 := rfl
@[simp] theorem keptByReset_tr (m : Memory) : (keptByReset s m).tr = none := rfl
@[simp] theorem keptByReset_cr (m : Memory) : (keptByReset s m).cr = none := rfl
@[simp] theorem keptByReset_cont (m : Memory) : (keptByReset s m).cont = [] := rfl
@[simp] theorem keptByReset_buf (m : Memory) : (keptByReset s m).buf = m := rfl
@[simp] theorem keptByReset_pend (m : Memory) : (keptByReset s m).pend = none := rfl
@[simp] theorem keptByReset_faults (m : Memory) : (keptByReset s m).faults = s.faults := rfl
@[simp] theorem keptByReset_draws (m : Memory) : (keptByReset s m).draws = s.draws := rfl
@[simp] theorem keptByReset_script (m : Memory) : (keptByReset s m).script = s.script := rfl
@[simp] theorem keptByReset_turns (m : Memory) : (keptByReset s m).turns = s.turns := rfl
@[simp] theorem keptByReset_seen (m : Memory) : (keptByReset s m).seen = s.seen := rfl

/-- The two ways of writing the completion without an error agree (R235). -/
theorem finish_zero : s.finish 0#8 0#8 0 = s.succeeded := rfl

/-- The two ways of writing the completion with an error agree (R234). -/
theorem finish_eq_failed (c d : Byte) (n : Nat) : s.finish c d n = s.failed c d (BitVec.ofNat 32 n) := rfl

end Sys2Proof.Machine
end

