-- ==== Sys2Proof/Laws/Ops.lean ====
section
/-! SUPPORT. Everything each shared operation can do, said once: what MemRead answers and leaves alone, and how the checks
and completions commands share end. -/

namespace Sys2Proof.Machine

/-! ### Model faults only grow -/

theorem Recorded.le_refl (x : Recorded) : Recorded.le x x := ⟨id, id, id⟩

theorem Recorded.le_trans {x y z : Recorded} (h : Recorded.le x y) (k : Recorded.le y z) : Recorded.le x z :=
  ⟨k.1 ∘ h.1, k.2.1 ∘ h.2.1, k.2.2 ∘ h.2.2⟩

theorem Recorded.le_add (x : Recorded) (f : Fault) : Recorded.le x (x.add f) := by
  cases f <;> simp [Recorded.le, Recorded.add]

/-! ### Reads -/

/-- `t` is `s` after reads of BUF: only the model faults recorded and the draw counter may have grown. -/
def ReadsOnly (s t : State) : Prop :=
  ∃ f n, t = { s with faults := f, draws := n } ∧ Recorded.le s.faults f ∧ s.draws ≤ n

theorem ReadsOnly.refl (s : State) : ReadsOnly s s := ⟨s.faults, s.draws, rfl, Recorded.le_refl _, Nat.le_refl _⟩

theorem ReadsOnly.trans {s t u : State} (h : ReadsOnly s t) (k : ReadsOnly t u) : ReadsOnly s u := by
  obtain ⟨f, n, rfl, hf, hn⟩ := h
  obtain ⟨g, m, rfl, hg, hm⟩ := k
  exact ⟨g, m, rfl, Recorded.le_trans hf hg, Nat.le_trans hn hm⟩

/-- Reads leave BUF as it was. -/
theorem ReadsOnly.buf {s t : State} (h : ReadsOnly s t) : t.buf = s.buf := by
  obtain ⟨_, _, rfl, -, -⟩ := h
  rfl

/-- Reads keep a recorded UNINIT_READ (R244). -/
theorem ReadsOnly.uninit {s t : State} (h : ReadsOnly s t) (hs : s.faults.uninitRead = true) :
    t.faults.uninitRead = true := by
  obtain ⟨_, _, rfl, hf, -⟩ := h
  exact hf.1 hs

theorem fillFree_length (n : Nat) (cells : List (Option Byte)) : (fillFree n cells).length = cells.length := by
  induction cells generalizing n with
  | nil => rfl
  | cons c cells ih => cases c <;> simp [fillFree, ih]

theorem fillFree_some (n : Nat) (d : List Byte) : fillFree n (d.map some) = d := by
  induction d with
  | nil => rfl
  | cons b d ih => simp [fillFree, ih]

theorem unwrittenCount_some (d : List Byte) : unwrittenCount (d.map some) = 0 := by
  simp [unwrittenCount]

/-- MemRead returns n bytes (R63). -/
@[simp] theorem memRead_length (a n : Nat) (s : State) : (memRead a n s).1.length = n := by
  simp [memRead, fillFree_length]

/-- MemRead of written bytes returns them and changes nothing (R63). -/
theorem memRead_of_holds {s : State} {a n : Nat} {d : List Byte} (h : Holds s a n d) : memRead a n s = (d, s) := by
  unfold Holds at h
  simp [memRead, h, fillFree_some, unwrittenCount_some]

/-- MemRead changes nothing but the model faults and the draw counter (R63). -/
theorem memRead_readsOnly (a n : Nat) (s : State) : ReadsOnly s (memRead a n s).2 := by
  simp only [memRead]
  split
  · exact .refl s
  · exact ⟨_, _, rfl, Recorded.le_add _ _, Nat.le_add_right _ _⟩

/-- MemRead of a range with an unwritten byte records UNINIT_READ (R63). -/
theorem memRead_uninit {s : State} {a n : Nat} (h : none ∈ Memory.readAll s.buf a n) :
    (memRead a n s).2.faults.uninitRead = true := by
  have : unwrittenCount (Memory.readAll s.buf a n) ≠ 0 := by
    simp only [unwrittenCount, ne_eq, List.countP_eq_zero, not_forall]
    exact ⟨none, h, by simp⟩
  simp [memRead, this, Recorded.add]

/-- What MemRead returns and records depends only on the cells read, the draw counter and the faults (R63). -/
theorem memRead_congr {s t : State} {a n : Nat} (hb : Memory.readAll s.buf a n = Memory.readAll t.buf a n)
    (hd : s.draws = t.draws) : (memRead a n s).1 = (memRead a n t).1 := by
  simp [memRead, hb, hd]

/-! ### Ends of a command -/

/-- The outcome is a next state that satisfies P. -/
def Post (P : State → Prop) (o : Out) : Prop := ∃ t, o = .next t ∧ P t

theorem post_raise {P : State → Prop} {e : CmdError} {n : Nat} {s : State}
    (h : P (s.finish e.code e.detail n)) : Post P (raise e n s) := ⟨_, rfl, h⟩

theorem post_complete {P : State → Prop} {s : State} (h : P (s.finish 0#8 0#8 0)) : Post P (complete s) := ⟨_, rfl, h⟩

theorem Post.imp {P Q : State → Prop} {o : Out} (h : Post P o) (k : ∀ t, P t → Q t) : Post Q o :=
  let ⟨t, ht, hp⟩ := h
  ⟨t, ht, k t hp⟩

variable {P : State → Prop} {s : State}

@[simp] theorem withArgs_some {p : Pending} {k : Args → Out} (h : s.pend = some p) : withArgs s k = k p.args := by
  simp [withArgs, h]

theorem withArgs_none {k : Args → Out} (h : s.pend = none) : withArgs s k = .next s := by
  simp [withArgs, h]

theorem needType_some {t : TypeCode} {k : TypeCode → Out} (h : s.tr = some t) : needType s k = k t := by
  simp [needType, h]

theorem needType_none {k : TypeCode → Out} (h : s.tr = none) : needType s k = raise .noType 0 s := by
  simp [needType, h]

theorem needChunk_some {c : Chunk} {k : Chunk → Out} (h : s.cr = some c) : needChunk s k = k c := by
  simp [needChunk, h]

theorem needChunk_none {k : Chunk → Out} (h : s.cr = none) : needChunk s k = raise .noChunk 0 s := by
  simp [needChunk, h]

theorem inBounds_iff {a n : Nat} : inBounds s a n = true ↔ a + n ≤ s.params.bufBytes := by
  simp [inBounds]

theorem withSource_in {x : Args} {k : Out} (h : x.src.toNat + x.len.toNat ≤ s.params.bufBytes) :
    withSource x s k = k := by
  simp [withSource, inBounds, h]

theorem withSource_out {x : Args} {k : Out} (h : ¬ x.src.toNat + x.len.toNat ≤ s.params.bufBytes) :
    withSource x s k = raise .sourceRange 0 s := by
  simp [withSource, inBounds, h]

theorem withDest_in {x : Args} {k : Out} (h : x.dst.toNat + x.cap.toNat ≤ s.params.bufBytes) :
    withDest x s k = k := by
  simp [withDest, inBounds, h]

theorem withDest_out {x : Args} {k : Out} (h : ¬ x.dst.toNat + x.cap.toNat ≤ s.params.bufBytes) :
    withDest x s k = raise .destRange 0 s := by
  simp [withDest, inBounds, h]

theorem post_needType {k : TypeCode → Out} (h0 : s.tr = none → P (s.finish 0x13#8 0#8 0))
    (h1 : ∀ t, s.tr = some t → Post P (k t)) : Post P (needType s k) := by
  cases h : s.tr with
  | none => rw [needType_none h]; exact post_raise (h0 h)
  | some t => rw [needType_some h]; exact h1 t h

theorem post_needChunk {k : Chunk → Out} (h0 : s.cr = none → P (s.finish 0x14#8 0#8 0))
    (h1 : ∀ c, s.cr = some c → Post P (k c)) : Post P (needChunk s k) := by
  cases h : s.cr with
  | none => rw [needChunk_none h]; exact post_raise (h0 h)
  | some c => rw [needChunk_some h]; exact h1 c h

theorem post_withSource {x : Args} {k : Out}
    (h0 : ¬ x.src.toNat + x.len.toNat ≤ s.params.bufBytes → P (s.finish 0x11#8 1#8 0))
    (h1 : x.src.toNat + x.len.toNat ≤ s.params.bufBytes → Post P k) : Post P (withSource x s k) := by
  by_cases h : x.src.toNat + x.len.toNat ≤ s.params.bufBytes
  · rw [withSource_in h]; exact h1 h
  · rw [withSource_out h]; exact post_raise (h0 h)

theorem post_withDest {x : Args} {k : Out}
    (h0 : ¬ x.dst.toNat + x.cap.toNat ≤ s.params.bufBytes → P (s.finish 0x11#8 2#8 0))
    (h1 : x.dst.toNat + x.cap.toNat ≤ s.params.bufBytes → Post P k) : Post P (withDest x s k) := by
  by_cases h : x.dst.toNat + x.cap.toNat ≤ s.params.bufBytes
  · rw [withDest_in h]; exact h1 h
  · rw [withDest_out h]; exact post_raise (h0 h)

theorem post_putDest {x : Args} {n : Nat} {v : List Byte} (h0 : n > x.cap.toNat → P (s.finish 0x12#8 1#8 0))
    (h1 : n ≤ x.cap.toNat →
      P (({ memWrite x.dst.toNat n v s with resLen := BitVec.ofNat 32 n } : State).finish 0#8 0#8 0)) :
    Post P (putDest x n v s) := by
  unfold putDest
  split
  · exact post_raise (h0 ‹_›)
  · exact post_complete (h1 (Nat.le_of_not_gt ‹_›))

/-- A destination too small is CAPACITY detail 1 and nothing else (R66, R236). -/
theorem putDest_out {x : Args} {n : Nat} {v : List Byte} (h : x.cap.toNat < n) :
    putDest x n v s = .next (s.failed 0x12#8 1#8 0#32) := by
  unfold putDest
  rw [if_pos h]
  rfl

/-- A destination that fits receives exactly the bytes, and RES_LEN their number (R66). -/
theorem putDest_in {x : Args} {n : Nat} {v : List Byte} (h : n ≤ x.cap.toNat) (hv : v.length = n)
    (hw : Memory.wf s.buf) :
    ∃ m, putDest x n v s = .next ({ s with buf := m, resLen := BitVec.ofNat 32 n } : State).succeeded ∧
      StoredAt s m x.dst.toNat v := by
  unfold putDest
  rw [if_neg (Nat.not_lt.2 h)]
  refine ⟨_, rfl, fun a => ?_⟩
  simp only [memWrite]
  rw [List.take_of_length_le (Nat.le_of_eq hv)]
  exact Memory.read_writeAll v s.buf _ a hw

/-- `putDest_in` for a length held as a word. -/
theorem putDest_in_word {x : Args} {n : Word} {v : List Byte} (h : n.toNat ≤ x.cap.toNat) (hv : n.toNat = v.length)
    (hw : Memory.wf s.buf) :
    ∃ m, putDest x n.toNat v s = .next ({ s with buf := m, resLen := n } : State).succeeded ∧
      StoredAt s m x.dst.toNat v := by
  simpa using putDest_in h hv.symm hw

end Sys2Proof.Machine
end

