-- ==== Sys2Proof/Laws/Parse.lean ====
section
/-! SUPPORT. Everything the frame parser and the loop of CONT_PARSE can do, said once (43_chunk.md R150, R151;
44_container.md R190). -/

namespace Sys2Proof.Machine

/-! ### The frame parser -/

/-- The frame parser only reads (R150). -/
theorem parseFrame_readsOnly (a m : Nat) (s : State) : ReadsOnly s (parseFrame a m s).2 := by
  unfold parseFrame
  split
  · exact .refl s
  · simp only
    split
    · exact memRead_readsOnly _ _ _
    · split <;>
        exact (((memRead_readsOnly _ _ _).trans (memRead_readsOnly _ _ _)).trans (memRead_readsOnly _ _ _)).trans
          (memRead_readsOnly _ _ _)

/-- What a parsed frame is: a well-formed chunk (R43) and its frame's length, which fits the bytes available (R151). -/
theorem parseFrame_ok {a m n : Nat} {c : Chunk} {s t : State} (h : parseFrame a m s = (.ok c n, t)) :
    Chunk.wf c ∧ n = frameLen c ∧ frameLen c ≤ m := by
  unfold parseFrame at h
  split at h
  · cases h
  · simp only at h
    split at h
    · cases h
    · split at h
      · cases h
      · rename_i hm hk
        simp only [Prod.mk.injEq, FrameResult.ok.injEq] at h
        obtain ⟨⟨rfl, rfl⟩, -⟩ := h
        refine ⟨⟨?_, ?_⟩, rfl, ?_⟩
        · simp
        · simpa [eq_comm] using hk
        · simp only [frameLen]; omega

/-- The frame parser's errors are the two of TRUNCATED (R150). -/
theorem parseFrame_fail {a m : Nat} {e : CmdError} {s t : State} (h : parseFrame a m s = (.fail e, t)) :
    e = .frameTooShort ∨ e = .frameLengthTooLong := by
  unfold parseFrame at h
  split at h
  · simp only [Prod.mk.injEq, FrameResult.fail.injEq] at h
    exact .inl h.1.symm
  · simp only at h
    split at h
    · simp only [Prod.mk.injEq, FrameResult.fail.injEq] at h
      exact .inr h.1.symm
    · split at h <;> cases h

/-- A frame whose length field is not all written records UNINIT_READ (R150, R63). -/
theorem parseFrame_uninit_length {a m : Nat} {s : State} (hm : 12 ≤ m) (h : Unwritten s a 4) :
    (parseFrame a m s).2.faults.uninitRead = true := by
  have h1 := memRead_uninit h
  unfold parseFrame
  rw [if_neg (Nat.not_lt.2 hm)]
  simp only
  split
  · exact h1
  · split <;>
      exact (((memRead_readsOnly _ _ _).trans (memRead_readsOnly _ _ _)).trans (memRead_readsOnly _ _ _)).uninit h1

/-- A frame that fits, with its length field written and a byte after it unwritten, records UNINIT_READ (R150, R63). -/
theorem parseFrame_uninit_frame {a m : Nat} {n : Word} {s : State} (hl : Holds s a 4 (encBe32 n))
    (hm : 12 + n.toNat ≤ m) (h : Unwritten s a (12 + n.toNat)) :
    (parseFrame a m s).2.faults.uninitRead = true := by
  have hb (x k : Nat) (u : State) : (memRead x k u).2.buf = u.buf := (memRead_readsOnly x k u).buf
  have hr (x k : Nat) (u : State) := memRead_readsOnly x k u
  have key :
      (memRead (a + 8 + n.toNat) 4 (memRead (a + 8) n.toNat (memRead (a + 4) 4 s).2).2).2.faults.uninitRead = true := by
    rw [Unwritten, show 12 + n.toNat = 4 + (4 + (n.toNat + 4)) by omega, Memory.readAll_add, Memory.readAll_add,
      Memory.readAll_add, List.mem_append, List.mem_append, List.mem_append,
      show a + 4 + 4 = a + 8 from rfl] at h
    rcases h with h | h | h | h
    · rw [hl] at h
      simp at h
    · exact ((hr _ _ _).trans (hr _ _ _)).uninit (memRead_uninit h)
    · exact (hr _ _ _).uninit (memRead_uninit (by rwa [hb]))
    · exact memRead_uninit (by rwa [hb, hb])
  unfold parseFrame
  rw [if_neg (by omega)]
  simp only [memRead_of_holds hl, be32_encBe32]
  rw [if_neg (by omega)]
  split <;> exact key

/-! ### The loop of CONT_PARSE -/

/-- The loop only reads (R190, R191). -/
theorem parseLoop_readsOnly (fuel a m off total : Nat) (list : List Chunk) (s : State) :
    ReadsOnly s (parseLoop fuel a m off total list s).2 := by
  induction fuel generalizing off total list s with
  | zero => unfold parseLoop; split <;> exact .refl s
  | succ fuel ih =>
    unfold parseLoop
    split
    · exact .refl s
    · have hr := parseFrame_readsOnly (a + off) (m - off) s
      simp only
      split
      · rename_i h; rw [h] at hr; exact hr
      · rename_i h; rw [h] at hr; exact hr
      · rename_i h
        rw [h] at hr
        split
        · exact hr
        · split
          · exact hr
          · exact hr.trans (ih _ _ _ _)

/-- A frame that records UNINIT_READ leaves it recorded at the end of the loop (R190, R244). -/
theorem parseLoop_uninit {fuel a m off total : Nat} {list : List Chunk} {s : State} (hm : off < m) (hf : m - off ≤ fuel)
    (h : (parseFrame (a + off) (m - off) s).2.faults.uninitRead = true) :
    (parseLoop fuel a m off total list s).2.faults.uninitRead = true := by
  cases fuel with
  | zero => omega
  | succ fuel =>
    rw [parseLoop, if_neg (Nat.not_le.2 hm)]
    split
    · rename_i e; rw [e] at h; exact h
    · rename_i e; rw [e] at h; exact h
    · rename_i e
      rw [e] at h
      split
      · exact h
      · split
        · exact h
        · exact (parseLoop_readsOnly _ _ _ _ _ _ _).uninit h

theorem storeUse_append (l l' : List Chunk) : storeUse (l ++ l') = storeUse l + storeUse l' := by
  simp [storeUse]

theorem storeUse_single (c : Chunk) : storeUse [c] = c.length.toNat := by
  simp [storeUse]

/-- What the loop's list is when it ends well: CONT's bounds (R46) and the chunks' form (R43), given the same of the list so
far. -/
theorem parseLoop_ok {fuel a m off total : Nat} {list l : List Chunk} {s t : State}
    (h : parseLoop fuel a m off total list s = (.ok l, t)) (ht : total = storeUse list)
    (hc : list.length ≤ s.params.maxChunks) (hs : storeUse list ≤ s.params.storeBytes)
    (hw : ∀ c ∈ list, Chunk.wf c ∧ frameLen c ≤ m) :
    l.length ≤ s.params.maxChunks ∧ storeUse l ≤ s.params.storeBytes ∧ ∀ c ∈ l, Chunk.wf c ∧ frameLen c ≤ m := by
  induction fuel generalizing off total list s with
  | zero =>
    unfold parseLoop at h
    split at h
    · cases h; exact ⟨hc, hs, hw⟩
    · cases h
  | succ fuel ih =>
    unfold parseLoop at h
    split at h
    · cases h; exact ⟨hc, hs, hw⟩
    · have hr := parseFrame_readsOnly (a + off) (m - off) s
      simp only at h
      split at h
      · cases h
      · cases h
      · rename_i c n s1 hp
        rw [hp] at hr
        obtain ⟨f, k, rfl, -, -⟩ := hr
        obtain ⟨hwf, hn, hm⟩ := parseFrame_ok hp
        split at h
        · cases h
        · split at h
          · cases h
          · rename_i hmax hstore
            have key := ih h
            refine key ?_ ?_ ?_ ?_
            · rw [storeUse_append, storeUse_single, ht]
            · simp only [List.length_append, List.length_cons, List.length_nil]
              omega
            · rw [storeUse_append, storeUse_single, ← ht]
              exact Nat.le_of_not_gt hstore
            · intro d hd
              rcases List.mem_append.1 hd with hd | hd
              · exact hw d hd
              · obtain rfl : d = c := by simpa using hd
                exact ⟨hwf, by omega⟩

/-- Fuel that covers the bytes left is never used up: more of it changes nothing (log 8). -/
theorem parseLoop_fuel {fuel fuel' a m off total : Nat} {list : List Chunk} {s : State} (h : m - off ≤ fuel)
    (h' : m - off ≤ fuel') : parseLoop fuel a m off total list s = parseLoop fuel' a m off total list s := by
  induction fuel generalizing fuel' off total list s with
  | zero =>
    have hm : m ≤ off := by omega
    cases fuel' <;> simp [parseLoop, hm]
  | succ fuel ih =>
    by_cases hm : m ≤ off
    · cases fuel' <;> simp [parseLoop, hm]
    · cases fuel' with
      | zero => omega
      | succ fuel' =>
        simp only [parseLoop, hm, if_false]
        split
        · rfl
        · rfl
        · rename_i c n s1 hp
          obtain ⟨-, hn, -⟩ := parseFrame_ok hp
          have : 12 ≤ frameLen c := Nat.le_add_right 12 _
          split
          · rfl
          · split
            · rfl
            · exact ih (by omega) (by omega)

end Sys2Proof.Machine
end

