-- ==== Sys2Proof/Laws/Meanings.lean ====
section
/-! SUPPORT. One inversion lemma per command: every state it can end in, given the pending record. A property that holds of
each of those states holds of whatever the command ends in; invariants, frames and completion follow from these lemmas
without unfolding a meaning again. -/

namespace Sys2Proof.Machine

variable {P : State → Prop} {s : State} {p : Pending}

/-! ### CRC -/

theorem execCrcChecksum_post (hp : s.pend = some p)
    (h0 : P (s.finish 0x11#8 1#8 0))
    (h1 : p.args.src.toNat + p.args.len.toNat ≤ s.params.bufBytes → ∀ f n v, Recorded.le s.faults f → s.draws ≤ n →
      P (({ s with faults := f, draws := n, resCrc := v } : State).finish 0#8 0#8 0)) :
    Post P (execCrcChecksum s) := by
  unfold execCrcChecksum
  rw [withArgs_some hp]
  refine post_withSource (fun _ => h0) fun hb => ?_
  obtain ⟨f, n, hs, hf, hn⟩ := memRead_readsOnly p.args.src.toNat p.args.len.toNat s
  simp only [hs]
  exact post_complete (h1 hb _ _ _ hf hn)

theorem execCrcCheck_post (hp : s.pend = some p)
    (h0 : P (s.finish 0x11#8 1#8 0))
    (h1 : p.args.src.toNat + p.args.len.toNat ≤ s.params.bufBytes → ∀ f n v, Recorded.le s.faults f → s.draws ≤ n →
      P (({ s with faults := f, draws := n, resCrc := v } : State).finish 0#8 0#8 0) ∧
      P (({ s with faults := f, draws := n, resCrc := v } : State).finish 0x03#8 0#8 0)) :
    Post P (execCrcCheck s) := by
  unfold execCrcCheck
  rw [withArgs_some hp]
  refine post_withSource (fun _ => h0) fun hb => ?_
  obtain ⟨f, n, hs, hf, hn⟩ := memRead_readsOnly p.args.src.toNat p.args.len.toNat s
  simp only [hs]
  split
  · exact post_raise (h1 hb _ _ _ hf hn).2
  · exact post_complete (h1 hb _ _ _ hf hn).1

/-! ### Type code -/

theorem execTypeFromBytes_post (hp : s.pend = some p)
    (h1 : P (({ s with tr := some (unpack4 p.args.type) } : State).finish 0#8 0#8 0)) :
    Post P (execTypeFromBytes s) := by
  unfold execTypeFromBytes
  rw [withArgs_some hp]
  exact post_complete h1

theorem textCheck_error {d : List Byte} {e : CmdError} (h : textCheck d = some e) :
    e.code = 0x01#8 ∧ (e = .textLength ∨ e = .textNotAlpha ∨ e = .textReservedBit) := by
  unfold textCheck at h
  split at h
  · cases h; exact ⟨rfl, .inl rfl⟩
  · split at h
    · cases h; exact ⟨rfl, .inr (.inl rfl)⟩
    · split at h
      · cases h; exact ⟨rfl, .inr (.inr rfl)⟩
      · cases h

theorem execTypeFromText_post (hp : s.pend = some p)
    (h0 : P (s.finish 0x11#8 1#8 0))
    (h1 : ∀ e : CmdError, e.code = 0x01#8 → ∀ f n, Recorded.le s.faults f → s.draws ≤ n →
      P (({ s with faults := f, draws := n } : State).finish e.code e.detail 0))
    (h2 : ∀ f n t, Recorded.le s.faults f → s.draws ≤ n →
      P (({ s with faults := f, draws := n, tr := some t } : State).finish 0#8 0#8 0)) :
    Post P (execTypeFromText s) := by
  unfold execTypeFromText
  rw [withArgs_some hp]
  refine post_withSource (fun _ => h0) fun _ => ?_
  split
  · exact post_raise (h1 .textLength rfl _ _ (Recorded.le_refl _) (Nat.le_refl _))
  · obtain ⟨f, n, hs, hf, hn⟩ := memRead_readsOnly p.args.src.toNat 4 s
    simp only [hs]
    split
    · exact post_raise (h1 _ (textCheck_error ‹_›).1 _ _ hf hn)
    · exact post_complete (h2 _ _ _ hf hn)

theorem execTypeAsBytes_post (hp : s.pend = some p)
    (h0 : P (s.finish 0x13#8 0#8 0))
    (h1 : ∀ t, s.tr = some t → P (({ s with resType := pack4 t } : State).finish 0#8 0#8 0)) :
    Post P (execTypeAsBytes s) := by
  unfold execTypeAsBytes
  rw [withArgs_some hp]
  exact post_needType (fun _ => h0) fun t ht => post_complete (h1 t ht)

theorem execTypeAsText_post (hp : s.pend = some p)
    (h0 : P (s.finish 0x13#8 0#8 0)) (h1 : P (s.finish 0x11#8 2#8 0)) (h2 : P (s.finish 0x12#8 1#8 0))
    (h3 : ∀ t, p.args.dst.toNat + p.args.cap.toNat ≤ s.params.bufBytes → 4 ≤ p.args.cap.toNat →
      P (({ memWrite p.args.dst.toNat 4 t s with resLen := BitVec.ofNat 32 4 } : State).finish 0#8 0#8 0)) :
    Post P (execTypeAsText s) := by
  unfold execTypeAsText
  rw [withArgs_some hp]
  exact post_needType (fun _ => h0) fun t _ => post_withDest (fun _ => h1) fun hb =>
    post_putDest (fun _ => h2) fun hc => h3 _ hb hc

theorem execTypeProps_post (hp : s.pend = some p)
    (h0 : P (s.finish 0x13#8 0#8 0))
    (h1 : ∀ t, s.tr = some t → P (({ s with resFlags := propsFlags t } : State).finish 0#8 0#8 0)) :
    Post P (execTypeProps s) := by
  unfold execTypeProps
  rw [withArgs_some hp]
  exact post_needType (fun _ => h0) fun t ht => post_complete (h1 t ht)

theorem execTypeEq_post (hp : s.pend = some p)
    (h0 : P (s.finish 0x13#8 0#8 0))
    (h1 : ∀ e, P (({ s with resFlags := equalFlags e } : State).finish 0#8 0#8 0)) :
    Post P (execTypeEq s) := by
  unfold execTypeEq
  rw [withArgs_some hp]
  exact post_needType (fun _ => h0) fun t _ => post_complete (h1 _)

/-! ### Chunk -/

theorem execChunkNew_post (hp : s.pend = some p)
    (h0 : P (s.finish 0x13#8 0#8 0)) (h1 : P (s.finish 0x11#8 1#8 0)) (h2 : P (s.finish 0x12#8 2#8 0))
    (h3 : ∀ f n c, Recorded.le s.faults f → s.draws ≤ n → Chunk.wf c → c.length.toNat ≤ s.params.maxPayload →
      P (({ s with faults := f, draws := n, cr := some c, resLen := c.length, resCrc := c.crc } : State).finish
        0#8 0#8 0)) :
    Post P (execChunkNew s) := by
  unfold execChunkNew
  rw [withArgs_some hp]
  refine post_needType (fun _ => h0) fun t _ => post_withSource (fun _ => h1) fun _ => ?_
  split
  · exact post_raise h2
  · obtain ⟨f, n, hs, hf, hn⟩ := memRead_readsOnly p.args.src.toNat p.args.len.toNat s
    simp only [hs]
    let c : Chunk :=
      { type := t, length := p.args.len, data := (memRead p.args.src.toNat p.args.len.toNat s).1,
        crc := checksum t (memRead p.args.src.toNat p.args.len.toNat s).1 }
    exact post_complete (h3 f n c hf hn ⟨by simp [c], rfl⟩ (Nat.le_of_not_gt ‹_›))

theorem execChunkParse_post (hp : s.pend = some p)
    (h0 : P (s.finish 0x11#8 1#8 0))
    (h1 : ∀ e : CmdError, e.code = 0x02#8 → ∀ f n, Recorded.le s.faults f → s.draws ≤ n →
      P (({ s with faults := f, draws := n } : State).finish e.code e.detail 0))
    (h2 : ∀ f n k, Recorded.le s.faults f → s.draws ≤ n →
      P (({ s with faults := f, draws := n, resCrc := k } : State).finish 0x03#8 0#8 0))
    (h3 : ∀ f n c, Recorded.le s.faults f → s.draws ≤ n → Chunk.wf c → frameLen c ≤ s.params.bufBytes →
      P (({ s with faults := f, draws := n, cr := some c, resLen := BitVec.ofNat 32 (frameLen c), resCrc := c.crc } :
        State).finish 0#8 0#8 0)) :
    Post P (execChunkParse s) := by
  unfold execChunkParse
  rw [withArgs_some hp]
  refine post_withSource (fun _ => h0) fun hb => ?_
  have hr := parseFrame_readsOnly p.args.src.toNat p.args.len.toNat s
  split
  · rename_i h
    rw [h] at hr
    obtain ⟨f, n, rfl, hf, hn⟩ := hr
    exact post_raise (h2 _ _ _ hf hn)
  · rename_i e s1 h
    rw [h] at hr
    obtain ⟨f, n, rfl, hf, hn⟩ := hr
    have he : e.code = 0x02#8 := by rcases parseFrame_fail h with rfl | rfl <;> rfl
    exact post_raise (h1 e he _ _ hf hn)
  · rename_i c n s1 h
    rw [h] at hr
    obtain ⟨f, k, rfl, hf, hk⟩ := hr
    obtain ⟨hw, rfl, hm⟩ := parseFrame_ok h
    exact post_complete (h3 _ _ _ hf hk hw (by omega))

theorem execChunkSerialize_post (hp : s.pend = some p)
    (h0 : P (s.finish 0x14#8 0#8 0)) (h1 : P (s.finish 0x11#8 2#8 0)) (h2 : P (s.finish 0x12#8 1#8 0))
    (h3 : ∀ n v, p.args.dst.toNat + p.args.cap.toNat ≤ s.params.bufBytes → n ≤ p.args.cap.toNat →
      P (({ memWrite p.args.dst.toNat n v s with resLen := BitVec.ofNat 32 n } : State).finish 0#8 0#8 0)) :
    Post P (execChunkSerialize s) := by
  unfold execChunkSerialize
  rw [withArgs_some hp]
  exact post_needChunk (fun _ => h0) fun _ _ => post_withDest (fun _ => h1) fun hb =>
    post_putDest (fun _ => h2) fun hc => h3 _ _ hb hc

theorem execChunkType_post (hp : s.pend = some p)
    (h0 : P (s.finish 0x14#8 0#8 0))
    (h1 : ∀ c, s.cr = some c →
      P (({ s with tr := some c.type, resType := pack4 c.type } : State).finish 0#8 0#8 0)) :
    Post P (execChunkType s) := by
  unfold execChunkType
  rw [withArgs_some hp]
  exact post_needChunk (fun _ => h0) fun c hc => post_complete (h1 c hc)

theorem execChunkInfo_post (hp : s.pend = some p)
    (h0 : P (s.finish 0x14#8 0#8 0))
    (h1 : ∀ c, s.cr = some c →
      P (({ s with resLen := c.length, resCrc := c.crc, resType := pack4 c.type } : State).finish 0#8 0#8 0)) :
    Post P (execChunkInfo s) := by
  unfold execChunkInfo
  rw [withArgs_some hp]
  exact post_needChunk (fun _ => h0) fun c hc => post_complete (h1 c hc)

theorem execChunkData_post (hp : s.pend = some p)
    (h0 : P (s.finish 0x14#8 0#8 0)) (h1 : P (s.finish 0x11#8 2#8 0)) (h2 : P (s.finish 0x12#8 1#8 0))
    (h3 : ∀ n v, p.args.dst.toNat + p.args.cap.toNat ≤ s.params.bufBytes → n ≤ p.args.cap.toNat →
      P (({ memWrite p.args.dst.toNat n v s with resLen := BitVec.ofNat 32 n } : State).finish 0#8 0#8 0)) :
    Post P (execChunkData s) := by
  unfold execChunkData
  rw [withArgs_some hp]
  exact post_needChunk (fun _ => h0) fun _ _ => post_withDest (fun _ => h1) fun hb =>
    post_putDest (fun _ => h2) fun hc => h3 _ _ hb hc

theorem execChunkPayloadText_post (hp : s.pend = some p)
    (h0 : P (s.finish 0x14#8 0#8 0)) (h1 : P (s.finish 0x11#8 2#8 0)) (h2 : P (s.finish 0x12#8 1#8 0))
    (h3 : P (s.finish 0x06#8 1#8 0)) (h4 : P (s.finish 0x06#8 2#8 0))
    (h5 : ∀ n v, p.args.dst.toNat + p.args.cap.toNat ≤ s.params.bufBytes → n ≤ p.args.cap.toNat →
      P (({ memWrite p.args.dst.toNat n v s with resLen := BitVec.ofNat 32 n } : State).finish 0#8 0#8 0)) :
    Post P (execChunkPayloadText s) := by
  unfold execChunkPayloadText
  rw [withArgs_some hp]
  refine post_needChunk (fun _ => h0) fun _ _ => post_withDest (fun _ => h1) fun hb => ?_
  split
  · exact post_raise h3
  · split
    · exact post_raise h4
    · exact post_putDest (fun _ => h2) fun hc => h5 _ _ hb hc

/-! ### Container -/

/-- The errors the loop of CONT_PARSE ends in (R190). -/
theorem parseLoop_fail {fuel a m off total off' : Nat} {list : List Chunk} {e : CmdError} {s t : State}
    (h : parseLoop fuel a m off total list s = (.fail e off', t)) :
    e.code = 0x02#8 ∨ e = .chunkTableFull ∨ e = .storeFull := by
  induction fuel generalizing off total list s with
  | zero =>
    unfold parseLoop at h
    split at h
    · cases h
    · cases h; exact .inl rfl
  | succ fuel ih =>
    unfold parseLoop at h
    split at h
    · cases h
    · simp only at h
      split at h
      · cases h
      · rename_i hf
        cases h
        rcases parseFrame_fail hf with rfl | rfl <;> exact .inl rfl
      · split at h
        · cases h; exact .inr (.inl rfl)
        · split at h
          · cases h; exact .inr (.inr rfl)
          · exact ih h

theorem execContParse_post (hp : s.pend = some p)
    (h0 : P (s.finish 0x11#8 1#8 0))
    (h1 : ∀ (e : CmdError) off, e ≠ .checksumMismatch → ∀ f n, Recorded.le s.faults f → s.draws ≤ n →
      P (({ s with faults := f, draws := n } : State).finish e.code e.detail off))
    (h2 : ∀ off f n k, Recorded.le s.faults f → s.draws ≤ n →
      P (({ s with faults := f, draws := n, resCrc := k } : State).finish 0x03#8 0#8 off))
    (h3 : ∀ f n l, Recorded.le s.faults f → s.draws ≤ n → l.length ≤ s.params.maxChunks →
      storeUse l ≤ s.params.storeBytes → (∀ c ∈ l, Chunk.wf c ∧ frameLen c ≤ s.params.bufBytes) →
      P (({ s with faults := f, draws := n, cont := l, resIndex := BitVec.ofNat 32 l.length, resLen := p.args.len } :
        State).finish 0#8 0#8 0)) :
    Post P (execContParse s) := by
  unfold execContParse
  rw [withArgs_some hp]
  refine post_withSource (fun _ => h0) fun hb => ?_
  split
  · exact post_raise (h1 .signatureTooShort 0 (by decide) _ _ (Recorded.le_refl _) (Nat.le_refl _))
  · obtain ⟨f, n, hs, hf, hn⟩ := memRead_readsOnly p.args.src.toNat 8 s
    simp only [hs]
    split
    · exact post_raise (h1 .signatureDiffers 0 (by decide) _ _ hf hn)
    · have hr := parseLoop_readsOnly p.args.len.toNat p.args.src.toNat p.args.len.toNat 8 0 []
        { s with faults := f, draws := n }
      split
      · rename_i h
        rw [h] at hr
        obtain ⟨g, m, rfl, hg, hm⟩ := hr
        exact post_raise (h2 _ _ _ _ (Recorded.le_trans hf hg) (Nat.le_trans hn hm))
      · rename_i e off s2 h
        rw [h] at hr
        obtain ⟨g, m, rfl, hg, hm⟩ := hr
        refine post_raise (h1 e off ?_ _ _ (Recorded.le_trans hf hg) (Nat.le_trans hn hm))
        rintro rfl
        rcases parseLoop_fail h with h | h | h <;> cases h
      · rename_i l s2 h
        rw [h] at hr
        obtain ⟨g, m, rfl, hg, hm⟩ := hr
        obtain ⟨hc, hu, hw⟩ := parseLoop_ok h rfl (Nat.zero_le _) (Nat.zero_le _) (by simp)
        exact post_complete (h3 _ _ l (Recorded.le_trans hf hg) (Nat.le_trans hn hm) hc hu
          fun c hcl => ⟨(hw c hcl).1, by have := (hw c hcl).2; omega⟩)

theorem execContSerialize_post (hp : s.pend = some p)
    (h1 : P (s.finish 0x11#8 2#8 0)) (h2 : P (s.finish 0x12#8 1#8 0))
    (h3 : ∀ n v, p.args.dst.toNat + p.args.cap.toNat ≤ s.params.bufBytes → n ≤ p.args.cap.toNat →
      P (({ memWrite p.args.dst.toNat n v s with resLen := BitVec.ofNat 32 n } : State).finish 0#8 0#8 0)) :
    Post P (execContSerialize s) := by
  unfold execContSerialize
  rw [withArgs_some hp]
  exact post_withDest (fun _ => h1) fun hb => post_putDest (fun _ => h2) fun hc => h3 _ _ hb hc

theorem execContFind_post (hp : s.pend = some p)
    (h1 : ∀ i found, P (({ s with resIndex := i, resFlags := foundFlags found } : State).finish 0#8 0#8 0)) :
    Post P (execContFind s) := by
  unfold execContFind
  rw [withArgs_some hp]
  split <;> exact post_complete (h1 _ _)

theorem execContGet_post (hp : s.pend = some p)
    (h0 : P (s.finish 0x15#8 0#8 0))
    (h1 : ∀ c ∈ s.cont, P (({ s with cr := some c } : State).finish 0#8 0#8 0)) :
    Post P (execContGet s) := by
  unfold execContGet
  rw [withArgs_some hp]
  split
  · exact post_raise h0
  · exact post_complete (h1 _ (List.mem_of_getElem? ‹_›))

theorem execContAppend_post (hp : s.pend = some p)
    (h0 : P (s.finish 0x14#8 0#8 0)) (h1 : P (s.finish 0x12#8 3#8 0)) (h2 : P (s.finish 0x12#8 4#8 0))
    (h3 : ∀ c, s.cr = some c → s.cont.length ≠ s.params.maxChunks →
      storeUse s.cont + c.length.toNat ≤ s.params.storeBytes →
      P (({ s with cont := s.cont ++ [c], resIndex := BitVec.ofNat 32 s.cont.length } : State).finish 0#8 0#8 0)) :
    Post P (execContAppend s) := by
  unfold execContAppend
  rw [withArgs_some hp]
  refine post_needChunk (fun _ => h0) fun c hc => ?_
  split
  · exact post_raise h1
  · split
    · exact post_raise h2
    · exact post_complete (h3 c hc ‹_› (Nat.le_of_not_gt ‹_›))

theorem execContRemoveFirst_post (hp : s.pend = some p)
    (h0 : P (s.finish 0x05#8 0#8 0))
    (h1 : ∀ i, firstMatch (unpack4 p.args.type) 0 0 s.cont = some i →
      P (({ s with cont := s.cont.take i ++ s.cont.drop (i + 1), resIndex := BitVec.ofNat 32 i } : State).finish
        0#8 0#8 0)) :
    Post P (execContRemoveFirst s) := by
  unfold execContRemoveFirst
  rw [withArgs_some hp]
  split
  · exact post_raise h0
  · exact post_complete (h1 _ ‹_›)

theorem execContCount_post (hp : s.pend = some p)
    (h1 : P (({ s with resIndex := BitVec.ofNat 32 s.cont.length, resLen := BitVec.ofNat 32 (serLen s.cont) } :
      State).finish 0#8 0#8 0)) :
    Post P (execContCount s) := by
  unfold execContCount
  rw [withArgs_some hp]
  exact post_complete h1

/-- With nothing pending no command does anything (R20; log 5). -/
theorem exec_none (i : Instr) (h : s.pend = none) : exec i s = .next s := by
  cases i <;>
    simp only [exec, execCrcChecksum, execCrcCheck, execTypeFromBytes, execTypeFromText, execTypeAsBytes, execTypeAsText,
      execTypeProps, execTypeEq, execChunkNew, execChunkParse, execChunkSerialize, execChunkType,
      execChunkInfo, execChunkData, execChunkPayloadText, execContParse, execContSerialize, execContFind,
      execContGet, execContAppend, execContRemoveFirst, execContCount] <;>
    exact withArgs_none h

end Sys2Proof.Machine
end

