-- ==== Sys2Proof/Laws/Ends.lean ====
section
/-! SUPPORT. Everything the 22 commands can end in, as one relation: a statement over all commands is proved by cases on it
(30_encoding.md R83; 60_exceptions.md R233 to R236). -/

namespace Sys2Proof.Machine

/-- The states a command can end in, started in `s` with the pending record `p`. -/
inductive CommandEnd (s : State) (p : Pending) : Instr → State → Prop where
  /-- Any command may raise an error other than CHECKSUM_MISMATCH: only reads have happened (R236). -/
  | raised (i : Instr) (e : CmdError) (f : Recorded) (n off : Nat) (he : e ≠ .checksumMismatch)
      (hf : Recorded.le s.faults f) (hn : s.draws ≤ n) :
      CommandEnd s p i (({ s with faults := f, draws := n } : State).finish e.code e.detail off)
  | mismatch (i : Instr) (f : Recorded) (n : Nat) (v : Word) (off : Nat)
      (hi : i = .crcCheck ∨ i = .chunkParse ∨ i = .contParse) (hf : Recorded.le s.faults f) (hn : s.draws ≤ n) :
      CommandEnd s p i (({ s with faults := f, draws := n, resCrc := v } : State).finish 0x03#8 0#8 off)
  | crc (i : Instr) (f : Recorded) (n : Nat) (v : Word) (hi : i = .crcChecksum ∨ i = .crcCheck)
      (hf : Recorded.le s.faults f) (hn : s.draws ≤ n) :
      CommandEnd s p i (({ s with faults := f, draws := n, resCrc := v } : State).finish 0#8 0#8 0)
  | typeLoaded (i : Instr) (f : Recorded) (n : Nat) (t : TypeCode) (hi : i = .typeFromBytes ∨ i = .typeFromText)
      (hf : Recorded.le s.faults f) (hn : s.draws ≤ n) :
      CommandEnd s p i (({ s with faults := f, draws := n, tr := some t } : State).finish 0#8 0#8 0)
  | typeRead (v : Word) : CommandEnd s p .typeAsBytes (({ s with resType := v } : State).finish 0#8 0#8 0)
  | flagged (i : Instr) (v : Word) (hi : i = .typeProps ∨ i = .typeEq) (hv : v.toNat < 256) :
      CommandEnd s p i (({ s with resFlags := v } : State).finish 0#8 0#8 0)
  | stored (i : Instr) (n : Nat) (v : List Byte)
      (hi : i = .typeAsText ∨ i = .chunkSerialize ∨ i = .chunkData ∨ i = .chunkPayloadText ∨ i = .contSerialize)
      (hb : p.args.dst.toNat + p.args.cap.toNat ≤ s.params.bufBytes) (hc : n ≤ p.args.cap.toNat) :
      CommandEnd s p i
        (({ memWrite p.args.dst.toNat n v s with resLen := BitVec.ofNat 32 n } : State).finish 0#8 0#8 0)
  | chunkLoaded (i : Instr) (f : Recorded) (n : Nat) (v : Word) (c : Chunk) (hi : i = .chunkNew ∨ i = .chunkParse)
      (hf : Recorded.le s.faults f) (hn : s.draws ≤ n) (hw : Chunk.wf c)
      (hl : c.length.toNat ≤ s.params.maxPayload ∨ frameLen c ≤ s.params.bufBytes) :
      CommandEnd s p i
        (({ s with faults := f, draws := n, cr := some c, resLen := v, resCrc := c.crc } : State).finish 0#8 0#8 0)
  | chunkType (c : Chunk) (hc : s.cr = some c) :
      CommandEnd s p .chunkType (({ s with tr := some c.type, resType := pack4 c.type } : State).finish 0#8 0#8 0)
  | chunkInfo (c : Chunk) (hc : s.cr = some c) :
      CommandEnd s p .chunkInfo
        (({ s with resLen := c.length, resCrc := c.crc, resType := pack4 c.type } : State).finish 0#8 0#8 0)
  | contLoaded (f : Recorded) (n : Nat) (l : List Chunk) (hf : Recorded.le s.faults f) (hn : s.draws ≤ n)
      (hc : l.length ≤ s.params.maxChunks) (hs : storeUse l ≤ s.params.storeBytes)
      (hw : ∀ c ∈ l, Chunk.wf c ∧ frameLen c ≤ s.params.bufBytes) :
      CommandEnd s p .contParse
        (({ s with faults := f, draws := n, cont := l, resIndex := BitVec.ofNat 32 l.length, resLen := p.args.len } :
          State).finish 0#8 0#8 0)
  | searched (v : Word) (found : Bool) :
      CommandEnd s p .contFind (({ s with resIndex := v, resFlags := foundFlags found } : State).finish 0#8 0#8 0)
  | chunkCopied (c : Chunk) (hc : c ∈ s.cont) :
      CommandEnd s p .contGet (({ s with cr := some c } : State).finish 0#8 0#8 0)
  | appended (c : Chunk) (hc : s.cr = some c) (hl : s.cont.length ≠ s.params.maxChunks)
      (hs : storeUse s.cont + c.length.toNat ≤ s.params.storeBytes) :
      CommandEnd s p .contAppend
        (({ s with cont := s.cont ++ [c], resIndex := BitVec.ofNat 32 s.cont.length } : State).finish 0#8 0#8 0)
  | removed (i : Nat) :
      CommandEnd s p .contRemoveFirst
        (({ s with cont := s.cont.take i ++ s.cont.drop (i + 1), resIndex := BitVec.ofNat 32 i } : State).finish
          0#8 0#8 0)
  | counted :
      CommandEnd s p .contCount
        (({ s with resIndex := BitVec.ofNat 32 s.cont.length, resLen := BitVec.ofNat 32 (serLen s.cont) } :
          State).finish 0#8 0#8 0)

variable {s : State} {p : Pending}

theorem propsFlags_lt (t : TypeCode) : (propsFlags t).toNat < 256 := by
  have : ∀ a b c d e f, (flag a 0 ||| flag b 1 ||| flag c 2 ||| flag d 3 ||| flag e 4 ||| flag f 5).toNat < 256 := by
    decide
  exact this _ _ _ _ _ _

theorem equalFlags_lt : ∀ e, (equalFlags e).toNat < 256 := by decide

theorem foundFlags_lt : ∀ e, (foundFlags e).toNat < 256 := by decide

/-- Every command with a pending record ends, in a state of `CommandEnd`. -/
theorem exec_ends (hp : s.pend = some p) (i : Instr) : ∃ t, exec i s = .next t ∧ CommandEnd s p i t := by
  change Post (CommandEnd s p i) (exec i s)
  have le := Recorded.le_refl s.faults
  have r (e : CmdError) (he : e ≠ .checksumMismatch) : CommandEnd s p i (s.finish e.code e.detail 0) :=
    .raised i e _ _ 0 he le (Nat.le_refl _)
  have src := r .sourceRange (by decide)
  have dst := r .destRange (by decide)
  have cap := r .destCapacity (by decide)
  have nt := r .noType (by decide)
  have nc := r .noChunk (by decide)
  cases i with
  | crcChecksum => exact execCrcChecksum_post hp src fun _ f n v hf hn => .crc _ f n v (by simp) hf hn
  | crcCheck =>
    exact execCrcCheck_post hp src fun _ f n v hf hn =>
      ⟨.crc _ f n v (by simp) hf hn, .mismatch _ f n v 0 (by simp) hf hn⟩
  | typeFromBytes => exact execTypeFromBytes_post hp (.typeLoaded _ _ _ _ (by simp) le (Nat.le_refl _))
  | typeFromText =>
    exact execTypeFromText_post hp src
      (fun e he f n hf hn => .raised _ e f n 0 (by rintro rfl; cases he) hf hn)
      fun f n t hf hn => .typeLoaded _ f n t (by simp) hf hn
  | typeAsBytes => exact execTypeAsBytes_post hp nt fun _ _ => .typeRead _
  | typeAsText => exact execTypeAsText_post hp nt dst cap fun _ hb hc => .stored _ _ _ (by simp) hb hc
  | typeProps => exact execTypeProps_post hp nt fun t _ => .flagged _ _ (by simp) (propsFlags_lt t)
  | typeEq => exact execTypeEq_post hp nt fun e => .flagged _ _ (by simp) (equalFlags_lt e)
  | chunkNew =>
    exact execChunkNew_post hp nt src (r .payloadCapacity (by decide)) fun f n c hf hn hw hl =>
      .chunkLoaded _ f n _ c (by simp) hf hn hw (.inl hl)
  | chunkParse =>
    exact execChunkParse_post hp src
      (fun e he f n hf hn => .raised _ e f n 0 (by rintro rfl; cases he) hf hn)
      (fun f n v hf hn => .mismatch _ f n v 0 (by simp) hf hn)
      fun f n c hf hn hw hl => .chunkLoaded _ f n _ c (by simp) hf hn hw (.inr hl)
  | chunkSerialize => exact execChunkSerialize_post hp nc dst cap fun _ _ hb hc => .stored _ _ _ (by simp) hb hc
  | chunkType => exact execChunkType_post hp nc .chunkType
  | chunkInfo => exact execChunkInfo_post hp nc .chunkInfo
  | chunkData => exact execChunkData_post hp nc dst cap fun _ _ hb hc => .stored _ _ _ (by simp) hb hc
  | chunkPayloadText =>
    exact execChunkPayloadText_post hp nc dst cap (r .payloadEmpty (by decide)) (r .payloadNotUtf8 (by decide))
      fun _ _ hb hc => .stored _ _ _ (by simp) hb hc
  | contParse =>
    exact execContParse_post hp src (fun e off he f n hf hn => .raised _ e f n off he hf hn)
      (fun off f n v hf hn => .mismatch _ f n v off (by simp) hf hn) .contLoaded
  | contSerialize => exact execContSerialize_post hp dst cap fun _ _ hb hc => .stored _ _ _ (by simp) hb hc
  | contFind => exact execContFind_post hp .searched
  | contGet => exact execContGet_post hp (r .indexRange (by decide)) .chunkCopied
  | contAppend =>
    exact execContAppend_post hp nc (r .chunkTableFull (by decide)) (r .storeFull (by decide)) .appended
  | contRemoveFirst => exact execContRemoveFirst_post hp (r .notFound (by decide)) fun i _ => .removed i
  | contCount => exact execContCount_post hp .counted

/-- What `exec_ends` says of a given next state. -/
theorem commandEnd_of_exec {i : Instr} {t : State} (hp : s.pend = some p) (h : exec i s = .next t) :
    CommandEnd s p i t := by
  obtain ⟨t', h', he⟩ := exec_ends hp i
  rw [h] at h'
  cases h'
  exact he

end Sys2Proof.Machine
end

