-- ==== Sys2Proof/Laws/HostPort.lean ====
section
/-! SUPPORT. Everything a host step can do, said once: what a register access answers, and the parts of the state a read leaves
alone (10_state.md R32; 20_memory.md R62, R68; 70_reset_and_hazards.md R266 to R270). -/

namespace Sys2Proof.Machine

variable {s : State}

/-- A register read at a legal offset returns a value and shows it to the host (R32). -/
theorem hostReadReg_ok {o w : Nat} (h : regAccessOk o w = true) :
    hostReadReg o w s = (readRegister o s).2.sees (.reg o (readRegister o s).1) := by
  simp [hostReadReg, h]

theorem hostReadReg_bad {o w : Nat} (h : regAccessOk o w = false) : hostReadReg o w s = s.record .hostAccess := by
  simp [hostReadReg, h]

/-- A register read takes a free draw or changes nothing (R270). -/
theorem readRegister_state (o : Nat) (s : State) :
    (readRegister o s).2 = s ∨ (readRegister o s).2 = { s with draws := s.draws + 1 } := by
  unfold readRegister
  split
  · exact .inl rfl
  · split
    · exact .inr rfl
    · exact .inl rfl

/-- A register read while nothing is pending returns the register (R32). -/
theorem readRegister_idle {o : Nat} {r : Reg} (hr : regAt o = some r) (hp : s.pend = none) :
    readRegister o s = (s.regValue r, s) := by
  simp [readRegister, hr, State.busy, hp]

/-- A read of a register that R270 does not blur returns the register, pending command or not. -/
theorem readRegister_sharp {o : Nat} {r : Reg} (hr : regAt o = some r) (hb : r.blurredWhileBusy = false) :
    readRegister o s = (s.regValue r, s) := by
  simp [readRegister, hr, hb]

/-- A read of STATUS returns it and changes nothing else (R26, R32, R270). -/
theorem hostReadReg_status (s : State) : hostReadReg Reg.status.offset 4 s = s.sees (.reg 0x08 s.status) := by
  rw [hostReadReg_ok (by decide), readRegister_sharp (r := .status) (by decide) rfl]
  rfl

/-- A host register read touches only the model faults, the draw counter and what the host has seen (R32). -/
theorem hostReadReg_frame (o w : Nat) (s : State) :
    ∃ f n l, hostReadReg o w s = { s with faults := f, draws := n, seen := l } ∧ Recorded.le s.faults f := by
  cases h : regAccessOk o w with
  | false =>
    rw [hostReadReg_bad h]
    exact ⟨_, s.draws, s.seen, rfl, Recorded.le_add _ _⟩
  | true =>
    rw [hostReadReg_ok h]
    rcases readRegister_state o s with hs | hs <;> rw [hs] <;> exact ⟨s.faults, _, _, rfl, Recorded.le_refl _⟩

/-- The word a host register read returns is what `lastWord` finds. -/
@[simp] theorem lastWord_sees (s : State) (o : Nat) (v : Word) : lastWord (s.sees (.reg o v)) = v := by
  simp [lastWord, State.sees]

/-- Bit 0 of STATUS is BUSY (R26). -/
theorem status_busy (s : State) : s.status.getLsbD 0 = s.busy := by
  have f (b : Bool) {n : Nat} (hn : n < 32) : (flag b n).getLsbD 0 = (b && decide (0 = n)) := getLsbD_flag b 0 hn
  simp only [State.status, BitVec.getLsbD_or, f _ (show 0 < 32 by decide), f _ (show 1 < 32 by decide),
    f _ (show 2 < 32 by decide), f _ (show 3 < 32 by decide), f _ (show 4 < 32 by decide), f _ (show 5 < 32 by decide)]
  simp

/-- A poll of WAIT reads STATUS and stays while BUSY = 1 (R91). -/
theorem hostOp_wait (s : State) :
    hostOp .wait s =
      if s.busy then { s.sees (.reg 0x08 s.status) with script := .wait :: s.script }
      else s.sees (.reg 0x08 s.status) := by
  simp only [hostOp, hostReadReg_status, lastWord_sees, status_busy]
  rfl

/-- The addresses of a pending range. -/
theorem inRange_iff {a n x : Nat} : inRange a n x = true ↔ a ≤ x ∧ x < a + n := by
  simp [inRange]

/-- A register access has a meaning exactly when it is 32 bits wide, aligned and inside the register space (R68). -/
theorem regAccessOk_iff {o w : Nat} : regAccessOk o w = true ↔ w = 4 ∧ o % 4 = 0 ∧ o < 0x100 := by
  simp [regAccessOk, and_assoc]

/-- A BUF access has a meaning exactly when it is one byte inside BUF (R62). -/
theorem bufAccessOk_iff {a w : Nat} : bufAccessOk s a w = true ↔ w = 1 ∧ a < s.params.bufBytes := by
  simp [bufAccessOk]

/-- No register stands at 50H or above (R23). -/
theorem regAt_reserved {o : Nat} (h : 0x50 ≤ o) : regAt o = none := by
  rw [regAt, List.find?_eq_none]
  intro r _
  cases r <;> simp [Reg.offset] <;> omega

end Sys2Proof.Machine
end

