-- ==== Sys2Proof/Laws/Invariant.lean ====
section
/-! SUPPORT. What the invariant depends on: a change of any other field keeps it (60_exceptions.md R236; `State.Inv`). -/

namespace Sys2Proof.Machine

/-- The invariant depends on nine fields only. -/
theorem State.Inv.congr {s t : State} (h : State.Inv s) (h1 : t.params = s.params) (h2 : t.buf = s.buf)
    (h3 : t.cr = s.cr) (h4 : t.cont = s.cont) (h5 : t.pend = s.pend) (h6 : t.done = s.done) (h7 : t.err = s.err)
    (h8 : t.errDetail = s.errDetail) (h9 : t.resFlags = s.resFlags) : State.Inv t := by
  obtain ⟨a, b, c, d, e, f, g, i, j, k⟩ := h
  constructor <;> simp only [h1, h2, h3, h4, h5, h6, h7, h8, h9] <;> assumption

/-- Completing with a listed error, or with none, keeps it (R234, R235). -/
theorem State.Inv.finish {s : State} (h : State.Inv s) (c d : Byte) (n : Nat)
    (hcd : (c = 0#8 ∧ d = 0#8) ∨ ∃ e : CmdError, c = e.code ∧ d = e.detail) : State.Inv (s.finish c d n) :=
  ⟨h.1, h.2, h.3, h.4, h.5, h.6, h.7, by simp, hcd, h.10⟩

end Sys2Proof.Machine
end

