-- ==== Sys2Proof/Laws/PerInstr.lean ====
section
/-! SUPPORT. Statements made per instruction. Family `Encoding`: the instruction is well-formed, and its word is its opcode in
bits 7:0 with the reserved bits 31:8 zero, and decodes to it (30_encoding.md R80 to R82). -/

namespace Sys2Proof.Laws.Encoding

/-- The encoding of one instruction is right. -/
def Statement (i : Instr) : Prop :=
  i.wf = true ∧ rsvField (encode i) = 0#24 ∧ opcodeField (encode i) = opcode i ∧ decode (encode i) = .ok i

theorem crcChecksum : Statement .crcChecksum := ⟨rfl, rfl, rfl, decode_encode _⟩
theorem crcCheck : Statement .crcCheck := ⟨rfl, rfl, rfl, decode_encode _⟩
theorem typeFromBytes : Statement .typeFromBytes := ⟨rfl, rfl, rfl, decode_encode _⟩
theorem typeFromText : Statement .typeFromText := ⟨rfl, rfl, rfl, decode_encode _⟩
theorem typeAsBytes : Statement .typeAsBytes := ⟨rfl, rfl, rfl, decode_encode _⟩
theorem typeAsText : Statement .typeAsText := ⟨rfl, rfl, rfl, decode_encode _⟩
theorem typeProps : Statement .typeProps := ⟨rfl, rfl, rfl, decode_encode _⟩
theorem typeEq : Statement .typeEq := ⟨rfl, rfl, rfl, decode_encode _⟩
theorem chunkNew : Statement .chunkNew := ⟨rfl, rfl, rfl, decode_encode _⟩
theorem chunkParse : Statement .chunkParse := ⟨rfl, rfl, rfl, decode_encode _⟩
theorem chunkSerialize : Statement .chunkSerialize := ⟨rfl, rfl, rfl, decode_encode _⟩
theorem chunkType : Statement .chunkType := ⟨rfl, rfl, rfl, decode_encode _⟩
theorem chunkInfo : Statement .chunkInfo := ⟨rfl, rfl, rfl, decode_encode _⟩
theorem chunkData : Statement .chunkData := ⟨rfl, rfl, rfl, decode_encode _⟩
theorem chunkPayloadText : Statement .chunkPayloadText := ⟨rfl, rfl, rfl, decode_encode _⟩
theorem contParse : Statement .contParse := ⟨rfl, rfl, rfl, decode_encode _⟩
theorem contSerialize : Statement .contSerialize := ⟨rfl, rfl, rfl, decode_encode _⟩
theorem contFind : Statement .contFind := ⟨rfl, rfl, rfl, decode_encode _⟩
theorem contGet : Statement .contGet := ⟨rfl, rfl, rfl, decode_encode _⟩
theorem contAppend : Statement .contAppend := ⟨rfl, rfl, rfl, decode_encode _⟩
theorem contRemoveFirst : Statement .contRemoveFirst := ⟨rfl, rfl, rfl, decode_encode _⟩
theorem contCount : Statement .contCount := ⟨rfl, rfl, rfl, decode_encode _⟩

end Sys2Proof.Laws.Encoding
end

