-- ==== Sys2Proof/Laws/RoundTrip.lean ====
section
/-! SUPPORT. Parsing written bytes: a frame in BUF parses to its chunk and nothing else does, and a run of frames to its list
(43_chunk.md R150, R156; 44_container.md R190, R194). -/

namespace Sys2Proof.Machine

/-! ### One frame -/

/-- The parts of a frame, at their offsets (R86). -/
theorem frame_parts {c : Chunk} (h : c.length.toNat = c.data.length) :
    (frame c).take 4 = encBe32 c.length ∧ ((frame c).drop 4).take 4 = c.type.bytes ∧
      ((frame c).drop 8).take c.length.toNat = c.data ∧
      ((frame c).drop (8 + c.length.toNat)).take 4 = encBe32 c.crc := by
  obtain ⟨⟨t0, t1, t2, t3⟩, l, d, k⟩ := c
  simp only at h
  refine ⟨rfl, rfl, ?_, ?_⟩
  · simp [frame, encBe32, TypeCode.bytes, h]
  · simp [frame, encBe32, TypeCode.bytes, h, Nat.add_comm 8]

/-- Any bytes whose length is what their first four declare are the frame of one chunk, its stored crc whatever it is. -/
theorem exists_frame {b : List Byte} (h : b.length = 12 + (be32 (b.take 4)).toNat) :
    ∃ c : Chunk, frame c = b ∧ c.length.toNat = c.data.length ∧ c.length = be32 (b.take 4) := by
  let n := (be32 (b.take 4)).toNat
  have hn : b.length = 12 + n := h
  refine ⟨{ type := quad ((b.drop 4).take 4), length := be32 (b.take 4), data := (b.drop 8).take n,
            crc := be32 ((b.drop (8 + n)).take 4) }, ?_, ?_, rfl⟩
  · have e1 : encBe32 (be32 (b.take 4)) = b.take 4 := encBe32_be32 (by simp; omega)
    have e2 : (quad ((b.drop 4).take 4)).bytes = (b.drop 4).take 4 := bytes_quad (by simp; omega)
    have e3 : encBe32 (be32 ((b.drop (8 + n)).take 4)) = b.drop (8 + n) := by
      rw [encBe32_be32 (by simp; omega)]
      exact List.take_of_length_le (by simp; omega)
    have e4 : (b.drop 8).take n ++ b.drop (8 + n) = b.drop 8 := by
      rw [← List.drop_drop, List.take_append_drop]
    have e5 : (b.drop 4).take 4 ++ b.drop 8 = b.drop 4 := by
      rw [show b.drop 8 = (b.drop 4).drop 4 by rw [List.drop_drop], List.take_append_drop]
    simp only [frame, e1, e2, e3]
    rw [List.append_assoc, e4, List.append_assoc, e5, List.take_append_drop]
  · simp only [List.length_take, List.length_drop]
    omega

/-- A frame in BUF parses to its chunk if its crc is right, and to a mismatch with the recomputed checksum if it is not; bytes
after it are not read (R150, 90_conflicts.md C4). -/
theorem parseFrame_frame {s : State} {a m : Nat} {c : Chunk} (h : Holds s a (frameLen c) (frame c))
    (hl : c.length.toNat = c.data.length) (hm : frameLen c ≤ m) :
    parseFrame a m s =
      (if checksum c.type c.data = c.crc then .ok c (frameLen c) else .mismatch (checksum c.type c.data), s) := by
  obtain ⟨p1, p2, p3, p4⟩ := frame_parts hl
  have hf : frameLen c = 12 + c.length.toNat := rfl
  have r1 : memRead a 4 s = (encBe32 c.length, s) := by
    have := h.slice 0 4 (by omega)
    exact memRead_of_holds (by simpa [p1] using this)
  have r2 : memRead (a + 4) 4 s = (c.type.bytes, s) := memRead_of_holds (p2 ▸ h.slice 4 4 (by omega))
  have r3 : memRead (a + 8) c.length.toNat s = (c.data, s) := memRead_of_holds (p3 ▸ h.slice 8 _ (by omega))
  have r4 : memRead (a + 8 + c.length.toNat) 4 s = (encBe32 c.crc, s) := by
    have := h.slice (8 + c.length.toNat) 4 (by omega)
    rw [p4, ← Nat.add_assoc] at this
    exact memRead_of_holds this
  have h1 : ¬ m < 12 := by omega
  have h2 : ¬ m < 12 + c.length.toNat := by omega
  simp only [parseFrame, h1, if_false, r1, be32_encBe32, h2, r2, r3, r4, quad_bytes]
  split <;> rename_i hk <;> simp_all [frameLen]

/-- Bytes in BUF that parse to a chunk are that chunk's frame (R156). -/
theorem parseFrame_ok_frame {s t : State} {a m n : Nat} {b : List Byte} {c : Chunk} (h : Holds s a m b)
    (hp : parseFrame a m s = (.ok c n, t)) : frame c = b.take n ∧ t = s := by
  have hm := h.length
  unfold parseFrame at hp
  split at hp
  · cases hp
  · rename_i h12
    have r1 : memRead a 4 s = (b.take 4, s) := by
      have := h.slice 0 4 (by omega)
      exact memRead_of_holds (by simpa using this)
    simp only [r1] at hp
    split at hp
    · cases hp
    · rename_i hL
      have hb : (b.take (12 + (be32 (b.take 4)).toNat)).length = 12 + (be32 (b.take 4)).toNat := by
        simp only [List.length_take]
        omega
      have ht : (b.take (12 + (be32 (b.take 4)).toNat)).take 4 = b.take 4 := by
        rw [List.take_take, Nat.min_eq_left (by omega)]
      obtain ⟨d, hd, hdl, hlen⟩ := exists_frame (b := b.take (12 + (be32 (b.take 4)).toNat)) (by rw [ht]; exact hb)
      rw [ht] at hlen
      have hh : Holds s a (frameLen d) (frame d) := by
        have := h.slice 0 (12 + (be32 (b.take 4)).toNat) (by omega)
        rw [hd]
        simpa [frameLen, hlen] using this
      have key := parseFrame_frame (m := m) hh hdl (by simp only [frameLen, hlen]; omega)
      have hp' : parseFrame a m s = (.ok c n, t) := by
        unfold parseFrame
        simp only [h12, if_false, r1, hL]
        exact hp
      rw [hp'] at key
      split at key
      · simp only [Prod.mk.injEq, FrameResult.ok.injEq] at key
        obtain ⟨⟨rfl, rfl⟩, rfl⟩ := key
        refine ⟨?_, rfl⟩
        rw [hd, frameLen, hlen]
      · simp at key

/-! ### A run of frames -/

theorem flatMap_frame_length {l : List Chunk} (h : ∀ c ∈ l, c.length.toNat = c.data.length) :
    (l.flatMap frame).length = (l.map frameLen).sum := by
  have : l.map (fun c => (frame c).length) = l.map frameLen :=
    List.map_congr_left fun c hc => frame_length (h c hc)
  simp [List.length_flatMap, this]

/-- A run of frames in BUF, to the end of the buffer, parses to its chunks if they fit CONT (R190). -/
theorem parseLoop_frames {s : State} {a m : Nat} (l : List Chunk) {fuel off total : Nat} {list : List Chunk}
    (h : Holds s (a + off) (m - off) (l.flatMap frame)) (hoff : off ≤ m) (hfuel : m - off ≤ fuel)
    (hw : ∀ c ∈ l, Chunk.wf c) (hc : list.length + l.length ≤ s.params.maxChunks)
    (hs : total + storeUse l ≤ s.params.storeBytes) :
    parseLoop fuel a m off total list s = (.ok (list ++ l), s) := by
  induction l generalizing fuel off total list with
  | nil =>
    have : m - off = 0 := by simpa using h.length.symm
    have hm : m ≤ off := by omega
    cases fuel <;> simp [parseLoop, hm]
  | cons c l ih =>
    have hl : c.length.toNat = c.data.length := (hw c (by simp)).1
    have hlen := h.length
    rw [List.flatMap_cons, List.length_append, frame_length hl] at hlen
    have h12 : frameLen c = 12 + c.length.toNat := rfl
    have hnm : ¬ m ≤ off := by omega
    cases fuel with
    | zero => omega
    | succ fuel =>
      have hfr : Holds s (a + off) (frameLen c) (frame c) := by
        have := h.slice 0 (frameLen c) (by omega)
        simpa [← frame_length hl] using this
      have hp := parseFrame_frame (m := m - off) hfr hl (by omega)
      rw [if_pos (hw c (by simp)).2.symm] at hp
      have hrest : Holds s (a + (off + frameLen c)) (m - (off + frameLen c)) (l.flatMap frame) := by
        have := h.slice (frameLen c) (m - off - frameLen c) (by omega)
        rw [List.flatMap_cons, ← frame_length hl, List.drop_left, frame_length hl] at this
        rw [List.take_of_length_le (by omega)] at this
        rw [show a + (off + frameLen c) = a + off + frameLen c by omega,
          show m - (off + frameLen c) = m - off - frameLen c by omega]
        exact this
      have hst : total + c.length.toNat + storeUse l ≤ s.params.storeBytes := by
        have : storeUse (c :: l) = c.length.toNat + storeUse l := by simp [storeUse]
        omega
      have hcl : list.length + (l.length + 1) ≤ s.params.maxChunks := by simpa using hc
      have c1 : ¬ list.length = s.params.maxChunks := by omega
      have c2 : ¬ total + c.length.toNat > s.params.storeBytes := by omega
      simp only [parseLoop, hnm, if_false, hp, c1, c2]
      rw [ih hrest (by omega) (by omega) (fun d hd => hw d (by simp [hd])) (by simp; omega) hst]
      simp

/-- A whole buffer in BUF that the loop parses is the frames of the list it gives, in order (R194). -/
theorem parseLoop_ok_frames {s t : State} {a m fuel off total : Nat} {b : List Byte} {list l : List Chunk}
    (h : Holds s (a + off) (m - off) b) (hp : parseLoop fuel a m off total list s = (.ok l, t)) :
    t = s ∧ ∃ l', l = list ++ l' ∧ b = l'.flatMap frame := by
  induction fuel generalizing off total list b with
  | zero =>
    unfold parseLoop at hp
    split at hp
    · rename_i hm
      have hb : b.length = 0 := by rw [h.length]; omega
      cases hp
      exact ⟨rfl, [], by simp, List.length_eq_zero_iff.1 hb⟩
    · cases hp
  | succ fuel ih =>
    unfold parseLoop at hp
    split at hp
    · rename_i hm
      have hb : b.length = 0 := by rw [h.length]; omega
      cases hp
      exact ⟨rfl, [], by simp, List.length_eq_zero_iff.1 hb⟩
    · rename_i hm
      simp only at hp
      split at hp
      · cases hp
      · cases hp
      · rename_i c n s1 hf
        obtain ⟨hfr, rfl⟩ := parseFrame_ok_frame h hf
        obtain ⟨hw, rfl, hn⟩ := parseFrame_ok hf
        split at hp
        · cases hp
        · split at hp
          · cases hp
          · have hrest : Holds s1 (a + (off + frameLen c)) (m - (off + frameLen c)) (b.drop (frameLen c)) := by
              have := h.slice (frameLen c) (m - off - frameLen c) (by omega)
              rw [List.take_of_length_le (by simp [h.length])] at this
              rw [show a + (off + frameLen c) = a + off + frameLen c by omega,
                show m - (off + frameLen c) = m - off - frameLen c by omega]
              exact this
            obtain ⟨ht, l', rfl, hb⟩ := ih hrest hp
            refine ⟨ht, c :: l', by simp, ?_⟩
            rw [List.flatMap_cons, hfr, ← hb, List.take_append_drop]

/-- Under legal parameters a chunk list whose serialized form fits BUF fits CONT (00_scope.md R6, R46). -/
theorem fits_of_legal {p : Params} (h : p.legal) {l : List Chunk} (hl : serLen l ≤ p.bufBytes) :
    l.length ≤ p.maxChunks ∧ storeUse l ≤ p.storeBytes := by
  have := serLen_eq l
  obtain ⟨-, -, hc, hs, -⟩ := h
  constructor
  · have : l.length ≤ (p.bufBytes - 8) / 12 := by omega
    omega
  · cases l with
    | nil => simp [storeUse]
    | cons x l => simp only [List.length_cons] at this; omega

/-- A run of good frames before `off` passes through the loop; what decides is what stands at `off` (R190). -/
theorem parseLoop_prefix {s : State} {a m : Nat} (l : List Chunk) {fuel off total : Nat} {list : List Chunk}
    (hw : ∀ c ∈ l, Chunk.wf c) (h : Holds s (a + off) ((l.map frameLen).sum) (l.flatMap frame))
    (hm : off + (l.map frameLen).sum < m) (hf : m - off ≤ fuel) (hc : list.length + l.length ≤ s.params.maxChunks)
    (hs : total + storeUse l ≤ s.params.storeBytes) :
    ∃ fuel', m - (off + (l.map frameLen).sum) ≤ fuel' ∧
      parseLoop fuel a m off total list s =
        parseLoop fuel' a m (off + (l.map frameLen).sum) (total + storeUse l) (list ++ l) s := by
  induction l generalizing fuel off total list with
  | nil => exact ⟨fuel, by simpa using hf, by simp [storeUse]⟩
  | cons c l ih =>
    have hl := (hw c (by simp)).1
    simp only [List.map_cons, List.sum_cons] at h hm ⊢
    have h12 : frameLen c = 12 + c.length.toNat := rfl
    cases fuel with
    | zero => omega
    | succ fuel =>
      have hfr : Holds s (a + off) (frameLen c) (frame c) := by
        have := h.slice 0 (frameLen c) (by omega)
        simpa [← frame_length hl] using this
      have hp := parseFrame_frame (m := m - off) hfr hl (by omega)
      rw [if_pos (hw c (by simp)).2.symm] at hp
      have hrest : Holds s (a + (off + frameLen c)) ((l.map frameLen).sum) (l.flatMap frame) := by
        have hlen := h.length
        have := h.slice (frameLen c) ((l.map frameLen).sum) (by omega)
        rw [List.flatMap_cons, ← frame_length hl, List.drop_left, frame_length hl] at this
        rw [List.flatMap_cons, List.length_append, frame_length hl] at hlen
        rw [List.take_of_length_le (by omega)] at this
        rw [← Nat.add_assoc]
        exact this
      have hsu : storeUse (c :: l) = c.length.toNat + storeUse l := by simp [storeUse]
      have hcl : list.length + (l.length + 1) ≤ s.params.maxChunks := by simpa using hc
      have hnm : ¬ m ≤ off := by omega
      have c1 : ¬ list.length = s.params.maxChunks := by omega
      have c2 : ¬ total + c.length.toNat > s.params.storeBytes := by omega
      simp only [parseLoop, hnm, if_false, hp, c1, c2]
      obtain ⟨fuel', h1, h2⟩ := ih (fuel := fuel) (off := off + frameLen c) (total := total + c.length.toNat)
        (list := list ++ [c]) (fun d hd => hw d (by simp [hd])) hrest (by omega) (by omega) (by simp; omega) (by omega)
      refine ⟨fuel', by omega, ?_⟩
      rw [h2, hsu]
      simp [Nat.add_assoc]

/-- Bytes stored at an address are held there by any state with that memory. -/
theorem StoredAt.holds {s u : State} {m : Memory} {a : Nat} {v : List Byte} (h : StoredAt s m a v) (hu : u.buf = m) :
    Holds u a v.length v := by
  unfold Holds Memory.readAll
  refine List.ext_getElem (by simp) fun k h1 _ => ?_
  have hk : k < v.length := by simpa using h1
  simp only [List.getElem_map, List.getElem_range, hu]
  rw [h (a + k), if_pos ⟨by omega, by omega⟩]
  simp [hk]

/-- After a good signature CONT_PARSE is its loop (R190). -/
theorem execContParse_loop {s : State} {p : Pending} (hp : s.pend = some p) (hb : SourceOk s p.args)
    (h8 : 8 ≤ p.args.len.toNat) (hs : Holds s p.args.src.toNat 8 signature) :
    execContParse s =
      match parseLoop p.args.len.toNat p.args.src.toNat p.args.len.toNat 8 0 [] s with
      | (.mismatch k off, s2) => raise .checksumMismatch off { s2 with resCrc := k }
      | (.fail e off, s2) => raise e off s2
      | (.ok l, s2) =>
        complete { s2 with cont := l, resIndex := BitVec.ofNat 32 l.length, resLen := p.args.len } := by
  unfold execContParse
  rw [withArgs_some hp, withSource_in hb, if_neg (Nat.not_lt.2 h8)]
  simp only [memRead_of_holds hs]
  exact if_neg (not_not_intro rfl)

end Sys2Proof.Machine
end

