-- ==== Sys2Proof/Laws/Run.lean ====
section
/-! SUPPORT. Runs of several steps, and which agent a step belongs to (10_state.md R20; 70_reset_and_hazards.md R265). -/

namespace Sys2Proof.Machine

/-- A run goes on from its first step. -/
theorem run_succ (M : Host.Core) (k : Nat) {s t : M.State} (h : M.step s = .next t) : M.run (k + 1) s = M.run k t := by
  simp only [Host.Core.run, h]

/-- A run goes on from where its first steps end. -/
theorem run_add (M : Host.Core) (j k : Nat) {s t : M.State} (h : M.run j s = .next t) : M.run (j + k) s = M.run k t := by
  induction j generalizing s with
  | zero =>
    rw [Host.Core.run] at h
    cases h
    rw [Nat.zero_add]
  | succ j ih =>
    rw [Host.Core.run] at h
    split at h
    · rw [show j + 1 + k = (j + k) + 1 by omega, run_succ M _ ‹_›]
      exact ih h
    · cases h
    · cases h

variable {s : State}

/-- With no turn listed and nothing pending the host takes the head of its script. -/
theorem step_host {o : HostOp} {q : List HostOp} (hs : s.script = o :: q) (ht : s.turns = []) (hp : s.pend = none) :
    step s = .next (hostOp o { s with script := q }) := by
  simp [step, takeTurn, hostTurn, ht, hs, State.busy, hp]

/-- With no turn listed a pending command moves first (log 15). -/
theorem step_block {p : Pending} (hp : s.pend = some p) (ht : s.turns = []) : step s = blockTurn s := by
  simp [step, takeTurn, ht, State.busy, hp]

/-- The block's step performs the pending word. -/
theorem blockTurn_decoded {p : Pending} {i : Instr} (hp : s.pend = some p) (hd : decode p.cmd = .ok i) :
    blockTurn s = exec i s := by
  simp [blockTurn, hp, hd]

/-- The block's step ends the pending command, whatever its word (R234, R235, R271). -/
theorem blockTurn_ends {p : Pending} (hp : s.pend = some p) : ∃ t, blockTurn s = .next t ∧ t.pend = none := by
  cases hd : decode p.cmd with
  | ok i =>
    obtain ⟨t, h, he⟩ := exec_ends hp i
    rw [blockTurn_decoded hp hd]
    exact ⟨t, h, by cases he <;> rfl⟩
  | error e => exact ⟨s.finish (illegalCommand e).code (illegalCommand e).detail 0, by simp [blockTurn, hp, hd, raise], rfl⟩

/-! ### Runs under any list of turns (R265, R74) -/

/-- A listed turn of the block is used up and the block moves. -/
theorem step_listed_block {r : List Agent} (ht : s.turns = .block :: r) : step s = blockTurn { s with turns := r } := by
  simp [step, takeTurn, ht]

/-- A listed turn of the host is used up and the host moves. -/
theorem step_listed_host {r : List Agent} (ht : s.turns = .host :: r) :
    step s = .next (hostTurn { s with turns := r }) := by
  simp [step, takeTurn, ht]

/-- With nothing pending the host's next step comes whatever turns are listed: the block's turns before it pass. -/
theorem run_reaches_host {o : HostOp} {q : List HostOp} (hs : s.script = o :: q) (hp : s.pend = none) :
    ∃ r k, k + r.length ≤ s.turns.length + 1 ∧
      Host.Core.run Sys2Proof.core k s = .next (hostOp o { s with turns := r, script := q }) := by
  induction ht : s.turns generalizing s with
  | nil =>
    refine ⟨[], 1, by simp, (run_succ Sys2Proof.core 0 (step_host hs ht hp)).trans ?_⟩
    rw [← ht]
    rfl
  | cons x r ih =>
    cases x with
    | host =>
      refine ⟨r, 1, by simp; omega, (run_succ Sys2Proof.core 0 (step_listed_host ht)).trans ?_⟩
      simp only [hostTurn, hs]
      rfl
    | block =>
      obtain ⟨r', k, hk, h⟩ := ih (s := { s with turns := r }) hs hp rfl
      have hb : step s = .next { s with turns := r } := by rw [step_listed_block ht, blockTurn]; simp only [hp]
      exact ⟨r', k + 1, by simp only [List.length_cons]; omega, (run_succ Sys2Proof.core k hb).trans h⟩

/-- While the host WAITs the pending command is performed, whatever turns are listed: the host's polls before it only read
STATUS. -/
theorem run_reaches_exec {p : Pending} {i : Instr} {q : List HostOp} (hp : s.pend = some p) (hd : decode p.cmd = .ok i)
    (hs : s.script = .wait :: q) :
    ∃ (r : List Agent) (l : List Word) (k : Nat), k + r.length ≤ s.turns.length + 1 ∧
      Host.Core.run Sys2Proof.core k s = exec i { s with turns := r, seen := s.seen ++ l.map (.reg 0x08) } := by
  have one {u v : State} (hu : u.pend = some p) (h : step u = exec i v) (hv : v.pend = some p) :
      Host.Core.run Sys2Proof.core 1 u = exec i v := by
    obtain ⟨t, he, -⟩ := exec_ends hv i
    rw [he] at h ⊢
    exact run_succ Sys2Proof.core 0 h
  induction ht : s.turns generalizing s with
  | nil =>
    refine ⟨[], [], 1, by simp, one hp ?_ hp⟩
    rw [step_block hp ht, blockTurn_decoded hp hd, ← ht, List.map_nil, List.append_nil]
  | cons x r ih =>
    cases x with
    | block =>
      refine ⟨r, [], 1, by simp; omega, one hp ?_ hp⟩
      rw [step_listed_block ht, blockTurn_decoded (s := { s with turns := r }) hp hd, List.map_nil, List.append_nil]
    | host =>
      have hb : step s = .next { s with turns := r, seen := s.seen ++ [.reg 0x08 s.status] } := by
        have hw : hostTurn { s with turns := r } = hostOp .wait { s with turns := r, script := q } := by
          simp only [hostTurn, hs]
        rw [step_listed_host ht, hw, hostOp_wait, if_pos (by simp [State.busy, hp]), ← hs]
        rfl
      obtain ⟨r', l, k, hk, h⟩ :=
        ih (s := { s with turns := r, seen := s.seen ++ [.reg 0x08 s.status] }) hp hs rfl
      refine ⟨r', s.status :: l, k + 1, by simp only [List.length_cons]; omega,
        (run_succ Sys2Proof.core k hb).trans (h.trans ?_)⟩
      rw [show s.seen ++ (s.status :: l).map (Seen.reg 0x08) = s.seen ++ [.reg 0x08 s.status] ++ l.map (.reg 0x08) by simp]

end Sys2Proof.Machine
end

