-- ==== Sys2Proof/Tests/Slice0.lean ====
section
/-! SUPPORT. Tests: the well-formedness smoke tests, every command's word, one-step tests whose expected values are the vectors
of 95_test_vectors.md (V20 to V64) or worked out by hand from the rule named, and a witness for every statement that has
hypotheses. -/

namespace Sys2Proof.Tests

open Sys2Proof Sys2Proof.Machine

set_option Elab.async false

/-! ### Helpers -/

/-- ARG values from numbers. -/
def argsOf (src len dst cap type index crc : Nat) : Args :=
  { src := BitVec.ofNat 32 src, len := BitVec.ofNat 32 len, dst := BitVec.ofNat 32 dst, cap := BitVec.ofNat 32 cap,
    type := BitVec.ofNat 32 type, index := BitVec.ofNat 32 index, crc := BitVec.ofNat 32 crc }

/-- The reset state with bytes stored from an address up. -/
def withBytes (a : Nat) (v : List Byte) : State := { State.reset with buf := Memory.writeAll [] a v }

/-- The state of a next outcome. -/
def stateOf (o : Out) : State :=
  match o with
  | .next t => t
  | .fault _ | .refused _ => State.reset

/-- The outcome is a next state. -/
def isNext (o : Out) : Bool :=
  match o with
  | .next _ => true
  | .fault _ | .refused _ => false

theorem eq_next {o : Out} (h : isNext o = true) : o = .next (stateOf o) := by
  cases o <;> first | rfl | cases h

/-- The state after a command word is issued with the ARG values given, and performed by one step. -/
def ran (w : Nat) (x : Args) (s : State) : State := stateOf (step (({ s with args := x } : State).withFetchWord 32 w))

/-- A state with a command pending. -/
def pending (i : Instr) (x : Args) (s : State) : State := { s with pend := some { cmd := encode i, args := x } }

/-- "RuSt", "Rust" and "IEND". -/
def rust : TypeCode := { b0 := 0x52#8, b1 := 0x75#8, b2 := 0x53#8, b3 := 0x74#8 }
def rustLower : TypeCode := { b0 := 0x52#8, b1 := 0x75#8, b2 := 0x73#8, b3 := 0x74#8 }
def iend : TypeCode := { b0 := 0x49#8, b1 := 0x45#8, b2 := 0x4E#8, b3 := 0x44#8 }

/-- The chunk of F_IEND (95_test_vectors.md section 0). -/
def iendChunk : Chunk := { type := iend, length := 0#32, data := [], crc := 0xAE426082#32 }

/-- The chunk of vector V47. -/
def rustChunk : Chunk := { type := rustLower, length := 0#32, data := [], crc := 0x41002D9E#32 }

/-- A chunk with payload 00 01, and the same with a wrong crc. -/
def twoChunk : Chunk := { type := rust, length := 2#32, data := [0x00#8, 0x01#8], crc := checksum rust [0x00#8, 0x01#8] }
def badChunk : Chunk := { twoChunk with crc := 0#32 }

/-- The frame of V47's chunk, as its vector writes it. -/
def rustFrame : List Byte :=
  [0x00#8, 0x00#8, 0x00#8, 0x00#8, 0x52#8, 0x75#8, 0x73#8, 0x74#8, 0x41#8, 0x00#8, 0x2D#8, 0x9E#8]

/-- SIG ++ F_IEND, the 20-byte buffer of V57. -/
def iendFile : List Byte :=
  [0x89#8, 0x50#8, 0x4E#8, 0x47#8, 0x0D#8, 0x0A#8, 0x1A#8, 0x0A#8] ++
  [0x00#8, 0x00#8, 0x00#8, 0x00#8, 0x49#8, 0x45#8, 0x4E#8, 0x44#8, 0xAE#8, 0x42#8, 0x60#8, 0x82#8]

/-- The reset state with TR, CR or CONT loaded. -/
def withTr (t : TypeCode) : State := { State.reset with tr := some t }
def withCr (c : Chunk) : State := { State.reset with cr := some c }
def withCont (l : List Chunk) : State := { State.reset with cont := l }

/-- The type, index and status a test looks at. -/
def statusOf (s : State) : Nat := s.status.toNat

/-! ### Well-formedness: each check refuses an ill-formed term -/

theorem test_wf_reserved_bits_refused : commandWordOk 0x00000101#32 = false := by decide
theorem test_wf_unassigned_opcode_refused : commandWordOk 0x00000037#32 = false := by decide
theorem test_wf_command_word : commandWordOk 0x00000036#32 = true := by decide
theorem test_wf_instr : Instr.wf .contCount = true := by decide
theorem test_wf_register_width_refused : HostOp.wf Params.vectorDefaults (.readReg 0x08 2) = false := by decide
theorem test_wf_register_alignment_refused : HostOp.wf Params.vectorDefaults (.writeReg 0x0A 4 0#32) = false := by decide
theorem test_wf_register_offset_refused : HostOp.wf Params.vectorDefaults (.readReg 0x100 4) = false := by decide
theorem test_wf_buf_width_refused : HostOp.wf Params.vectorDefaults (.readBuf 0 4) = false := by decide
theorem test_wf_buf_address_refused : HostOp.wf Params.vectorDefaults (.writeBuf 4096 1 0#8) = false := by decide
theorem test_wf_host_op : HostOp.wf Params.vectorDefaults (.writeBuf 4095 1 0#8) = true := by decide
theorem test_wf_chunk_length_refused : ¬ Chunk.wf { iendChunk with length := 1#32 } := by decide +kernel
theorem test_wf_chunk_crc_refused : ¬ Chunk.wf badChunk := by decide +kernel
theorem test_wf_chunk : Chunk.wf iendChunk := by decide +kernel
theorem test_wf_params_refused : ¬ ({ Params.vectorDefaults with storeBytes := 4075 } : Params).legal := by decide
theorem test_wf_params : Params.vectorDefaults.legal := by decide
theorem test_wf_memory_order_refused : ¬ Memory.wf [(5, 0#8), (4, 0#8)] := by decide
theorem test_wf_memory_repeat_refused : ¬ Memory.wf [(4, 0#8), (4, 1#8)] := by decide

/-! ### Decoding: every row of the opcode map (R82), and illegal words (V60) -/

theorem test_decode_crcChecksum : decode 0x00000001#32 = .ok .crcChecksum := by decide
theorem test_decode_crcCheck : decode 0x00000002#32 = .ok .crcCheck := by decide
theorem test_decode_typeFromBytes : decode 0x00000010#32 = .ok .typeFromBytes := by decide
theorem test_decode_typeFromText : decode 0x00000011#32 = .ok .typeFromText := by decide
theorem test_decode_typeAsBytes : decode 0x00000012#32 = .ok .typeAsBytes := by decide
theorem test_decode_typeAsText : decode 0x00000013#32 = .ok .typeAsText := by decide
theorem test_decode_typeProps : decode 0x00000014#32 = .ok .typeProps := by decide
theorem test_decode_typeEq : decode 0x00000015#32 = .ok .typeEq := by decide
theorem test_decode_chunkNew : decode 0x00000020#32 = .ok .chunkNew := by decide
theorem test_decode_chunkParse : decode 0x00000021#32 = .ok .chunkParse := by decide
theorem test_decode_chunkSerialize : decode 0x00000022#32 = .ok .chunkSerialize := by decide
theorem test_decode_chunkType : decode 0x00000023#32 = .ok .chunkType := by decide
theorem test_decode_chunkInfo : decode 0x00000024#32 = .ok .chunkInfo := by decide
theorem test_decode_chunkData : decode 0x00000025#32 = .ok .chunkData := by decide
theorem test_decode_chunkPayloadText : decode 0x00000026#32 = .ok .chunkPayloadText := by decide
theorem test_decode_contParse : decode 0x00000030#32 = .ok .contParse := by decide
theorem test_decode_contSerialize : decode 0x00000031#32 = .ok .contSerialize := by decide
theorem test_decode_contFind : decode 0x00000032#32 = .ok .contFind := by decide
theorem test_decode_contGet : decode 0x00000033#32 = .ok .contGet := by decide
theorem test_decode_contAppend : decode 0x00000034#32 = .ok .contAppend := by decide
theorem test_decode_contRemoveFirst : decode 0x00000035#32 = .ok .contRemoveFirst := by decide
theorem test_decode_contCount : decode 0x00000036#32 = .ok .contCount := by decide

theorem test_decode_zero : decode 0x00000000#32 = .error .unassignedOpcode := by decide
theorem test_decode_reserved_first : decode 0x00000130#32 = .error .reservedBits := by decide
theorem test_decode_all_ones : decode 0xFFFFFFFF#32 = .error .reservedBits := by decide
theorem test_decodeTableWord : decodeTableWord 32 0x26 = some .chunkPayloadText := by decide
theorem test_decodeTableWord_refused : decodeTableWord 32 0x126 = none := by decide

/-! ### One step of each command -/

/-- V20: no payload byte is read. -/
theorem test_crcChecksum : (ran 0x01 (argsOf 0 0 0 0 0x49454E44 0 0) State.reset).resCrc = 0xAE426082#32 := by
  decide +kernel

/-- V24. -/
theorem test_crcChecksum_range : statusOf (ran 0x01 (argsOf 4090 7 0 0 0x52755374 0 0) State.reset) = 0x00011106 := by
  decide +kernel

/-- "1234" ++ "56789" as in V22, against its value. -/
theorem test_crcCheck :
    statusOf (ran 0x02 (argsOf 0x200 5 0 0 0x31323334 0 0xCBF43926)
      (withBytes 0x200 [0x35#8, 0x36#8, 0x37#8, 0x38#8, 0x39#8])) = 0x00000002 := by decide +kernel

/-- As V21b: RES_CRC is written on the mismatch. -/
theorem test_crcCheck_mismatch :
    (fun t : State => (statusOf t, t.resCrc)) (ran 0x02 (argsOf 0 0 0 0 0x49454E44 0 0xAE426083) State.reset) =
      (0x00000306, 0xAE426082#32) := by decide +kernel

/-- V31. -/
theorem test_typeFromBytes :
    (fun t : State => (statusOf t, t.tr)) (ran 0x10 (argsOf 0 0 0 0 0x52757374 0 0) State.reset) =
      (0x0000000A, some rustLower) := by decide +kernel

/-- V2. -/
theorem test_typeFromText :
    (fun t : State => (statusOf t, t.tr)) (ran 0x11 (argsOf 0x10 4 0 0 0 0 0) (withBytes 0x10 rust.bytes)) =
      (0x0000000A, some rust) := by decide +kernel

/-- V33, "azaz". -/
theorem test_typeFromText_reserved :
    statusOf (ran 0x11 (argsOf 0x300 4 0 0 0 0 0) (withBytes 0x300 [0x61#8, 0x7A#8, 0x61#8, 0x7A#8])) = 0x00030106 := by
  decide +kernel

/-- V34. -/
theorem test_typeAsBytes : (ran 0x12 (argsOf 0 0 0 0 0 0 0) (withTr rust)).resType = 0x52755374#32 := by decide +kernel

/-- V36. -/
theorem test_typeAsBytes_none : statusOf (ran 0x12 (argsOf 0 0 0 0 0 0 0) State.reset) = 0x00001306 := by decide +kernel

/-- V34: the last four bytes of BUF. -/
theorem test_typeAsText :
    (fun t : State => (statusOf t, t.buf)) (ran 0x13 (argsOf 0 0 4092 4 0 0 0) (withTr rust)) =
      (0x0000000A, [(4092, 0x52#8), (4093, 0x75#8), (4094, 0x53#8), (4095, 0x74#8)]) := by decide +kernel

/-- V34. -/
theorem test_typeAsText_capacity :
    (fun t : State => (statusOf t, t.buf)) (ran 0x13 (argsOf 0 0 0x200 3 0 0 0) (withTr rust)) = (0x0001120E, []) := by
  decide +kernel

/-- V30. -/
theorem test_typeProps : (ran 0x14 (argsOf 0 0 0 0 0 0 0) (withTr rust)).resFlags = 0x0000003D#32 := by decide +kernel

/-- V32, FF FF FF FF. -/
theorem test_typeProps_ones :
    (ran 0x14 (argsOf 0 0 0 0 0 0 0) (withTr (unpack4 0xFFFFFFFF#32))).resFlags = 0x00000008#32 := by decide +kernel

/-- V34. -/
theorem test_typeEq : (ran 0x15 (argsOf 0 0 0 0 0x52755374 0 0) (withTr rust)).resFlags = 0x00000040#32 := by
  decide +kernel

/-- V34, "RUST": no case folding. -/
theorem test_typeEq_case : (ran 0x15 (argsOf 0 0 0 0 0x52555354 0 0) (withTr rust)).resFlags = 0x00000000#32 := by
  decide +kernel

/-- V41. -/
theorem test_chunkNew : (ran 0x20 (argsOf 0 0 0 0 0 0 0) (withTr iend)).cr = some iendChunk := by decide +kernel

/-- V41, with CR none: the range (0, 4085) is in bounds. -/
theorem test_chunkNew_payload : statusOf (ran 0x20 (argsOf 0 4085 0 0 0 0 0) (withTr iend)) = 0x0002120E := by
  decide +kernel

/-- V47. -/
theorem test_chunkParse :
    (fun t : State => (statusOf t, t.resLen, t.cr)) (ran 0x21 (argsOf 0 12 0 0 0 0 0) (withBytes 0 rustFrame)) =
      (0x00000012, 12#32, some rustChunk) := by decide +kernel

/-- V43b: the declared length does not wrap. -/
theorem test_chunkParse_length :
    statusOf (ran 0x21 (argsOf 0 12 0 0 0 0 0)
      (withBytes 0 [0xFF#8, 0xFF#8, 0xFF#8, 0xFF#8, 0x52#8, 0x75#8, 0x53#8, 0x74#8, 0#8, 0#8, 0#8, 0#8])) = 0x00020206 := by
  decide +kernel

/-- V47. -/
theorem test_chunkSerialize :
    (fun t : State => (statusOf t, t.buf.map Prod.snd)) (ran 0x22 (argsOf 0 0 0 12 0 0 0) (withCr rustChunk)) =
      (0x00000012, rustFrame) := by decide +kernel

/-- V40. -/
theorem test_chunkSerialize_none : statusOf (ran 0x22 (argsOf 0 0 0 100 0 0 0) State.reset) = 0x00001406 := by
  decide +kernel

/-- V47. -/
theorem test_chunkType :
    (fun t : State => (statusOf t, t.tr, t.resType)) (ran 0x23 (argsOf 0 0 0 0 0 0 0) (withCr rustChunk)) =
      (0x0000001A, some rustLower, 0x52757374#32) := by decide +kernel

/-- R158 on V47's chunk. -/
theorem test_chunkInfo :
    (fun t : State => (t.resLen, t.resCrc, t.resType)) (ran 0x24 (argsOf 0 0 0 0 0 0 0) (withCr rustChunk)) =
      (0#32, 0x41002D9E#32, 0x52757374#32) := by decide +kernel

/-- V44, with TR none: two bytes copied. -/
theorem test_chunkData :
    (fun t : State => (statusOf t, t.buf)) (ran 0x25 (argsOf 0 0 0x100 2 0 0 0)
      (withCr { iendChunk with length := 2#32, data := [0x00#8, 0xFF#8] })) =
      (0x00000012, [(0x100, 0x00#8), (0x101, 0xFF#8)]) := by decide +kernel

/-- V44, with TR none. -/
theorem test_chunkData_capacity :
    statusOf (ran 0x25 (argsOf 0 0 0x100 1 0 0 0)
      (withCr { iendChunk with length := 2#32, data := [0x00#8, 0xFF#8] })) = 0x00011216 := by decide +kernel

/-- V44, F0 9F 98 80, with TR none. -/
theorem test_chunkPayloadText :
    (fun t : State => (statusOf t, t.resLen)) (ran 0x26 (argsOf 0 0 0x100 16 0 0 0)
      (withCr { iendChunk with length := 4#32, data := [0xF0#8, 0x9F#8, 0x98#8, 0x80#8] })) = (0x00000012, 4#32) := by
  decide +kernel

/-- V44, ED A0 80 (a surrogate), with TR none. -/
theorem test_chunkPayloadText_surrogate :
    statusOf (ran 0x26 (argsOf 0 0 0x100 16 0 0 0)
      (withCr { iendChunk with length := 3#32, data := [0xED#8, 0xA0#8, 0x80#8] })) = 0x00020616 := by decide +kernel

/-- V57's 20-byte buffer. -/
theorem test_contParse :
    (fun t : State => (t.cont, t.resIndex, t.resLen)) (ran 0x30 (argsOf 0 20 0 0 0 0 0) (withBytes 0 iendFile)) =
      ([iendChunk], 1#32, 20#32) := by decide +kernel

/-- As V55's fifth row: the first frame is cut short after 13 bytes. -/
theorem test_contParse_truncated :
    (fun t : State => (statusOf t, t.errOffset)) (ran 0x30 (argsOf 0 13 0 0 0 0 0) (withBytes 0 iendFile)) =
      (0x00010206, 8#32) := by decide +kernel

/-- V54. -/
theorem test_contSerialize :
    (fun t : State => (statusOf t, t.buf.map Prod.snd)) (ran 0x31 (argsOf 0 0 0x800 8 0 0 0) State.reset) =
      (0x00000002, [0x89#8, 0x50#8, 0x4E#8, 0x47#8, 0x0D#8, 0x0A#8, 0x1A#8, 0x0A#8]) := by decide +kernel

/-- V52, "RuSt" from index 1 (with V47's type in the second place). -/
theorem test_contFind :
    (fun t : State => (t.resIndex, t.resFlags)) (ran 0x32 (argsOf 0 0 0 0 0x52757374 1 0) (withCont [iendChunk, rustChunk])) =
      (1#32, 0x80#32) := by decide +kernel

/-- V52, "IEND" from index 1: not found. -/
theorem test_contFind_absent :
    (fun t : State => (t.resIndex, t.resFlags)) (ran 0x32 (argsOf 0 0 0 0 0x49454E44 1 0) (withCont [iendChunk, rustChunk])) =
      (2#32, 0#32) := by decide +kernel

/-- V53. -/
theorem test_contGet :
    (fun t : State => (statusOf t, t.cr)) (ran 0x33 (argsOf 0 0 0 0 0 0 0) (withCont [iendChunk, rustChunk])) =
      (0x00000012, some iendChunk) := by decide +kernel

/-- V53. -/
theorem test_contGet_range :
    statusOf (ran 0x33 (argsOf 0 0 0 0 0 2 0) (withCont [iendChunk, rustChunk])) = 0x00001506 := by decide +kernel

/-- V57, with TR none: one chunk fits the smallest table. -/
theorem test_contAppend :
    (fun t : State => (statusOf t, t.cont, t.resIndex)) (ran 0x34 (argsOf 0 0 0 0 0 0 0)
      { withCr iendChunk with params := { Params.vectorDefaults with maxChunks := 1, storeBytes := 0 } }) =
      (0x00000012, [iendChunk], 0#32) := by decide +kernel

/-- V57, with TR none: the table is full. -/
theorem test_contAppend_full :
    statusOf (ran 0x34 (argsOf 0 0 0 0 0 0 0)
      { withCr iendChunk with
        params := { Params.vectorDefaults with maxChunks := 1, storeBytes := 0 }, cont := [iendChunk] }) = 0x00031216 := by
  decide +kernel

/-- R200's example, with V47's chunk. -/
theorem test_contRemoveFirst :
    (fun t : State => (t.cont, t.resIndex)) (ran 0x35 (argsOf 0 0 0 0 0x52757374 0 0)
      (withCont [iendChunk, rustChunk, rustChunk])) = ([iendChunk, rustChunk], 1#32) := by decide +kernel

/-- R200's example: NOT_FOUND. -/
theorem test_contRemoveFirst_absent :
    statusOf (ran 0x35 (argsOf 0 0 0 0 0x52755374 0 0) (withCont [iendChunk])) = 0x00000506 := by decide +kernel

/-- R202: two chunks, 8 + 12 + 14 bytes. -/
theorem test_contCount :
    (fun t : State => (t.resIndex, t.resLen)) (ran 0x36 (argsOf 0 0 0 0 0 0 0) (withCont [iendChunk, twoChunk])) =
      (2#32, 34#32) := by decide +kernel

/-- V54. -/
theorem test_contCount_empty :
    (fun t : State => (t.resIndex, t.resLen)) (ran 0x36 (argsOf 0 0 0 0 0 0 0) State.reset) = (0#32, 8#32) := by
  decide +kernel

/-! ### Illegal words, the host's accesses and reset -/

/-- V60. -/
theorem test_illegal_zero : statusOf (ran 0x00000000 (argsOf 0 0 0 0 0 0 0) State.reset) = 0x00021006 := by decide +kernel

/-- V60. -/
theorem test_illegal_reserved : statusOf (ran 0x00000130 (argsOf 0 0 0 0 0 0 0) State.reset) = 0x00011006 := by
  decide +kernel

/-- V61. -/
theorem test_read_id :
    (hostOp (.readReg 0x00 4) State.reset).seen = [.reg 0x00 0x504E4731#32] := by decide +kernel

/-- V61. -/
theorem test_read_store :
    (hostOp (.readReg 0x4C 4) State.reset).seen = [.reg 0x4C 0x00000FEC#32] := by decide +kernel

/-- V62, its two CMD writes: the second is dropped. -/
theorem test_dropped_cmd :
    (fun t : State => (statusOf t, t.pend.map Pending.cmd))
      (hostOp (.writeReg 0x04 4 0x31#32) (hostOp (.writeReg 0x04 4 0x36#32) State.reset)) =
      (0x00000021, some 0x36#32) := by decide +kernel

/-- V63: the fault is recorded; the command completes (log 1). -/
theorem test_unwritten_read :
    (ran 0x01 (argsOf 0 1 0 0 0x52755374 0 0) State.reset).faults.uninitRead = true := by decide +kernel

/-- R261, R262: power-on makes a written byte unwritten, ends a pending command and keeps a model fault. -/
theorem test_power_on :
    (fun t : State => (Memory.read t.buf 0, t.pend, t.faults.hostAccess, t.args.len))
      (hostOp .powerOn (hostOp (.readReg 0x100 4) (pending .chunkParse (argsOf 0 1 0 0 0 0 0) (withBytes 0 [7#8])))) =
      (none, none, true, 0#32) := by decide +kernel

/-- V64: the pending destination becomes unwritten, the byte before it stays. -/
theorem test_reset_pending :
    (hostOp .reset (pending .contSerialize (argsOf 0 0 0x400 74 0 0 0) (withBytes 0x3FF [1#8, 2#8]))).buf =
      [(0x3FF, 1#8)] := by decide +kernel

/-- The machine right after reset has its words fetched where `withFetchWord` puts them: the next step performs CONT_COUNT. -/
theorem test_withFetchWord : (stateOf (step (State.reset.withFetchWord 32 0x36))).resLen = 8#32 := by decide +kernel

/-- R91: `CONT_FIND TYPE=t, INDEX=0` is two ARG writes, the CMD write and WAIT. -/
theorem test_assemble :
    assemble [.findFirst 0x49454E44#32] =
      [.writeReg 0x1C 4 0x49454E44#32, .writeReg 0x20 4 0#32, .writeReg 0x04 4 0x32#32, .wait] := by decide +kernel

/-! ### Witnesses: for every statement with hypotheses, concrete values that meet them, clause by clause -/

/-- R85's ranges at their ends, and a word with a reserved bit. -/
theorem witness_LegalWordsAreExactlyTheCommands :
    rsvField 0x00000100#32 ≠ 0#24 ∧
    [0x00#32, 0x03#32, 0x0F#32, 0x16#32, 0x1F#32, 0x27#32, 0x2F#32, 0x37#32, 0xFF#32, 0x36#32].map rsvField =
      List.replicate 10 0#24 := by
  decide +kernel

/-- A state for each of the four clauses. -/
theorem witness_StepRunsTheDecodedCommand :
    (∃ p, (pending .contCount (argsOf 0 0 0 0 0 0 0) State.reset).pend = some p ∧ decode p.cmd = .ok .contCount ∧
      (pending .contCount (argsOf 0 0 0 0 0 0 0) State.reset).turns = []) ∧
    (∃ p, (pending .contCount (argsOf 0 0 0 0 0 0 0) { State.reset with turns := [.block] }).pend = some p ∧
      decode p.cmd = .ok .contCount) ∧
    ({ State.reset with script := [.reset], turns := [.host] } : State).script = .reset :: [] ∧
    ({ State.reset with script := [.reset] } : State).turns = [] ∧
    ({ State.reset with script := [.reset] } : State).pend = none :=
  ⟨⟨_, rfl, by decide +kernel, rfl⟩, ⟨_, rfl, by decide +kernel⟩, rfl, rfl, rfl⟩

/-- A word of each of the three kinds, with the block's turn listed and with no turn listed. -/
theorem witness_IllegalWordReportsIllegalCommand :
    (issue 0x00000100#32 State.reset).pend = some { cmd := 0x00000100#32, args := State.reset.args } ∧
    rsvField 0x00000100#32 ≠ 0#24 ∧ (issue 0x37#32 State.reset).turns = [] ∧ rsvField 0x37#32 = 0#24 ∧
    (issue 0x37#32 { State.reset with turns := [.block, .host] }).turns = .block :: [.host] ∧
    0x36#32 = encode .contCount ∧ ∀ i, encode i ≠ 0x37#32 :=
  ⟨rfl, by decide +kernel, rfl, by decide +kernel, rfl, rfl, fun i => by cases i <;> decide +kernel⟩

/-- A pending record, for every command; the premise of every result statement. -/
theorem witness_EveryCommandCompletes (i : Instr) :
    (pending i (argsOf 0 0 0 0 0 0 0) State.reset).pend = some { cmd := encode i, args := argsOf 0 0 0 0 0 0 0 } := rfl

theorem witness_TypeFromBytesResult :
    (pending .typeFromBytes (argsOf 0 0 0 0 0xFF00FF00 0 0) State.reset).pend =
      some { cmd := 0x10#32, args := argsOf 0 0 0 0 0xFF00FF00 0 0 } := rfl

theorem witness_ContCountResult :
    (pending .contCount (argsOf 0 0 0 0 0 0 0) State.reset).pend = some { cmd := 0x36#32, args := argsOf 0 0 0 0 0 0 0 } := rfl

/-- The vector defaults, and parameters at their lower ends. -/
theorem witness_ResetMeetsTheInvariant :
    Params.vectorDefaults.legal ∧
    ({ Params.vectorDefaults with bufBytes := 20, maxPayload := 8, maxChunks := 1, storeBytes := 0 } : Params).legal := by
  decide +kernel

/-- Ranges at the end of BUF, (4095, 2) outside and (4095, 1) inside; also for the clauses of CRC_CHECK. -/
theorem witness_CrcChecksumResult :
    ¬ SourceOk State.reset (argsOf 4095 2 0 0 0 0 0) ∧ SourceOk State.reset (argsOf 4095 1 0 0 0 0 0) ∧
    Holds (withBytes 4095 [7#8]) 4095 1 [7#8] ∧ SourceOk State.reset (argsOf 4096 0 0 0 0 0 0) ∧
    Holds State.reset 4096 0 [] := by
  unfold Holds
  decide +kernel

theorem witness_CrcCheckResult :
    ¬ SourceOk State.reset (argsOf 4096 1 0 0 0 0 0) ∧ SourceOk State.reset (argsOf 0 0 0 0 0x49454E44 0 0) ∧
    Holds State.reset 0 0 [] ∧ crc32 ((unpack4 0x49454E44#32).bytes ++ []) = 0xAE426082#32 := by
  unfold Holds
  decide +kernel

theorem witness_BitFlipChangesChecksum :
    rust.bytes ++ [0x00#8] = [0x52#8, 0x75#8, 0x53#8, 0x74#8] ++ 0x00#8 :: [] ∧
    rust.bytes ++ [0x80#8] = [0x52#8, 0x75#8, 0x53#8, 0x74#8] ++ (0x00#8 ^^^ (1#8 <<< 7)) :: [] := by decide +kernel

/-- The letters' ends, a reserved bit set, a byte just outside, the wrong length and a range outside BUF. -/
theorem witness_TypeFromTextResult :
    ¬ SourceOk State.reset (argsOf 4094 4 0 0 0 0 0) ∧ SourceOk State.reset (argsOf 0 5 0 0 0 0 0) ∧
    (argsOf 0 5 0 0 0 0 0).len ≠ 4#32 ∧ SourceOk State.reset (argsOf 4092 4 0 0 0 0 0) ∧
    (argsOf 4092 4 0 0 0 0 0).len = 4#32 ∧
    Holds (withBytes 4092 [0x41#8, 0x7A#8, 0x5A#8, 0x61#8]) 4092 4 [0x41#8, 0x7A#8, 0x5A#8, 0x61#8] ∧
    AsciiLetter 0x41#8 ∧ AsciiLetter 0x7A#8 ∧ AsciiLetter 0x5A#8 ∧ AsciiLetter 0x61#8 ∧ (0x5A#8).getLsbD 5 = false ∧
    (0x61#8).getLsbD 5 = true ∧ ¬ AsciiLetter 0x40#8 := by
  unfold Holds AsciiLetter Within
  decide +kernel

theorem witness_TypeAsBytesResult : State.reset.tr = none ∧ (withTr rust).tr = some rust := ⟨rfl, rfl⟩

/-- Destinations outside BUF, too small, and exactly the last four bytes. -/
theorem witness_TypeAsTextResult :
    ¬ DestOk State.reset (argsOf 0 0 4093 4 0 0 0) ∧ DestOk State.reset (argsOf 0 0 4093 3 0 0 0) ∧
    (argsOf 0 0 4093 3 0 0 0).cap.toNat < 4 ∧ DestOk State.reset (argsOf 0 0 4092 4 0 0 0) ∧
    4 ≤ (argsOf 0 0 4092 4 0 0 0).cap.toNat ∧ Memory.wf (withTr rust).buf := by decide +kernel

theorem witness_TypePropsResult : (withTr rust).tr = some rust ∧ State.reset.tr = none := ⟨rfl, rfl⟩

theorem witness_TypeEqResult :
    (withTr rust).tr = some (unpack4 0x52755374#32) ∧ rust ≠ unpack4 0x52555354#32 := by decide +kernel

/-- The payload bound met exactly, with a state whose parameters leave no other room, and exceeded by one. -/
theorem witness_ChunkNewResult :
    (withTr rust).tr = some rust ∧ ¬ SourceOk (withTr rust) (argsOf 0 4097 0 0 0 0 0) ∧
    SourceOk (withTr rust) (argsOf 0 4085 0 0 0 0 0) ∧
    (withTr rust).params.maxPayload < (argsOf 0 4085 0 0 0 0 0).len.toNat ∧
    (argsOf 0 1 0 0 0 0 0).len.toNat ≤ (withTr rust).params.maxPayload ∧ Holds (withBytes 0 [7#8]) 0 1 [7#8] := by
  unfold Holds
  decide +kernel

/-- Eleven bytes, a declared length one too long, and the frame of a good and of a bad chunk, with bytes after it. -/
theorem witness_ChunkParseResult :
    SourceOk State.reset (argsOf 0 11 0 0 0 0 0) ∧ (argsOf 0 11 0 0 0 0 0).len.toNat < 12 ∧
    12 ≤ (argsOf 0 12 0 0 0 0 0).len.toNat ∧ Holds (withBytes 0 (encBe32 1#32)) 0 4 (encBe32 1#32) ∧
    (argsOf 0 12 0 0 0 0 0).len.toNat < 12 + (1#32).toNat ∧ twoChunk.length.toNat = twoChunk.data.length ∧
    12 + twoChunk.length.toNat ≤ (argsOf 0 15 0 0 0 0 0).len.toNat ∧
    Holds (withBytes 0 (frame twoChunk)) 0 (12 + twoChunk.length.toNat)
      (encBe32 twoChunk.length ++ twoChunk.type.bytes ++ twoChunk.data ++ encBe32 twoChunk.crc) ∧
    twoChunk.crc = crc32 (twoChunk.type.bytes ++ twoChunk.data) ∧
    Holds (withBytes 0 (frame badChunk)) 0 (12 + badChunk.length.toNat)
      (encBe32 badChunk.length ++ badChunk.type.bytes ++ badChunk.data ++ encBe32 badChunk.crc) ∧
    badChunk.crc ≠ crc32 (badChunk.type.bytes ++ badChunk.data) := by
  unfold Holds
  decide +kernel

theorem witness_ChunkSerializeResult :
    State.reset.cr = none ∧ (withCr twoChunk).cr = some twoChunk ∧ ¬ DestOk State.reset (argsOf 0 0 4083 14 0 0 0) ∧
    DestOk State.reset (argsOf 0 0 4083 13 0 0 0) ∧ (argsOf 0 0 4083 13 0 0 0).cap.toNat < 12 + twoChunk.length.toNat ∧
    DestOk State.reset (argsOf 0 0 4082 14 0 0 0) ∧ 12 + twoChunk.length.toNat ≤ (argsOf 0 0 4082 14 0 0 0).cap.toNat ∧
    Memory.wf (withCr twoChunk).buf ∧ twoChunk.length.toNat = twoChunk.data.length := by decide +kernel

theorem witness_ChunkTypeResult : State.reset.cr = none ∧ (withCr twoChunk).cr = some twoChunk := ⟨rfl, rfl⟩

theorem witness_ChunkInfoResult : State.reset.cr = none ∧ (withCr badChunk).cr = some badChunk := ⟨rfl, rfl⟩

/-- An empty payload with capacity 0, and a payload one byte too long. -/
theorem witness_ChunkDataResult :
    (withCr iendChunk).cr = some iendChunk ∧ ¬ DestOk State.reset (argsOf 0 0 4097 0 0 0 0) ∧
    DestOk State.reset (argsOf 0 0 4096 0 0 0 0) ∧ iendChunk.length.toNat ≤ (argsOf 0 0 4096 0 0 0 0).cap.toNat ∧
    iendChunk.length.toNat = iendChunk.data.length ∧ Memory.wf (withCr iendChunk).buf ∧
    (argsOf 0 0 0 1 0 0 0).cap.toNat < twoChunk.length.toNat := by decide +kernel

/-- A chunk with a two-byte text, one with a payload that is no text, an empty one, and capacities 1 and 2. -/
theorem witness_ChunkPayloadTextResult :
    (withCr twoChunk).cr = some twoChunk ∧ DestOk State.reset (argsOf 0 0 0 2 0 0 0) ∧ iendChunk.length = 0#32 ∧
    twoChunk.length ≠ 0#32 ∧ utf8Valid [0xC3#8, 0x28#8] = false ∧ utf8Valid twoChunk.data = true ∧
    (argsOf 0 0 0 1 0 0 0).cap.toNat < twoChunk.length.toNat ∧
    twoChunk.length.toNat ≤ (argsOf 0 0 0 2 0 0 0).cap.toNat ∧ Memory.wf (withCr twoChunk).buf ∧
    twoChunk.length.toNat = twoChunk.data.length := by decide +kernel

/-- The states of a round trip: a chunk in CR serialized to 0, and its frame in BUF parsed from there. -/
def serializing : State := pending .chunkSerialize (argsOf 0 14 0 14 0 0 0) (withCr twoChunk)
def serialized : State := stateOf (exec .chunkSerialize serializing)
def parsing : State := pending .chunkParse (argsOf 0 14 0 14 0 0 0) { State.reset with buf := serialized.buf }
def parsed : State := stateOf (exec .chunkParse parsing)
def serializingAgain : State := pending .chunkSerialize (argsOf 0 14 0x100 14 0 0 0) { State.reset with cr := parsed.cr }

theorem witness_ChunkRoundTrips_serialize :
    serializing.pend = some { cmd := encode .chunkSerialize, args := argsOf 0 14 0 14 0 0 0 } ∧
    serializing.cr = some twoChunk ∧ Chunk.wf twoChunk ∧ Memory.wf serializing.buf ∧
    DestOk serializing (argsOf 0 14 0 14 0 0 0) ∧ 12 + twoChunk.length.toNat ≤ (argsOf 0 14 0 14 0 0 0).cap.toNat ∧
    exec .chunkSerialize serializing = .next serialized ∧ parsing.buf = serialized.buf ∧
    parsing.pend = some { cmd := encode .chunkParse, args := argsOf 0 14 0 14 0 0 0 } ∧
    SourceOk parsing (argsOf 0 14 0 14 0 0 0) ∧ 12 + twoChunk.length.toNat ≤ (argsOf 0 14 0 14 0 0 0).len.toNat :=
  ⟨rfl, rfl, by decide +kernel, by decide +kernel, by decide +kernel, by decide +kernel, eq_next (by decide +kernel), rfl, rfl,
    by decide +kernel, by decide +kernel⟩

theorem witness_ChunkRoundTrips_parse :
    SourceOk parsing (argsOf 0 14 0 14 0 0 0) ∧ Holds parsing 0 14 (frame twoChunk) ∧
    parsing.params.bufBytes ≤ 2 ^ 31 ∧ exec .chunkParse parsing = .next parsed ∧ parsed.err = 0#8 ∧
    serializingAgain.cr = parsed.cr ∧ DestOk serializingAgain (argsOf 0 14 0x100 14 0 0 0) ∧
    Memory.wf serializingAgain.buf ∧ parsed.resLen.toNat ≤ (argsOf 0 14 0x100 14 0 0 0).cap.toNat :=
  ⟨by decide +kernel, by unfold Holds; decide +kernel, by decide +kernel, eq_next (by decide +kernel), by decide +kernel,
    by decide +kernel, by decide +kernel, by decide +kernel, by decide +kernel⟩

/-- The frame of `twoChunk` with bit 7 of its last payload byte flipped. -/
def flippedBytes : List Byte := (frame twoChunk).take 9 ++ (0x01#8 ^^^ (1#8 <<< 7)) :: (frame twoChunk).drop 10
def parsingFlipped : State := pending .chunkParse (argsOf 0 14 0 14 0 0 0) (withBytes 0 flippedBytes)

theorem witness_FlippedFrameIsRefused :
    SourceOk parsing (argsOf 0 14 0 14 0 0 0) ∧ Holds parsing 0 14 (frame twoChunk) ∧
    exec .chunkParse parsing = .next parsed ∧ parsed.err = 0#8 ∧
    frame twoChunk = (frame twoChunk).take 9 ++ 0x01#8 :: (frame twoChunk).drop 10 ∧
    4 ≤ ((frame twoChunk).take 9).length ∧ ((frame twoChunk).take 9).length < parsed.resLen.toNat - 4 ∧
    SourceOk parsingFlipped (argsOf 0 14 0 14 0 0 0) ∧
    Holds parsingFlipped 0 14 ((frame twoChunk).take 9 ++ (0x01#8 ^^^ (1#8 <<< 7)) :: (frame twoChunk).drop 10) :=
  ⟨by decide +kernel, by unfold Holds; decide +kernel, eq_next (by decide +kernel), by decide +kernel, by decide +kernel,
    by decide +kernel, by decide +kernel, by decide +kernel, by unfold Holds; decide +kernel⟩

/-- Seven bytes, and eight that differ from the signature in the last. -/
theorem witness_ContParseChecksTheSignature :
    ¬ SourceOk State.reset (argsOf 4090 7 0 0 0 0 0) ∧ SourceOk State.reset (argsOf 0 7 0 0 0 0 0) ∧
    (argsOf 0 7 0 0 0 0 0).len.toNat < 8 ∧ 8 ≤ (argsOf 0 8 0 0 0 0 0).len.toNat ∧
    Holds (withBytes 0 [0x89#8, 0x50#8, 0x4E#8, 0x47#8, 0x0D#8, 0x0A#8, 0x1A#8, 0x0B#8]) 0 8
      [0x89#8, 0x50#8, 0x4E#8, 0x47#8, 0x0D#8, 0x0A#8, 0x1A#8, 0x0B#8] := by
  unfold Holds
  decide +kernel

/-- A container of two chunks, in BUF from 0 on, and the states of its round trip. -/
def fileBytes : List Byte := serialize [iendChunk, twoChunk]
def parsingFile : State := pending .contParse (argsOf 0 34 0x100 34 0 0 0) (withBytes 0 fileBytes)
def parsedFile : State := stateOf (exec .contParse parsingFile)
def serializingFile : State := pending .contSerialize (argsOf 0 34 0x100 34 0 0 0) { State.reset with cont := parsedFile.cont }

theorem witness_ContParseGivesTheList :
    parsingFile.params.legal ∧ SourceOk parsingFile (argsOf 0 34 0x100 34 0 0 0) ∧
    (∀ c ∈ [iendChunk, twoChunk], Chunk.wf c) ∧
    Holds parsingFile 0 34
      ([0x89#8, 0x50#8, 0x4E#8, 0x47#8, 0x0D#8, 0x0A#8, 0x1A#8, 0x0A#8] ++ [iendChunk, twoChunk].flatMap frame) := by
  unfold Holds
  decide +kernel

/-- One good frame, then 11 bytes, a declared length one too long, or a frame with a wrong crc. -/
theorem witness_ContParseReportsTheFirstBadFrame :
    State.reset.params.legal ∧ (∀ c ∈ [iendChunk], Chunk.wf c) ∧ 20 = serLen [iendChunk] ∧
    20 < (argsOf 0 31 0 0 0 0 0).len.toNat ∧ SourceOk State.reset (argsOf 0 31 0 0 0 0 0) ∧
    Holds (withBytes 0 (iendFile ++ encBe32 1#32)) 0 20 (serialize [iendChunk]) ∧
    (argsOf 0 31 0 0 0 0 0).len.toNat < 20 + 12 ∧ 20 + 12 ≤ (argsOf 0 32 0 0 0 0 0).len.toNat ∧
    Holds (withBytes 0 (iendFile ++ encBe32 1#32)) 20 4 (encBe32 1#32) ∧
    (argsOf 0 32 0 0 0 0 0).len.toNat < 20 + 12 + (1#32).toNat ∧ badChunk.length.toNat = badChunk.data.length ∧
    20 + frameLen badChunk ≤ (argsOf 0 34 0 0 0 0 0).len.toNat ∧
    Holds (withBytes 0 (iendFile ++ frame badChunk)) 20 (frameLen badChunk) (frame badChunk) ∧
    badChunk.crc ≠ checksum badChunk.type badChunk.data := by
  unfold Holds
  decide +kernel

theorem witness_ContSerializeResult :
    ¬ DestOk State.reset (argsOf 0 0 4080 34 0 0 0) ∧ DestOk State.reset (argsOf 0 0 0 33 0 0 0) ∧
    (argsOf 0 0 0 33 0 0 0).cap.toNat < 8 + ([iendChunk, twoChunk].map fun c => 12 + c.length.toNat).sum ∧
    8 + ([iendChunk, twoChunk].map fun c => 12 + c.length.toNat).sum ≤ (argsOf 0 0 0 34 0 0 0).cap.toNat ∧
    Memory.wf (withCont [iendChunk, twoChunk]).buf ∧
    ∀ c ∈ (withCont [iendChunk, twoChunk]).cont, c.length.toNat = c.data.length := by decide +kernel

theorem witness_ContainerRoundTrips :
    SourceOk parsingFile (argsOf 0 34 0x100 34 0 0 0) ∧ Holds parsingFile 0 34 fileBytes ∧
    exec .contParse parsingFile = .next parsedFile ∧ parsedFile.err = 0#8 ∧ serializingFile.cont = parsedFile.cont ∧
    DestOk serializingFile (argsOf 0 34 0x100 34 0 0 0) ∧ Memory.wf serializingFile.buf ∧
    (argsOf 0 34 0x100 34 0 0 0).len.toNat ≤ (argsOf 0 34 0x100 34 0 0 0).cap.toNat :=
  ⟨by decide +kernel, by unfold Holds; decide +kernel, eq_next (by decide +kernel), by decide +kernel, by decide +kernel,
    by decide +kernel, by decide +kernel, by decide +kernel⟩

/-- A match exactly at ARG_INDEX, and none at or after it. -/
theorem witness_ContFindResult :
    (argsOf 0 0 0 0 0x52757374 1 0).index.toNat ≤ 1 ∧ (withCont [iendChunk, rustChunk]).cont[1]? = some rustChunk ∧
    rustChunk.type = unpack4 0x52757374#32 ∧
    (∀ j d, (argsOf 0 0 0 0 0x52757374 1 0).index.toNat ≤ j → j < 1 →
      (withCont [iendChunk, rustChunk]).cont[j]? = some d → d.type ≠ unpack4 0x52757374#32) ∧
    (∀ j d, (argsOf 0 0 0 0 0x52757374 2 0).index.toNat ≤ j →
      (withCont [iendChunk, rustChunk]).cont[j]? = some d → d.type ≠ unpack4 0x52757374#32) := by
  refine ⟨by decide +kernel, rfl, by decide +kernel, fun j d h1 h2 => ?_, fun j d h1 h2 => ?_⟩
  · have h1 : 1 ≤ j := h1
    omega
  · have h1 : 2 ≤ j := h1
    have h2 : [iendChunk, rustChunk][j]? = some d := h2
    rw [List.getElem?_eq_none (show [iendChunk, rustChunk].length ≤ j from h1)] at h2
    cases h2

/-- The last index, and the first one past it. -/
theorem witness_ContGetResult :
    (withCont [iendChunk]).cont.length ≤ (argsOf 0 0 0 0 0 1 0).index.toNat ∧
    (withCont [iendChunk]).cont[(argsOf 0 0 0 0 0 0 0).index.toNat]? = some iendChunk := by decide +kernel

/-- A full table, a full store, and room for exactly one chunk more. -/
theorem witness_ContAppendResult :
    State.reset.cr = none ∧ (withCr twoChunk).cr = some twoChunk ∧
    (withCont [iendChunk]).cont.length = ({ Params.vectorDefaults with maxChunks := 1 } : Params).maxChunks ∧
    (withCont [iendChunk]).cont.length ≠ (withCont [iendChunk]).params.maxChunks ∧
    ({ Params.vectorDefaults with storeBytes := 1 } : Params).storeBytes <
      ([iendChunk].map fun c => c.length.toNat).sum + twoChunk.length.toNat ∧
    ([iendChunk].map fun c => c.length.toNat).sum + twoChunk.length.toNat ≤
      ({ Params.vectorDefaults with storeBytes := 2 } : Params).storeBytes := by decide +kernel

theorem witness_ContRemoveFirstResult :
    (∀ d ∈ (withCont [iendChunk]).cont, d.type ≠ unpack4 0x52757374#32) ∧
    (withCont [iendChunk, rustChunk, rustChunk]).cont = [iendChunk] ++ rustChunk :: [rustChunk] ∧
    rustChunk.type = unpack4 0x52757374#32 ∧ ∀ d ∈ [iendChunk], d.type ≠ unpack4 0x52757374#32 := by decide +kernel

/-- Legal parameters at their lower ends, and a parse of each kind that answers. -/
theorem witness_ParsesNeverRunOutOfCapacity :
    ({ Params.vectorDefaults with bufBytes := 20, maxPayload := 8, maxChunks := 1, storeBytes := 0 } : Params).legal ∧
    parsing.params.legal ∧ exec .chunkParse parsing = .next parsed ∧ parsing.cr ≠ parsed.cr ∧
    exec .contParse parsingFile = .next parsedFile :=
  ⟨by decide +kernel, by decide +kernel, eq_next (by decide +kernel), by decide +kernel, eq_next (by decide +kernel)⟩

/-- A command that ends in an error: CHECKSUM_MISMATCH. -/
theorem witness_ErrorsArePrecise :
    parsingFlipped.pend = some { cmd := encode .chunkParse, args := argsOf 0 14 0 14 0 0 0 } ∧
    exec .chunkParse parsingFlipped = .next (stateOf (exec .chunkParse parsingFlipped)) ∧
    (stateOf (exec .chunkParse parsingFlipped)).err ≠ 0#8 :=
  ⟨rfl, eq_next (by decide +kernel), by decide +kernel⟩

/-- A command that stores, its BUF canonical, and an address on each side of its destination range. -/
theorem witness_CommandsWriteOnlyTheirRow :
    exec .chunkSerialize serializing = .next serialized ∧ Memory.wf serializing.buf ∧
    ¬ (0x100 ≤ 0xFF ∧ 0xFF < 0x100 + 14) ∧ ¬ (0x100 ≤ 0x10E ∧ 0x10E < 0x100 + 14) :=
  ⟨eq_next (by decide +kernel), by decide +kernel, by decide +kernel, by decide +kernel⟩

theorem witness_MissingOperandThenRange :
    State.reset.tr = none ∧ State.reset.cr = none ∧ ¬ SourceOk (withTr rust) (argsOf 9999 1 0 0 0 0 0) ∧
    (withTr rust).tr ≠ none ∧ ¬ DestOk (withTr rust) (argsOf 0 0 9999 1 0 0 0) ∧
    ({ withTr rust with cr := some iendChunk } : State).cr ≠ none := by decide +kernel

/-- Two memories that agree on the source range and differ after it. -/
theorem witness_CommandsReadOnlyTheirSource :
    exec .chunkParse parsing = .next parsed ∧
    (∀ a, 0 ≤ a → a < 14 → Memory.read (Memory.write parsing.buf 14 9#8) a = Memory.read parsing.buf a) ∧
    Memory.read (Memory.write parsing.buf 14 9#8) 14 ≠ Memory.read parsing.buf 14 := by
  refine ⟨eq_next (by decide +kernel), fun a _ h => ?_, by decide +kernel⟩
  have key : ∀ a < 14, Memory.read (Memory.write parsing.buf 14 9#8) a = Memory.read parsing.buf a := by decide +kernel
  exact key a h

/-- Clause by clause: a second source byte unwritten; a text of two written bytes; a frame whose length is unwritten, and one
whose type is; a signature of one byte; after a good frame, a length unwritten, and a frame whose type is. -/
theorem witness_UnwrittenSourceIsRecorded :
    (SourceOk (withBytes 0 [1#8]) (argsOf 0 2 0 0 0 0 0) ∧ Unwritten (withBytes 0 [1#8]) 0 2 ∧ (withTr rust).tr ≠ none ∧
      (argsOf 0 2 0 0 0 0 0).len.toNat ≤ (withTr rust).params.maxPayload) ∧
    ((argsOf 0 4 0 0 0 0 0).len = 4#32 ∧ Unwritten (withBytes 0 [1#8, 2#8]) 0 4) ∧
    (12 ≤ (argsOf 0 12 0 0 0 0 0).len.toNat ∧ Unwritten State.reset 0 4) ∧
    (Holds (withBytes 0 (encBe32 1#32)) 0 4 (encBe32 1#32) ∧ 12 + (1#32).toNat ≤ (argsOf 0 13 0 0 0 0 0).len.toNat ∧
      Unwritten (withBytes 0 (encBe32 1#32)) 0 (12 + (1#32).toNat)) ∧
    (8 ≤ (argsOf 0 8 0 0 0 0 0).len.toNat ∧ Unwritten (withBytes 0 [0x89#8]) 0 8) ∧
    State.reset.params.legal ∧ (∀ c ∈ [iendChunk], Chunk.wf c) ∧ 20 = serLen [iendChunk] ∧
    20 + 12 + (1#32).toNat ≤ (argsOf 0 33 0 0 0 0 0).len.toNat ∧ Holds (withBytes 0 iendFile) 0 20 (serialize [iendChunk]) ∧
    Unwritten (withBytes 0 iendFile) (0 + 20) 4 ∧
    Holds (withBytes 0 (iendFile ++ encBe32 1#32)) (0 + 20) 4 (encBe32 1#32) ∧
    Unwritten (withBytes 0 (iendFile ++ encBe32 1#32)) (0 + 20) (12 + (1#32).toNat) := by
  unfold Holds
  decide +kernel

/-- A state that meets the invariant with a command pending, written bytes and a chunk in CR and in CONT. -/
def busyState : State :=
  pending .contSerialize (argsOf 0 0 1 40 0 0 0)
    { withBytes 0 [1#8, 2#8] with cr := some twoChunk, cont := [iendChunk] }

theorem busyState_inv : State.Inv busyState where
  paramsLegal := by decide +kernel
  bufCanonical := by decide +kernel
  bufInside := by decide +kernel
  chunkHeld := by
    intro c hc
    cases hc
    decide +kernel
  contHeld := by decide +kernel
  contCount := by decide +kernel
  contStore := by decide +kernel
  pendingClear := fun _ => ⟨rfl, rfl, rfl⟩
  errorListed := .inl ⟨rfl, rfl⟩
  flagsReserved := by decide +kernel

theorem witness_StepKeepsTheInvariant :
    State.Inv busyState ∧ step busyState = .next (stateOf (step busyState)) :=
  ⟨busyState_inv, eq_next (by decide +kernel)⟩

theorem witness_FaultsAndParametersAreKept : step busyState = .next (stateOf (step busyState)) :=
  eq_next (by decide +kernel)

theorem witness_PlacementIsInvisible :
    step busyState = .next (stateOf (step busyState)) ∧ busyState.placedAt 4096 8192 ≠ busyState :=
  ⟨eq_next (by decide +kernel), by decide +kernel⟩

theorem witness_CmdWriteIssuesOrIsDropped : State.reset.pend = none ∧ busyState.pend ≠ none := by decide +kernel

/-- The first and the last reserved offset. -/
theorem witness_RegisterWrites :
    0x50 % 4 = 0 ∧ 0x50 ≤ 0x50 ∧ 0x50 < 0x100 ∧ 0xFC % 4 = 0 ∧ 0x50 ≤ 0xFC ∧ 0xFC < 0x100 ∧ State.reset.pend = none := by
  decide +kernel

/-- Nothing pending for the last clause, the ends of the reserved offsets for the second, and a busy state for the first two. -/
theorem witness_RegisterReads :
    State.reset.pend = none ∧ 0x50 % 4 = 0 ∧ 0xFC % 4 = 0 ∧ 0xFC < 0x100 ∧ busyState.pend ≠ none := by decide +kernel

/-- A written byte inside the pending destination range, and one just below it. -/
theorem witness_ReadsWhileBusy :
    State.Inv busyState ∧ busyState.pend ≠ none ∧ 1 < busyState.params.bufBytes ∧
    Memory.read busyState.buf 1 = some 2#8 ∧ inPendingDest busyState 1 = true ∧
    Memory.read busyState.buf 0 = some 1#8 ∧ inPendingDest busyState 0 = false :=
  ⟨busyState_inv, by decide +kernel, by decide +kernel, by decide +kernel, by decide +kernel, by decide +kernel, by decide +kernel⟩

/-- A written byte and the last address of BUF, unwritten, outside the pending ranges; an unwritten byte inside the pending
destination range. -/
theorem witness_HostBufAccess :
    4095 < busyState.params.bufBytes ∧ inPendingSource busyState 4095 = false ∧ inPendingDest busyState 4095 = false ∧
    Memory.read busyState.buf 4095 = none ∧ inPendingSource busyState 0 = false ∧ inPendingDest busyState 0 = false ∧
    Memory.read busyState.buf 0 = some 1#8 ∧ Memory.wf busyState.buf ∧
    inPendingDest busyState 40 = true ∧ Memory.read busyState.buf 40 = none := by decide +kernel

/-- Each way an access can have no meaning, at its edge. -/
theorem witness_MeaninglessAccessIsRecorded :
    (2 ≠ 4) ∧ 0x0A % 4 ≠ 0 ∧ 0x100 ≤ 0x100 ∧ (4 ≠ 1) ∧ State.reset.params.bufBytes ≤ 4096 := by decide +kernel

/-- The first and the last byte of a declared destination and source range, and a command without a range. -/
theorem witness_RacingWriteIsRecorded :
    busyState.pend = some { cmd := encode .contSerialize, args := argsOf 0 0 1 40 0 0 0 } ∧
    decode (encode .contSerialize) = .ok .contSerialize ∧ 40 < busyState.params.bufBytes ∧
    declaresDest .contSerialize = true ∧ (1 ≤ 1 ∧ 1 < 1 + 40) ∧ (1 ≤ 40 ∧ 40 < 1 + 40) ∧
    declaresSource .chunkParse = true ∧ (0 ≤ 13 ∧ 13 < 0 + 14) ∧
    declaresSource .contFind = false ∧ declaresDest .contFind = false := by decide +kernel

/-- The three clauses' premises: nothing pending, a command pending, an illegal word pending. -/
theorem witness_ResetState :
    State.reset.pend = none ∧
    busyState.pend = some { cmd := encode .contSerialize, args := argsOf 0 0 1 40 0 0 0 } ∧
    decode (encode .contSerialize) = .ok .contSerialize ∧
    (issue 0x37#32 State.reset).pend = some { cmd := 0x37#32, args := State.reset.args } ∧
    decode 0x37#32 = .error .unassignedOpcode := by decide +kernel

theorem witness_PendingCommandEnds :
    ({ busyState with turns := [.host, .host] } : State).pend =
      some { cmd := encode .contSerialize, args := argsOf 0 0 1 40 0 0 0 } := rfl

/-- A list with two matches around another chunk, with turns listed. -/
theorem witness_RemoveAllRemovesEveryMatch :
    ({ withCont [rustChunk, iendChunk, rustChunk] with
        script := removeAll 0x52757374#32, turns := [.block, .host, .host] } : State).pend = none ∧
    ({ withCont [rustChunk, iendChunk, rustChunk] with
        script := removeAll 0x52757374#32, turns := [.block, .host, .host] } : State).script =
      removeAll 0x52757374#32 ++ [] := by decide +kernel

theorem witness_FindAllYieldsEveryMatch :
    ({ withCont [rustChunk, iendChunk] with
        script := findAllFrom 0x52757374#32 0#32, turns := [.block, .host] } : State).pend = none ∧
    ({ withCont [rustChunk, iendChunk] with
        script := findAllFrom 0x52757374#32 0#32, turns := [.block, .host] } : State).script =
      findAllFrom 0x52757374#32 0#32 ++ [] ∧
    (withCont [rustChunk, iendChunk]).cont.length < 2 ^ 32 := by decide +kernel

end Sys2Proof.Tests
end

/-! The type code's register form (R34): its numeric value, and that packing and unpacking undo each other. -/

namespace Sys2Proof.Machine

/-- Appending places the left vector above the right one's `m` bits. -/
theorem toNat_append_eq_mul_add {n m : Nat} (x : BitVec n) (y : BitVec m) :
    (x ++ y).toNat = x.toNat * 2 ^ m + y.toNat := by
  rw [BitVec.toNat_append, ← Nat.shiftLeft_add_eq_or_of_lt y.isLt, Nat.shiftLeft_eq]

/-- The numeric value of `pack4` (R34): the first byte in wire order is the most significant. -/
theorem toNat_pack4 (t : TypeCode) :
    (pack4 t).toNat =
      t.b0.toNat * 2 ^ 24 + t.b1.toNat * 2 ^ 16 + t.b2.toNat * 2 ^ 8 + t.b3.toNat := by
  simp only [pack4, toNat_append_eq_mul_add]
  ring

/-- Settles O12: the two round trips of R34, and the packed value byte by byte. -/
theorem typePackingIsLossless : Obligations.TypePackingIsLossless := by
  unfold Obligations.TypePackingIsLossless
  exact ⟨fun t => ⟨unpack4_pack4 t, toNat_pack4 t⟩, pack4_unpack4⟩

end Sys2Proof.Machine

/-! The CRC commands (R102 to R104): a flipped bit changes the checksum, and what CRC_CHECKSUM and CRC_CHECK end in. -/

namespace Sys2Proof.Machine

/-- Flipping bit `k` of a byte gives another byte. -/
theorem xor_bit_ne (b : Byte) {k : Nat} (hk : k < 8) : b ^^^ 1#8 <<< k ≠ b := by
  intro h
  have hbit : (b ^^^ 1#8 <<< k).getLsbD k = b.getLsbD k := by rw [h]
  simp [hk] at hbit

/-- Settles O11: changing one byte changes the CRC (`crc32_change_byte`), and the flipped byte is another byte. -/
theorem bitFlipChangesChecksum : Obligations.BitFlipChangesChecksum := by
  unfold Obligations.BitFlipChangesChecksum
  intro t t' d d' l r b k hk h h' heq
  unfold checksum at heq
  rw [h, h'] at heq
  exact xor_bit_ne b hk (crc32_change_byte heq).symm

section
variable {s : State} {p : Pending} {d : List Byte}

/-- A source range out of bounds is ADDRESS_RANGE detail 1 and nothing else (R65, R234). -/
theorem withSource_failed {x : Args} {k : Out} (h : ¬ SourceOk s x) :
    withSource x s k = .next (s.failed 0x11#8 1#8 0#32) :=
  withSource_out h

theorem execCrcChecksum_out (hp : s.pend = some p) (h : ¬ SourceOk s p.args) :
    execCrcChecksum s = .next (s.failed 0x11#8 1#8 0#32) := by
  unfold execCrcChecksum
  rw [withArgs_some hp, withSource_failed h]

theorem execCrcChecksum_in (hp : s.pend = some p) (h : SourceOk s p.args)
    (hd : Holds s p.args.src.toNat p.args.len.toNat d) :
    execCrcChecksum s = .next ({ s with resCrc := checksum (unpack4 p.args.type) d } : State).succeeded := by
  unfold execCrcChecksum
  rw [withArgs_some hp, withSource_in h, memRead_of_holds hd]
  rfl

theorem execCrcCheck_out (hp : s.pend = some p) (h : ¬ SourceOk s p.args) :
    execCrcCheck s = .next (s.failed 0x11#8 1#8 0#32) := by
  unfold execCrcCheck
  rw [withArgs_some hp, withSource_failed h]

/-- On a source range in bounds and written, CRC_CHECK reports the checksum whether or not it matches (R103, R236). -/
theorem execCrcCheck_in (hp : s.pend = some p) (h : SourceOk s p.args)
    (hd : Holds s p.args.src.toNat p.args.len.toNat d) :
    execCrcCheck s =
      .next (if checksum (unpack4 p.args.type) d = p.args.crc
        then ({ s with resCrc := checksum (unpack4 p.args.type) d } : State).succeeded
        else ({ s with resCrc := checksum (unpack4 p.args.type) d } : State).failed 0x03#8 0#8 0#32) := by
  unfold execCrcCheck
  rw [withArgs_some hp, withSource_in h, memRead_of_holds hd]
  by_cases hc : checksum (unpack4 p.args.type) d = p.args.crc
  · simp only [hc, ne_eq, not_true_eq_false, if_false, if_true]
    rfl
  · simp only [hc, ne_eq, not_false_eq_true, if_false, if_true]
    rfl

end

/-- Settles O8: the range check, and the result on a source range that is in bounds and written. -/
theorem crcChecksumResult : Obligations.CrcChecksumResult := by
  unfold Obligations.CrcChecksumResult
  exact ⟨decode_encode .crcChecksum, fun s p hp =>
    ⟨execCrcChecksum_out hp, fun d h hd => execCrcChecksum_in hp h hd⟩⟩

/-- Settles O9: the range check, and the two ends of the comparison, each with the computed value in RES_CRC. -/
theorem crcCheckResult : Obligations.CrcCheckResult := by
  unfold Obligations.CrcCheckResult
  refine ⟨decode_encode .crcCheck, fun s p hp => ⟨execCrcCheck_out hp, fun d h hd hmatch => ?_, fun d h hd hmiss => ?_⟩⟩
  · have hmatch : checksum (unpack4 p.args.type) d = p.args.crc := hmatch
    calc exec .crcCheck s = execCrcCheck s := rfl
      _ = _ := execCrcCheck_in hp h hd
      _ = .next ({ s with resCrc := p.args.crc } : State).succeeded := by rw [if_pos hmatch, hmatch]
  · exact (execCrcCheck_in hp h hd).trans (congrArg _ (if_neg hmiss))

end Sys2Proof.Machine

/-! The type-code commands (R120 to R128): the text check on four bytes, the property flags, and what each command ends in. -/

namespace Sys2Proof.Machine

/-! ### The text check and the flags -/

/-- `ALPHA` is R121's letter test on all four bytes. -/
theorem alpha_iff (t : TypeCode) :
    t.alpha = true ↔ AsciiLetter t.b0 ∧ AsciiLetter t.b1 ∧ AsciiLetter t.b2 ∧ AsciiLetter t.b3 := by
  simp [TypeCode.alpha, TypeCode.bytes, isAlpha_iff]

/-- On four bytes the text check asks for letters first, then for the reserved bit (R122). -/
theorem textCheck_bytes (t : TypeCode) :
    textCheck t.bytes =
      if t.alpha = false then some .textNotAlpha
      else if t.reservedValid = false then some .textReservedBit
      else none := by
  simp [textCheck, TypeCode.alpha]

theorem textCheck_not_alpha {t : TypeCode}
    (h : ¬ (AsciiLetter t.b0 ∧ AsciiLetter t.b1 ∧ AsciiLetter t.b2 ∧ AsciiLetter t.b3)) :
    textCheck t.bytes = some .textNotAlpha := by
  have halpha : t.alpha = false := Bool.eq_false_iff.2 (mt (alpha_iff t).1 h)
  rw [textCheck_bytes, if_pos halpha]

section
variable {t : TypeCode}
  (halpha : AsciiLetter t.b0 ∧ AsciiLetter t.b1 ∧ AsciiLetter t.b2 ∧ AsciiLetter t.b3)
include halpha

theorem textCheck_reserved_set (h : t.b2.getLsbD 5 = true) : textCheck t.bytes = some .textReservedBit := by
  have hres : t.reservedValid = false := congrArg not h
  simp [textCheck_bytes, (alpha_iff t).2 halpha, hres]

theorem textCheck_valid (h : t.b2.getLsbD 5 = false) : textCheck t.bytes = none := by
  have hres : t.reservedValid = true := congrArg not h
  simp [textCheck_bytes, (alpha_iff t).2 halpha, hres]

end

/-- Bit `n` of what TYPE_PROPS writes: the six properties at their places, and no other bit (R127). -/
theorem getLsbD_propsFlags (t : TypeCode) (n : Nat) :
    (propsFlags t).getLsbD n =
      ((t.critical && decide (n = 0)) || (t.isPublic && decide (n = 1)) || (t.reservedValid && decide (n = 2)) ||
        (t.safeToCopy && decide (n = 3)) || (t.alpha && decide (n = 4)) || (t.valid && decide (n = 5))) := by
  simp [propsFlags, getLsbD_flag]

/-- The reserved bits of RES_FLAGS and the bits of other commands are written 0 (R127). -/
theorem getLsbD_propsFlags_high (t : TypeCode) {n : Nat} (h : 6 ≤ n) : (propsFlags t).getLsbD n = false := by
  have hne : ∀ k < 6, n ≠ k := fun k hk => by omega
  simp [getLsbD_propsFlags, hne]

/-! ### What each command ends in -/

section
variable {s : State} {p : Pending} {t : TypeCode}

/-- An empty TR is NO_TYPE and nothing else (R31, R234). -/
theorem needType_failed {k : TypeCode → Out} (h : s.tr = none) :
    needType s k = .next (s.failed 0x13#8 0#8 0#32) :=
  needType_none h

/-- A destination range out of bounds is ADDRESS_RANGE detail 2 and nothing else (R65, R234). -/
theorem withDest_failed {x : Args} {k : Out} (h : ¬ DestOk s x) :
    withDest x s k = .next (s.failed 0x11#8 2#8 0#32) :=
  withDest_out h

theorem execTypeFromBytes_some (hp : s.pend = some p) :
    execTypeFromBytes s = .next ({ s with tr := some (unpack4 p.args.type) } : State).succeeded :=
  withArgs_some hp

theorem execTypeFromText_out (hp : s.pend = some p) (h : ¬ SourceOk s p.args) :
    execTypeFromText s = .next (s.failed 0x11#8 1#8 0#32) := by
  unfold execTypeFromText
  rw [withArgs_some hp, withSource_failed h]

/-- The length is checked before any byte is read: nothing is asked of BUF (R124). -/
theorem execTypeFromText_length (hp : s.pend = some p) (h : SourceOk s p.args) (hlen : p.args.len ≠ 4#32) :
    execTypeFromText s = .next (s.failed 0x01#8 1#8 0#32) := by
  unfold execTypeFromText
  rw [withArgs_some hp, withSource_in h, if_pos hlen]
  rfl

section
variable (hp : s.pend = some p) (h : SourceOk s p.args) (hlen : p.args.len = 4#32)
  (hd : Holds s p.args.src.toNat 4 t.bytes)
include hp h hlen hd

/-- A text that fails its check raises the error found and changes nothing else (R124). -/
theorem execTypeFromText_error {e : CmdError} (he : textCheck t.bytes = some e) :
    execTypeFromText s = .next (s.failed e.code e.detail 0#32) := by
  unfold execTypeFromText
  rw [withArgs_some hp, withSource_in h, if_neg (not_not_intro hlen), memRead_of_holds hd]
  simp only [he]
  rfl

/-- A text that passes its check is loaded (R124). -/
theorem execTypeFromText_pass (he : textCheck t.bytes = none) :
    execTypeFromText s = .next ({ s with tr := some t } : State).succeeded := by
  unfold execTypeFromText
  rw [withArgs_some hp, withSource_in h, if_neg (not_not_intro hlen), memRead_of_holds hd]
  simp only [he, quad_bytes]
  rfl

end

theorem execTypeAsBytes_none (hp : s.pend = some p) (ht : s.tr = none) :
    execTypeAsBytes s = .next (s.failed 0x13#8 0#8 0#32) := by
  unfold execTypeAsBytes
  rw [withArgs_some hp, needType_failed ht]

theorem execTypeAsBytes_some (hp : s.pend = some p) (ht : s.tr = some t) :
    execTypeAsBytes s = .next ({ s with resType := pack4 t } : State).succeeded := by
  unfold execTypeAsBytes
  rw [withArgs_some hp, needType_some ht]
  rfl

theorem execTypeAsText_none (hp : s.pend = some p) (ht : s.tr = none) :
    execTypeAsText s = .next (s.failed 0x13#8 0#8 0#32) := by
  unfold execTypeAsText
  rw [withArgs_some hp, needType_failed ht]

theorem execTypeAsText_out (hp : s.pend = some p) (ht : s.tr = some t) (h : ¬ DestOk s p.args) :
    execTypeAsText s = .next (s.failed 0x11#8 2#8 0#32) := by
  unfold execTypeAsText
  rw [withArgs_some hp, needType_some ht, withDest_failed h]

/-- On a destination range in bounds TYPE_AS_TEXT is the shared store of R66, of the four raw bytes (R126). -/
theorem execTypeAsText_in (hp : s.pend = some p) (ht : s.tr = some t) (h : DestOk s p.args) :
    execTypeAsText s = putDest p.args 4 t.bytes s := by
  unfold execTypeAsText
  rw [withArgs_some hp, needType_some ht, withDest_in h]

theorem execTypeProps_none (hp : s.pend = some p) (ht : s.tr = none) :
    execTypeProps s = .next (s.failed 0x13#8 0#8 0#32) := by
  unfold execTypeProps
  rw [withArgs_some hp, needType_failed ht]

theorem execTypeProps_some (hp : s.pend = some p) (ht : s.tr = some t) :
    execTypeProps s = .next ({ s with resFlags := propsFlags t } : State).succeeded := by
  unfold execTypeProps
  rw [withArgs_some hp, needType_some ht]
  rfl

theorem execTypeEq_none (hp : s.pend = some p) (ht : s.tr = none) :
    execTypeEq s = .next (s.failed 0x13#8 0#8 0#32) := by
  unfold execTypeEq
  rw [withArgs_some hp, needType_failed ht]

theorem execTypeEq_some (hp : s.pend = some p) (ht : s.tr = some t) :
    execTypeEq s =
      .next ({ s with resFlags := equalFlags (decide (t = unpack4 p.args.type)) } : State).succeeded := by
  unfold execTypeEq
  rw [withArgs_some hp, needType_some ht]
  rfl

end

/-! ### The statements -/

/-- Settles O14: the range, the length, the letters and the reserved bit in their order, and the text that passes. -/
theorem typeFromTextResult : Obligations.TypeFromTextResult := by
  unfold Obligations.TypeFromTextResult
  refine ⟨decode_encode .typeFromText, fun s p hp =>
    ⟨execTypeFromText_out hp, execTypeFromText_length hp, fun a b c d h hlen hd => ?_⟩⟩
  have hd : Holds s p.args.src.toNat 4 (TypeCode.mk a b c d).bytes := hd
  refine ⟨fun hbad => ?_, fun hA hB hC hD hset => ?_, fun hA hB hC hD hclear => ?_⟩
  · exact execTypeFromText_error hp h hlen hd (textCheck_not_alpha hbad)
  · exact execTypeFromText_error hp h hlen hd (textCheck_reserved_set ⟨hA, hB, hC, hD⟩ hset)
  · exact execTypeFromText_pass hp h hlen hd (textCheck_valid ⟨hA, hB, hC, hD⟩ hclear)

/-- Settles O16: the three checks, and the store of the four bytes with its frame (`putDest_in`). -/
theorem typeAsTextResult : Obligations.TypeAsTextResult := by
  unfold Obligations.TypeAsTextResult
  refine ⟨decode_encode .typeAsText, fun s p hp => ⟨execTypeAsText_none hp, fun t ht h => execTypeAsText_out hp ht h,
    fun t ht h hcap => ?_, fun t ht h hcap hwf => ?_⟩⟩
  · exact (execTypeAsText_in hp ht h).trans (putDest_out hcap)
  · obtain ⟨m, hput, hm⟩ := putDest_in (v := t.bytes) hcap rfl hwf
    exact ⟨m, (execTypeAsText_in hp ht h).trans hput, hm⟩

/-- Settles O17: the flags written are `propsFlags`, read bit by bit. -/
theorem typePropsResult : Obligations.TypePropsResult := by
  unfold Obligations.TypePropsResult
  refine ⟨decode_encode .typeProps, fun s p hp => ⟨execTypeProps_none hp, fun t ht =>
    ⟨propsFlags t, execTypeProps_some hp ht, ?_, ?_, ?_, ?_, ?_, ?_, fun n hn => getLsbD_propsFlags_high t hn⟩⟩⟩
  · rw [getLsbD_propsFlags]
    simp [TypeCode.critical]
  · rw [getLsbD_propsFlags]
    simp [TypeCode.isPublic]
  · rw [getLsbD_propsFlags]
    simp [TypeCode.reservedValid]
  · rw [getLsbD_propsFlags]
    simp [TypeCode.safeToCopy]
  · rw [getLsbD_propsFlags]
    simp [alpha_iff]
  · simp only [getLsbD_propsFlags]
    simp [TypeCode.valid]

/-- Settles O13: TR takes the four bytes of ARG_TYPE with no check between. -/
theorem typeFromBytesResult : Obligations.TypeFromBytesResult := by
  unfold Obligations.TypeFromBytesResult
  exact ⟨decode_encode .typeFromBytes, fun s p hp => execTypeFromBytes_some hp⟩

/-- Settles O15: the two ends of TYPE_AS_BYTES, by whether TR holds a type. -/
theorem typeAsBytesResult : Obligations.TypeAsBytesResult := by
  unfold Obligations.TypeAsBytesResult
  exact ⟨decode_encode .typeAsBytes, fun s p hp =>
    ⟨execTypeAsBytes_none hp, fun t ht => execTypeAsBytes_some hp ht⟩⟩

/-- Settles O18: NO_TYPE, and the EQUAL flag on each side of the comparison. -/
theorem typeEqResult : Obligations.TypeEqResult := by
  unfold Obligations.TypeEqResult
  refine ⟨decode_encode .typeEq, fun s p hp => ⟨execTypeEq_none hp, fun ht => ?_, fun t ht hne => ?_⟩⟩
  · calc exec .typeEq s = _ := execTypeEq_some hp ht
      _ = _ := by rw [decide_eq_true rfl]; rfl
  · calc exec .typeEq s = _ := execTypeEq_some hp ht
      _ = _ := by rw [decide_eq_false hne]; rfl

end Sys2Proof.Machine

/-! The chunk commands (R150 to R161): what each one ends in, and that `utf8Valid` is R160's concatenation. -/

namespace Sys2Proof.Machine

/-! ### UTF-8 -/

/-- A well-formed sequence in front of bytes does not change whether they are valid: its first byte names its row, and its
other bytes complete that row (R160). -/
theorem utf8Valid_append {q : List Byte} (h : Utf8Sequence q) (d : List Byte) :
    utf8Valid (q ++ d) = utf8Valid d := by
  obtain ⟨row, hrow, b, r, rfl, hb, hr⟩ := (utf8Sequence_iff q).1 h
  calc utf8Valid (b :: r ++ d) = utf8From row.rest (r ++ d) := by
        simp [utf8Valid, utf8From, utf8Table_row b row hrow hb]
    _ = utf8Valid d := utf8From_append hr

/-- Valid bytes that are not empty begin with a well-formed sequence, and are valid after it (R160). -/
theorem exists_utf8Sequence_of_valid {b : Byte} {d : List Byte} (h : utf8Valid (b :: d) = true) :
    ∃ r d', d = r ++ d' ∧ Utf8Sequence (b :: r) ∧ utf8Valid d' = true := by
  simp only [utf8Valid, utf8From] at h
  split at h
  · rename_i row hfind
    obtain ⟨r, d', hd, hr, hd'⟩ := utf8From_split h
    have hfirst : row.first.has b = true := List.find?_some (p := fun row : Utf8Row => row.first.has b) hfind
    exact ⟨r, d', hd, (utf8Sequence_iff _).2 ⟨row, List.mem_of_find?_eq_some hfind, b, r, rfl, hfirst, hr⟩, hd'⟩
  · cases h

/-- Valid bytes are a concatenation of well-formed sequences (R160), by taking the first one off. -/
theorem exists_flatten_of_utf8Valid (d : List Byte) (h : utf8Valid d = true) :
    ∃ qs : List (List Byte), d = qs.flatten ∧ ∀ q ∈ qs, Utf8Sequence q := by
  match d with
  | [] => exact ⟨[], rfl, by simp⟩
  | b :: d =>
    obtain ⟨r, d', rfl, hq, hd'⟩ := exists_utf8Sequence_of_valid h
    obtain ⟨qs, rfl, hqs⟩ := exists_flatten_of_utf8Valid d' hd'
    exact ⟨(b :: r) :: qs, rfl, List.forall_mem_cons.2 ⟨hq, hqs⟩⟩
termination_by d.length

/-- A concatenation of well-formed sequences is valid (R160). -/
theorem utf8Valid_flatten (qs : List (List Byte)) (h : ∀ q ∈ qs, Utf8Sequence q) : utf8Valid qs.flatten = true := by
  induction qs with
  | nil => rfl
  | cons q qs ih =>
    obtain ⟨hq, hqs⟩ := List.forall_mem_cons.1 h
    rw [List.flatten_cons, utf8Valid_append hq]
    exact ih hqs

/-- Settles O25: sequences are taken off the front one way, and put on the front the other way. -/
theorem utf8ValidIsConcatenation : Obligations.Utf8ValidIsConcatenation := by
  unfold Obligations.Utf8ValidIsConcatenation
  refine fun d => ⟨exists_flatten_of_utf8Valid d, ?_⟩
  rintro ⟨qs, rfl, hqs⟩
  exact utf8Valid_flatten qs hqs

/-! ### The frame parser's length checks -/

theorem parseFrame_short {a m : Nat} {s : State} (h : m < 12) : parseFrame a m s = (.fail .frameTooShort, s) := by
  unfold parseFrame
  rw [if_pos h]

/-- A declared length that runs past the bytes available is found after the length field alone is read (R150). -/
theorem parseFrame_long {a m : Nat} {l : Word} {s : State} (h12 : 12 ≤ m) (hl : Holds s a 4 (encBe32 l))
    (h : m < 12 + l.toNat) : parseFrame a m s = (.fail .frameLengthTooLong, s) := by
  unfold parseFrame
  rw [if_neg (Nat.not_lt.2 h12)]
  simp only [memRead_of_holds hl, be32_encBe32]
  rw [if_pos h]

/-! ### What each command ends in -/

section
variable {s : State} {p : Pending} {c : Chunk}

/-- An empty CR is NO_CHUNK and nothing else (R31, R234). -/
theorem needChunk_failed {k : Chunk → Out} (h : s.cr = none) : needChunk s k = .next (s.failed 0x14#8 0#8 0#32) :=
  needChunk_none h

theorem execChunkNew_none (hp : s.pend = some p) (ht : s.tr = none) :
    execChunkNew s = .next (s.failed 0x13#8 0#8 0#32) := by
  unfold execChunkNew
  rw [withArgs_some hp, needType_failed ht]

section
variable {t : TypeCode} (hp : s.pend = some p) (ht : s.tr = some t)
include hp ht

theorem execChunkNew_out (h : ¬ SourceOk s p.args) : execChunkNew s = .next (s.failed 0x11#8 1#8 0#32) := by
  unfold execChunkNew
  rw [withArgs_some hp, needType_some ht, withSource_failed h]

/-- The capacity is checked before any byte is read: nothing is asked of BUF (R154). -/
theorem execChunkNew_capacity (h : SourceOk s p.args) (hmax : s.params.maxPayload < p.args.len.toNat) :
    execChunkNew s = .next (s.failed 0x12#8 2#8 0#32) := by
  unfold execChunkNew
  rw [withArgs_some hp, needType_some ht, withSource_in h, if_pos hmax]
  rfl

theorem execChunkNew_in {d : List Byte} (h : SourceOk s p.args) (hmax : p.args.len.toNat ≤ s.params.maxPayload)
    (hd : Holds s p.args.src.toNat p.args.len.toNat d) :
    execChunkNew s =
      .next ({ s with cr := some { type := t, length := p.args.len, data := d, crc := checksum t d },
                      resLen := p.args.len, resCrc := checksum t d } : State).succeeded := by
  unfold execChunkNew
  rw [withArgs_some hp, needType_some ht, withSource_in h, if_neg (Nat.not_lt.2 hmax), memRead_of_holds hd]
  rfl

end

theorem execChunkParse_out (hp : s.pend = some p) (h : ¬ SourceOk s p.args) :
    execChunkParse s = .next (s.failed 0x11#8 1#8 0#32) := by
  unfold execChunkParse
  rw [withArgs_some hp, withSource_failed h]

section
variable (hp : s.pend = some p) (h : SourceOk s p.args)
include hp h

/-- An error of the frame parser is CHUNK_PARSE's own (R152). -/
theorem execChunkParse_fail {e : CmdError}
    (hf : parseFrame p.args.src.toNat p.args.len.toNat s = (.fail e, s)) :
    execChunkParse s = .next (s.failed e.code e.detail 0#32) := by
  unfold execChunkParse
  rw [withArgs_some hp, withSource_in h, hf]
  rfl

/-- A mismatch found by the frame parser leaves the recomputed checksum in RES_CRC (R152). -/
theorem execChunkParse_mismatch {k : Word}
    (hf : parseFrame p.args.src.toNat p.args.len.toNat s = (.mismatch k, s)) :
    execChunkParse s = .next (({ s with resCrc := k } : State).failed 0x03#8 0#8 0#32) := by
  unfold execChunkParse
  rw [withArgs_some hp, withSource_in h, hf]
  rfl

theorem execChunkParse_ok {n : Nat}
    (hf : parseFrame p.args.src.toNat p.args.len.toNat s = (.ok c n, s)) :
    execChunkParse s =
      .next ({ s with cr := some c, resLen := BitVec.ofNat 32 n, resCrc := c.crc } : State).succeeded := by
  unfold execChunkParse
  rw [withArgs_some hp, withSource_in h, hf]
  rfl

section
variable (hl : c.length.toNat = c.data.length) (hm : frameLen c ≤ p.args.len.toNat)
  (hd : Holds s p.args.src.toNat (frameLen c) (frame c))
include hl hm hd

theorem execChunkParse_frame_bad (hc : c.crc ≠ checksum c.type c.data) :
    execChunkParse s =
      .next (({ s with resCrc := checksum c.type c.data } : State).failed 0x03#8 0#8 0#32) := by
  have hf := parseFrame_frame hd hl hm
  rw [if_neg hc.symm] at hf
  exact execChunkParse_mismatch hp h hf

theorem execChunkParse_frame_good (hc : c.crc = checksum c.type c.data) :
    execChunkParse s =
      .next ({ s with cr := some c, resLen := BitVec.ofNat 32 (frameLen c), resCrc := c.crc } : State).succeeded := by
  have hf := parseFrame_frame hd hl hm
  rw [if_pos hc.symm] at hf
  exact execChunkParse_ok hp h hf

end

end

theorem execChunkSerialize_none (hp : s.pend = some p) (hc : s.cr = none) :
    execChunkSerialize s = .next (s.failed 0x14#8 0#8 0#32) := by
  unfold execChunkSerialize
  rw [withArgs_some hp, needChunk_failed hc]

theorem execChunkSerialize_out (hp : s.pend = some p) (hc : s.cr = some c) (h : ¬ DestOk s p.args) :
    execChunkSerialize s = .next (s.failed 0x11#8 2#8 0#32) := by
  unfold execChunkSerialize
  rw [withArgs_some hp, needChunk_some hc, withDest_failed h]

/-- On a destination range in bounds CHUNK_SERIALIZE is the shared store of R66, of the frame (R155). -/
theorem execChunkSerialize_in (hp : s.pend = some p) (hc : s.cr = some c) (h : DestOk s p.args) :
    execChunkSerialize s = putDest p.args (frameLen c) (frame c) s := by
  unfold execChunkSerialize
  rw [withArgs_some hp, needChunk_some hc, withDest_in h]

/-- A destination that fits receives the frame and no other byte changes (R155). -/
theorem execChunkSerialize_stored (hp : s.pend = some p) (hc : s.cr = some c) (h : DestOk s p.args)
    (hcap : frameLen c ≤ p.args.cap.toNat) (hwf : Memory.wf s.buf) (hl : c.length.toNat = c.data.length) :
    ∃ m, execChunkSerialize s =
        .next ({ s with buf := m, resLen := BitVec.ofNat 32 (frameLen c) } : State).succeeded ∧
      StoredAt s m p.args.dst.toNat (frame c) := by
  rw [execChunkSerialize_in hp hc h]
  exact putDest_in hcap (frame_length hl) hwf

theorem execChunkType_none (hp : s.pend = some p) (hc : s.cr = none) :
    execChunkType s = .next (s.failed 0x14#8 0#8 0#32) := by
  unfold execChunkType
  rw [withArgs_some hp, needChunk_failed hc]

theorem execChunkType_some (hp : s.pend = some p) (hc : s.cr = some c) :
    execChunkType s = .next ({ s with tr := some c.type, resType := pack4 c.type } : State).succeeded := by
  unfold execChunkType
  rw [withArgs_some hp, needChunk_some hc]
  rfl

theorem execChunkInfo_none (hp : s.pend = some p) (hc : s.cr = none) :
    execChunkInfo s = .next (s.failed 0x14#8 0#8 0#32) := by
  unfold execChunkInfo
  rw [withArgs_some hp, needChunk_failed hc]

theorem execChunkInfo_some (hp : s.pend = some p) (hc : s.cr = some c) :
    execChunkInfo s =
      .next ({ s with resLen := c.length, resCrc := c.crc, resType := pack4 c.type } : State).succeeded := by
  unfold execChunkInfo
  rw [withArgs_some hp, needChunk_some hc]
  rfl

theorem execChunkData_none (hp : s.pend = some p) (hc : s.cr = none) :
    execChunkData s = .next (s.failed 0x14#8 0#8 0#32) := by
  unfold execChunkData
  rw [withArgs_some hp, needChunk_failed hc]

theorem execChunkData_out (hp : s.pend = some p) (hc : s.cr = some c) (h : ¬ DestOk s p.args) :
    execChunkData s = .next (s.failed 0x11#8 2#8 0#32) := by
  unfold execChunkData
  rw [withArgs_some hp, needChunk_some hc, withDest_failed h]

/-- On a destination range in bounds CHUNK_DATA is the shared store of R66, of the payload (R159). -/
theorem execChunkData_in (hp : s.pend = some p) (hc : s.cr = some c) (h : DestOk s p.args) :
    execChunkData s = putDest p.args c.length.toNat c.data s := by
  unfold execChunkData
  rw [withArgs_some hp, needChunk_some hc, withDest_in h]

theorem execChunkPayloadText_none (hp : s.pend = some p) (hc : s.cr = none) :
    execChunkPayloadText s = .next (s.failed 0x14#8 0#8 0#32) := by
  unfold execChunkPayloadText
  rw [withArgs_some hp, needChunk_failed hc]

section
variable (hp : s.pend = some p) (hc : s.cr = some c)
include hp hc

theorem execChunkPayloadText_out (h : ¬ DestOk s p.args) :
    execChunkPayloadText s = .next (s.failed 0x11#8 2#8 0#32) := by
  unfold execChunkPayloadText
  rw [withArgs_some hp, needChunk_some hc, withDest_failed h]

theorem execChunkPayloadText_empty (h : DestOk s p.args) (h0 : c.length = 0#32) :
    execChunkPayloadText s = .next (s.failed 0x06#8 1#8 0#32) := by
  unfold execChunkPayloadText
  rw [withArgs_some hp, needChunk_some hc, withDest_in h, if_pos h0]
  rfl

/-- The text check comes before the capacity check: ARG_CAP is not asked (R161). -/
theorem execChunkPayloadText_notUtf8 (h : DestOk s p.args) (h0 : c.length ≠ 0#32) (hu : utf8Valid c.data = false) :
    execChunkPayloadText s = .next (s.failed 0x06#8 2#8 0#32) := by
  unfold execChunkPayloadText
  rw [withArgs_some hp, needChunk_some hc, withDest_in h, if_neg h0, hu]
  rfl

/-- On a payload that is text CHUNK_PAYLOAD_TEXT is CHUNK_DATA's store (R161). -/
theorem execChunkPayloadText_text (h : DestOk s p.args) (h0 : c.length ≠ 0#32) (hu : utf8Valid c.data = true) :
    execChunkPayloadText s = putDest p.args c.length.toNat c.data s := by
  unfold execChunkPayloadText
  rw [withArgs_some hp, needChunk_some hc, withDest_in h, if_neg h0, hu]
  rfl

end

end

/-! ### The statements -/

/-- Settles O19: the three checks in their order, and the chunk made with its checksum. -/
theorem chunkNewResult : Obligations.ChunkNewResult := by
  unfold Obligations.ChunkNewResult
  exact ⟨decode_encode .chunkNew, fun s p hp => ⟨execChunkNew_none hp, fun t ht => execChunkNew_out hp ht,
    fun t ht => execChunkNew_capacity hp ht, fun t d ht => execChunkNew_in hp ht⟩⟩

/-- Settles O20: the two length checks (`parseFrame_short`, `parseFrame_long`), and the two ends of a frame that fits. -/
theorem chunkParseResult : Obligations.ChunkParseResult := by
  unfold Obligations.ChunkParseResult
  refine ⟨decode_encode .chunkParse, fun s p hp => ⟨execChunkParse_out hp, fun h h12 => ?_, fun l h h12 hl hlong => ?_,
    fun c h hl hm hd => ⟨execChunkParse_frame_bad hp h hl hm hd, execChunkParse_frame_good hp h hl hm hd⟩⟩⟩
  · exact execChunkParse_fail hp h (parseFrame_short h12)
  · exact execChunkParse_fail hp h (parseFrame_long h12 hl hlong)

/-- Settles O21: the three checks, and the store of the frame with everything it leaves alone. -/
theorem chunkSerializeResult : Obligations.ChunkSerializeResult := by
  unfold Obligations.ChunkSerializeResult
  exact ⟨decode_encode .chunkSerialize, fun s p hp => ⟨execChunkSerialize_none hp,
    fun c hc => execChunkSerialize_out hp hc,
    fun c hc h hcap => (execChunkSerialize_in hp hc h).trans (putDest_out hcap),
    fun c hc => execChunkSerialize_stored hp hc⟩⟩

/-- Settles O22: the two ends of CHUNK_TYPE, by whether CR holds a chunk. -/
theorem chunkTypeResult : Obligations.ChunkTypeResult := by
  unfold Obligations.ChunkTypeResult
  exact ⟨decode_encode .chunkType, fun s p hp => ⟨execChunkType_none hp, fun c hc => execChunkType_some hp hc⟩⟩

/-- Settles O23: the two ends of CHUNK_INFO, by whether CR holds a chunk. -/
theorem chunkInfoResult : Obligations.ChunkInfoResult := by
  unfold Obligations.ChunkInfoResult
  exact ⟨decode_encode .chunkInfo, fun s p hp => ⟨execChunkInfo_none hp, fun c hc => execChunkInfo_some hp hc⟩⟩

/-- Settles O24: the three checks, and the store of the payload, which an empty payload passes too. -/
theorem chunkDataResult : Obligations.ChunkDataResult := by
  unfold Obligations.ChunkDataResult
  refine ⟨decode_encode .chunkData, fun s p hp => ⟨execChunkData_none hp, fun c hc => execChunkData_out hp hc,
    fun c hc h hcap => (execChunkData_in hp hc h).trans (putDest_out hcap), fun c hc h hcap hwf hl => ?_⟩⟩
  obtain ⟨m, hput, hm⟩ := putDest_in_word hcap hl hwf
  exact ⟨m, (execChunkData_in hp hc h).trans hput, hm⟩

/-- Settles O26: empty, UTF-8 and capacity in their order, and the store of the payload. -/
theorem chunkPayloadTextResult : Obligations.ChunkPayloadTextResult := by
  unfold Obligations.ChunkPayloadTextResult
  refine ⟨decode_encode .chunkPayloadText, fun s p hp => ⟨execChunkPayloadText_none hp, fun c hc =>
    ⟨execChunkPayloadText_out hp hc, execChunkPayloadText_empty hp hc, execChunkPayloadText_notUtf8 hp hc,
      fun h h0 hu hcap => ?_, fun h h0 hu hcap hwf hl => ?_⟩⟩⟩
  · exact (execChunkPayloadText_text hp hc h h0 hu).trans (putDest_out hcap)
  · obtain ⟨m, hput, hm⟩ := putDest_in_word hcap hl hwf
    exact ⟨m, (execChunkPayloadText_text hp hc h h0 hu).trans hput, hm⟩

end Sys2Proof.Machine

/-! The chunk round trip (R156) and the flipped frame (R162). -/

namespace Sys2Proof.Machine

/-! ### A frame that CHUNK_PARSE accepts -/

/-- CHUNK_PARSE without an error on written bytes: CR holds a well-formed chunk whose frame is the first RES_LEN of them
(R152, R156). -/
theorem execChunkParse_accepted {s t : State} {p : Pending} {b : List Byte} (hp : s.pend = some p)
    (h : SourceOk s p.args) (hd : Holds s p.args.src.toNat p.args.len.toNat b) (ht : execChunkParse s = .next t)
    (herr : t.err = 0#8) :
    ∃ c, Chunk.wf c ∧ t.cr = some c ∧ t.resLen.toNat = frameLen c ∧ frameLen c ≤ p.args.len.toNat ∧
      frame c = b.take (frameLen c) := by
  obtain ⟨r, s1, hf⟩ : ∃ r s1, parseFrame p.args.src.toNat p.args.len.toNat s = (r, s1) := ⟨_, _, rfl⟩
  unfold execChunkParse at ht
  rw [withArgs_some hp, withSource_in h, hf] at ht
  cases r with
  | mismatch k =>
    cases ht
    cases herr
  | fail e =>
    cases ht
    rcases parseFrame_fail hf with rfl | rfl <;> cases herr
  | ok c n =>
    obtain ⟨hwf, rfl, hn⟩ := parseFrame_ok hf
    have hlt : frameLen c < 2 ^ 32 := Nat.lt_of_le_of_lt hn p.args.len.isLt
    cases ht
    exact ⟨c, hwf, rfl, Nat.mod_eq_of_lt hlt, hn, (parseFrame_ok_frame hd hf).1⟩

/-! ### Serialize, then parse; parse, then serialize -/

/-- Serializing a well-formed chunk and parsing what was written gives the chunk (R156, first law). -/
theorem parse_after_serialize {s t u : State} {p q : Pending} {c : Chunk} (hp : s.pend = some p) (hc : s.cr = some c)
    (hwf : Chunk.wf c) (hbuf : Memory.wf s.buf) (hdst : DestOk s p.args) (hcap : frameLen c ≤ p.args.cap.toNat)
    (ht : execChunkSerialize s = .next t) (hu : u.buf = t.buf) (hq : u.pend = some q) (hsrc : SourceOk u q.args)
    (haddr : q.args.src = p.args.dst) (hlen : frameLen c ≤ q.args.len.toNat) :
    execChunkParse u =
      .next ({ u with cr := some c, resLen := BitVec.ofNat 32 (frameLen c), resCrc := c.crc } : State).succeeded := by
  obtain ⟨hl, hcrc⟩ := hwf
  obtain ⟨m, hm, hstored⟩ := execChunkSerialize_stored hp hc hdst hcap hbuf hl
  rw [hm] at ht
  cases ht
  have hholds : Holds u q.args.src.toNat (frameLen c) (frame c) := by
    rw [haddr, ← frame_length hl]
    exact hstored.holds hu
  exact execChunkParse_frame_good hq hsrc hl hlen hholds hcrc

/-- Settles O27: the first law is `parse_after_serialize`; for the second, the chunk parsed has the bytes as its frame
(`execChunkParse_accepted`), and its frame is what is stored. -/
theorem chunkRoundTrips : Obligations.ChunkRoundTrips := by
  unfold Obligations.ChunkRoundTrips
  refine ⟨fun s t u p q c hp hc hwf hbuf hdst hcap ht hu hq hsrc haddr hlen => ?_,
    fun s t u p q b hp hsrc hd _ ht herr hu hq hdst hbuf hcap => ?_⟩
  · exact ⟨_, parse_after_serialize hp hc hwf hbuf hdst hcap ht hu hq hsrc haddr hlen, rfl, rfl⟩
  · obtain ⟨c, ⟨hl, -⟩, hcr, hres, -, hframe⟩ := execChunkParse_accepted hp hsrc hd ht herr
    rw [hres] at hcap ⊢
    obtain ⟨m, hm, hstored⟩ := execChunkSerialize_stored hq (hu.trans hcr) hdst hcap hbuf hl
    exact ⟨_, hm, rfl, by simp [← hres], hframe ▸ hstored⟩

/-! ### A changed byte of the type or the payload -/

/-- What the checksum of a chunk covers: its type, then its payload (R101). -/
def Chunk.body (c : Chunk) : List Byte := c.type.bytes ++ c.data

/-- The chunk with other bytes for its type and payload; its length and crc stay. -/
def Chunk.withBody (c : Chunk) (w : List Byte) : Chunk := { c with type := quad (w.take 4), data := w.drop 4 }

theorem checksum_eq_crc32_body (c : Chunk) : checksum c.type c.data = crc32 c.body := rfl

theorem frame_eq_body (c : Chunk) : frame c = encBe32 c.length ++ c.body ++ encBe32 c.crc := by
  simp [frame, Chunk.body]

@[simp] theorem Chunk.body_length (c : Chunk) : c.body.length = 4 + c.data.length := by
  simp [Chunk.body]

@[simp] theorem Chunk.withBody_length (c : Chunk) (w : List Byte) : (c.withBody w).length = c.length := rfl

@[simp] theorem Chunk.withBody_crc (c : Chunk) (w : List Byte) : (c.withBody w).crc = c.crc := rfl

@[simp] theorem frameLen_withBody (c : Chunk) (w : List Byte) : frameLen (c.withBody w) = frameLen c := rfl

theorem Chunk.body_withBody (c : Chunk) {w : List Byte} (h : 4 ≤ w.length) : (c.withBody w).body = w := by
  have h4 : (w.take 4).length = 4 := by simp [h]
  simp [Chunk.body, Chunk.withBody, bytes_quad h4]

/-- Another value for one byte gives another CRC (R104). -/
theorem crc32_set_ne {w : List Byte} {i : Nat} {x y : Byte} (hx : w[i]? = some x) (hy : y ≠ x) :
    crc32 (w.set i y) ≠ crc32 w := by
  obtain ⟨hi, rfl⟩ := List.getElem?_eq_some_iff.1 hx
  intro h
  have hw : w = w.take i ++ w[i] :: w.drop (i + 1) := by simp
  rw [List.set_eq_take_append_cons_drop, if_pos hi] at h
  exact hy (crc32_change_byte (h.trans (congrArg crc32 hw)))

/-- Setting a byte of the frame after the length and before the crc sets it in the body (R86). -/
theorem frame_set {c : Chunk} {i : Nat} (y : Byte) (h4 : 4 ≤ i) (hi : i < 4 + c.body.length) :
    (frame c).set i y = frame (c.withBody (c.body.set (i - 4) y)) := by
  rw [frame_eq_body (c.withBody _), Chunk.body_withBody c (by simp), frame_eq_body,
    List.set_append_left _ _ (by simpa using hi), List.set_append_right _ _ (by simpa using h4)]
  simp

/-- The frame of a well-formed chunk with one byte of its type or payload changed fails the checksum (R162). -/
theorem checksum_withBody_set_ne {c : Chunk} {i : Nat} {x y : Byte} (hwf : Chunk.wf c) (hx : c.body[i]? = some x)
    (hy : y ≠ x) :
    (c.withBody (c.body.set i y)).crc ≠
      checksum (c.withBody (c.body.set i y)).type (c.withBody (c.body.set i y)).data := by
  rw [Chunk.withBody_crc, hwf.2, checksum_eq_crc32_body, checksum_eq_crc32_body, Chunk.body_withBody c (by simp)]
  exact (crc32_set_ne hx hy).symm

/-- CHUNK_PARSE of a well-formed chunk's frame with one byte of its type or payload changed is CHECKSUM_MISMATCH, and CR
keeps its value (R162). `i` counts from the first byte of the frame. -/
theorem execChunkParse_changed_byte {u : State} {q : Pending} {c : Chunk} {i : Nat} {x y : Byte}
    (hq : u.pend = some q) (h : SourceOk u q.args) (hwf : Chunk.wf c) (hm : frameLen c ≤ q.args.len.toNat)
    (h4 : 4 ≤ i) (hi : i < frameLen c - 4) (hx : (frame c)[i]? = some x) (hy : y ≠ x)
    (hd : Holds u q.args.src.toNat (frameLen c) ((frame c).set i y)) :
    ∃ k, execChunkParse u = .next (({ u with resCrc := k } : State).failed 0x03#8 0#8 0#32) := by
  have hl := hwf.1
  have hbody : i < 4 + c.body.length := by
    rw [Chunk.body_length, ← hl]
    unfold frameLen at hi
    omega
  have hx' : c.body[i - 4]? = some x := by
    rw [frame_eq_body, List.getElem?_append_left (by simpa using hbody),
      List.getElem?_append_right (by simpa using h4)] at hx
    exact hx
  have hlen : (c.withBody (c.body.set (i - 4) y)).length.toNat = (c.withBody (c.body.set (i - 4) y)).data.length := by
    simp [Chunk.withBody, hl]
  rw [frame_set y h4 hbody] at hd
  exact ⟨_, execChunkParse_frame_bad hq h hlen hm hd (checksum_withBody_set_ne hwf hx' hy)⟩

/-- Settles O28: the accepted bytes begin with the frame of a well-formed chunk, the flip changes one byte of it, and that
frame is refused (`execChunkParse_changed_byte`). -/
theorem flippedFrameIsRefused : Obligations.FlippedFrameIsRefused := by
  unfold Obligations.FlippedFrameIsRefused
  intro s t u p q b l r x k hp hsrc hd _ ht herr hb h4 hlast hk hq husrc hlen hud
  obtain ⟨c, hwf, -, hres, hm, hframe⟩ := execChunkParse_accepted hp hsrc hd ht herr
  rw [hres] at hlast
  have hi : l.length < frameLen c := by omega
  have hx : (frame c)[l.length]? = some x := by
    rw [hframe, List.getElem?_take_of_lt hi, hb]
    simp
  have hflip : (frame c).set l.length (x ^^^ 1#8 <<< k) = (l ++ (x ^^^ 1#8 <<< k) :: r).take (frameLen c) := by
    rw [hframe, ← List.take_set, hb]
    simp
  have hholds : Holds u q.args.src.toNat (frameLen c) ((frame c).set l.length (x ^^^ 1#8 <<< k)) := by
    rw [hflip]
    exact hud.slice 0 (frameLen c) (by rw [hlen]; omega)
  obtain ⟨v, hv⟩ := execChunkParse_changed_byte hq husrc hwf (hlen ▸ hm) h4 hlast hx (xor_bit_ne x hk) hholds
  exact ⟨_, hv, rfl, rfl⟩

end Sys2Proof.Machine

/-! The container commands (R193 to R202): lookups as `firstMatch`, and what each command ends in. -/

namespace Sys2Proof.Machine

/-! ### Lookups -/

section
variable {k : TypeCode} {start i : Nat} {l r : List Chunk} {c : Chunk}

/-- The least matching index at or after `start` is the one found (R196). -/
theorem firstMatch_eq_some (hi : start ≤ i) (hc : l[i]? = some c) (hk : c.type = k)
    (hleast : ∀ j d, start ≤ j → j < i → l[j]? = some d → d.type ≠ k) : firstMatch k start 0 l = some i := by
  cases h : firstMatch k start 0 l with
  | none => exact absurd hk (firstMatch_none h i (by omega) c hc)
  | some n =>
    obtain ⟨-, hn, ⟨d, hd, hdk⟩, hbefore⟩ := firstMatch_some h
    have hni : ¬ n < i := fun hlt => hleast n d hn hlt hd hdk
    have hin : ¬ i < n := fun hlt => hbefore i (by omega) (by omega) c hc hk
    exact congrArg some (by omega)

/-- Where no chunk at or after `start` matches, nothing is found (R196). -/
theorem firstMatch_eq_none (h : ∀ j d, start ≤ j → l[j]? = some d → d.type ≠ k) : firstMatch k start 0 l = none := by
  cases hf : firstMatch k start 0 l with
  | none => rfl
  | some n =>
    obtain ⟨-, hn, ⟨d, hd, hdk⟩, -⟩ := firstMatch_some hf
    exact absurd hdk (h n d hn hd)

/-- After chunks of other types, a chunk of the type is found at their number (R200). -/
theorem firstMatch_append_cons (hk : c.type = k) (hl : ∀ d ∈ l, d.type ≠ k) :
    firstMatch k 0 0 (l ++ c :: r) = some l.length := by
  refine firstMatch_eq_some (Nat.zero_le _) (by simp) hk fun j d _ hj hd => hl d ?_
  rw [List.getElem?_append_left hj] at hd
  exact List.mem_of_getElem? hd

end

/-! ### What each command ends in -/

section
variable {s : State} {p : Pending} {c : Chunk} {i : Nat}

section
variable (hp : s.pend = some p) (h : SourceOk s p.args)
include hp h

/-- A buffer shorter than the signature is refused before any byte is read (R190). -/
theorem execContParse_short (h8 : p.args.len.toNat < 8) : execContParse s = .next (s.failed 0x04#8 1#8 0#32) := by
  unfold execContParse
  rw [withArgs_some hp, withSource_in h, if_pos h8]
  rfl

theorem execContParse_badSignature {g : List Byte} (h8 : 8 ≤ p.args.len.toNat) (hd : Holds s p.args.src.toNat 8 g)
    (hg : g ≠ signature) : execContParse s = .next (s.failed 0x04#8 2#8 0#32) := by
  unfold execContParse
  rw [withArgs_some hp, withSource_in h, if_neg (Nat.not_lt.2 h8), memRead_of_holds hd]
  exact if_pos hg

end

theorem execContSerialize_out (hp : s.pend = some p) (h : ¬ DestOk s p.args) :
    execContSerialize s = .next (s.failed 0x11#8 2#8 0#32) := by
  unfold execContSerialize
  rw [withArgs_some hp, withDest_failed h]

/-- On a destination range in bounds CONT_SERIALIZE is the shared store of R66, of the serialized container (R193). -/
theorem execContSerialize_in (hp : s.pend = some p) (h : DestOk s p.args) :
    execContSerialize s = putDest p.args (serLen s.cont) (serialize s.cont) s := by
  unfold execContSerialize
  rw [withArgs_some hp, withDest_in h]

/-- A destination that fits receives the serialized container and no other byte changes (R193). -/
theorem execContSerialize_stored (hp : s.pend = some p) (h : DestOk s p.args) (hcap : serLen s.cont ≤ p.args.cap.toNat)
    (hwf : Memory.wf s.buf) (hl : ∀ c ∈ s.cont, c.length.toNat = c.data.length) :
    ∃ m, execContSerialize s =
        .next ({ s with buf := m, resLen := BitVec.ofNat 32 (serLen s.cont) } : State).succeeded ∧
      StoredAt s m p.args.dst.toNat (serialize s.cont) := by
  rw [execContSerialize_in hp h]
  exact putDest_in hcap (serialize_length hl) hwf

theorem execContFind_found (hp : s.pend = some p)
    (h : firstMatch (unpack4 p.args.type) p.args.index.toNat 0 s.cont = some i) :
    execContFind s = .next ({ s with resIndex := BitVec.ofNat 32 i, resFlags := foundFlags true } : State).succeeded := by
  unfold execContFind
  rw [withArgs_some hp, h]
  rfl

theorem execContFind_absent (hp : s.pend = some p)
    (h : firstMatch (unpack4 p.args.type) p.args.index.toNat 0 s.cont = none) :
    execContFind s =
      .next ({ s with resIndex := BitVec.ofNat 32 s.cont.length, resFlags := foundFlags false } : State).succeeded := by
  unfold execContFind
  rw [withArgs_some hp, h]
  rfl

theorem execContGet_out (hp : s.pend = some p) (h : s.cont.length ≤ p.args.index.toNat) :
    execContGet s = .next (s.failed 0x15#8 0#8 0#32) := by
  unfold execContGet
  rw [withArgs_some hp, List.getElem?_eq_none h]
  rfl

theorem execContGet_in (hp : s.pend = some p) (h : s.cont[p.args.index.toNat]? = some c) :
    execContGet s = .next ({ s with cr := some c } : State).succeeded := by
  unfold execContGet
  rw [withArgs_some hp, h]
  rfl

theorem execContAppend_none (hp : s.pend = some p) (hc : s.cr = none) :
    execContAppend s = .next (s.failed 0x14#8 0#8 0#32) := by
  unfold execContAppend
  rw [withArgs_some hp, needChunk_failed hc]

section
variable (hp : s.pend = some p) (hc : s.cr = some c)
include hp hc

/-- The chunk count is checked before the payload sum: STORE_BYTES is not asked (R199). -/
theorem execContAppend_tableFull (hfull : s.cont.length = s.params.maxChunks) :
    execContAppend s = .next (s.failed 0x12#8 3#8 0#32) := by
  unfold execContAppend
  rw [withArgs_some hp, needChunk_some hc, if_pos hfull]
  rfl

theorem execContAppend_storeFull (hroom : s.cont.length ≠ s.params.maxChunks)
    (hfull : s.params.storeBytes < storeUse s.cont + c.length.toNat) :
    execContAppend s = .next (s.failed 0x12#8 4#8 0#32) := by
  unfold execContAppend
  rw [withArgs_some hp, needChunk_some hc, if_neg hroom, if_pos hfull]
  rfl

theorem execContAppend_in (hroom : s.cont.length ≠ s.params.maxChunks)
    (hfits : storeUse s.cont + c.length.toNat ≤ s.params.storeBytes) :
    execContAppend s =
      .next ({ s with cont := s.cont ++ [c], resIndex := BitVec.ofNat 32 s.cont.length } : State).succeeded := by
  unfold execContAppend
  rw [withArgs_some hp, needChunk_some hc, if_neg hroom, if_neg (Nat.not_lt.2 hfits)]
  rfl

end

theorem execContRemoveFirst_absent (hp : s.pend = some p) (h : firstMatch (unpack4 p.args.type) 0 0 s.cont = none) :
    execContRemoveFirst s = .next (s.failed 0x05#8 0#8 0#32) := by
  unfold execContRemoveFirst
  rw [withArgs_some hp, h]
  rfl

theorem execContRemoveFirst_found (hp : s.pend = some p)
    (h : firstMatch (unpack4 p.args.type) 0 0 s.cont = some i) :
    execContRemoveFirst s =
      .next ({ s with cont := s.cont.take i ++ s.cont.drop (i + 1), resIndex := BitVec.ofNat 32 i } : State).succeeded := by
  unfold execContRemoveFirst
  rw [withArgs_some hp, h]
  rfl

theorem execContCount_some (hp : s.pend = some p) :
    execContCount s =
      .next ({ s with resIndex := BitVec.ofNat 32 s.cont.length,
                      resLen := BitVec.ofNat 32 (serLen s.cont) } : State).succeeded :=
  withArgs_some hp

end

/-! ### Parse, then serialize -/

section
variable {s t : State} {p : Pending} {b : List Byte} (hp : s.pend = some p) (h : SourceOk s p.args)
  (hd : Holds s p.args.src.toNat p.args.len.toNat b) (ht : execContParse s = .next t) (herr : t.err = 0#8)
include hp h hd ht herr

/-- CONT_PARSE without an error on written bytes has found the signature in front of them (R190). -/
theorem execContParse_accepted_signature : 8 ≤ p.args.len.toNat ∧ b.take 8 = signature := by
  have h8 : 8 ≤ p.args.len.toNat := by
    by_contra hshort
    rw [execContParse_short hp h (Nat.lt_of_not_le hshort)] at ht
    cases ht
    cases herr
  refine ⟨h8, by_contra fun hg => ?_⟩
  rw [execContParse_badSignature hp h h8 (hd.slice 0 8 (by omega)) hg] at ht
  cases ht
  cases herr

/-- CONT_PARSE without an error on written bytes: CONT holds well-formed chunks, and the bytes are its serialized form
(R190, R194). -/
theorem execContParse_accepted : (∀ c ∈ t.cont, Chunk.wf c) ∧ b = serialize t.cont := by
  obtain ⟨h8, hsig⟩ := execContParse_accepted_signature hp h hd ht herr
  have hhead : Holds s p.args.src.toNat 8 signature := hsig ▸ hd.slice 0 8 (by omega)
  have hrest : Holds s (p.args.src.toNat + 8) (p.args.len.toNat - 8) (b.drop 8) := by
    have hslice := hd.slice 8 (p.args.len.toNat - 8) (by omega)
    rwa [List.take_of_length_le (by simp [hd.length])] at hslice
  obtain ⟨r, s1, hloop⟩ :
      ∃ r s1, parseLoop p.args.len.toNat p.args.src.toNat p.args.len.toNat 8 0 [] s = (r, s1) := ⟨_, _, rfl⟩
  rw [execContParse_loop hp h h8 hhead, hloop] at ht
  cases r with
  | mismatch k off =>
    cases ht
    cases herr
  | fail e off =>
    have hcode : e.code ≠ 0#8 := by
      rcases parseLoop_fail hloop with he | rfl | rfl
      · rw [he]
        decide
      · decide
      · decide
    cases ht
    exact absurd herr hcode
  | ok l =>
    obtain ⟨-, -, hwf⟩ := parseLoop_ok hloop rfl (Nat.zero_le _) (Nat.zero_le _) (by simp)
    obtain ⟨-, _, rfl, hframes⟩ := parseLoop_ok_frames hrest hloop
    cases ht
    refine ⟨fun c hc => (hwf c hc).1, ?_⟩
    calc b = b.take 8 ++ b.drop 8 := (List.take_append_drop 8 b).symm
      _ = serialize l := by rw [hsig, hframes, serialize]

end

/-! ### The statements -/

/-- Settles O33: the bytes accepted are the serialized form of the list parsed (`execContParse_accepted`), which is what
CONT_SERIALIZE stores. -/
theorem containerRoundTrips : Obligations.ContainerRoundTrips := by
  unfold Obligations.ContainerRoundTrips
  intro s t u p q b hp hsrc hd ht herr hu hq hdst hbuf hcap
  obtain ⟨hwf, hb⟩ := execContParse_accepted hp hsrc hd ht herr
  rw [← hu] at hwf hb
  have hl : ∀ c ∈ u.cont, c.length.toNat = c.data.length := fun c hc => (hwf c hc).1
  have hlen : serLen u.cont = p.args.len.toNat := by rw [← serialize_length hl, ← hb, hd.length]
  obtain ⟨m, hm, hstored⟩ := execContSerialize_stored hq hdst (hlen ▸ hcap) hbuf hl
  exact ⟨_, hm, rfl, by simp [hlen], hb ▸ hstored⟩

/-- Settles O32: the two checks, and the store of the serialized container with everything it leaves alone. -/
theorem contSerializeResult : Obligations.ContSerializeResult := by
  unfold Obligations.ContSerializeResult
  exact ⟨decode_encode .contSerialize, fun s p hp => ⟨execContSerialize_out hp,
    fun h hcap => (execContSerialize_in hp h).trans (putDest_out hcap), execContSerialize_stored hp⟩⟩

/-- Settles O34: the two ends of the lookup (`firstMatch_eq_some`, `firstMatch_eq_none`). -/
theorem contFindResult : Obligations.ContFindResult := by
  unfold Obligations.ContFindResult
  exact ⟨decode_encode .contFind, fun s p hp =>
    ⟨fun i c hi hc hk hleast => execContFind_found hp (firstMatch_eq_some hi hc hk hleast),
      fun h => execContFind_absent hp (firstMatch_eq_none h)⟩⟩

/-- Settles O36: NO_CHUNK, the two capacity checks in their order, and the chunk appended. -/
theorem contAppendResult : Obligations.ContAppendResult := by
  unfold Obligations.ContAppendResult
  exact ⟨decode_encode .contAppend, fun s p hp => ⟨execContAppend_none hp, fun c hc =>
    ⟨execContAppend_tableFull hp hc, execContAppend_storeFull hp hc, execContAppend_in hp hc⟩⟩⟩

/-- Settles O37: the first match is at the number of the chunks before it (`firstMatch_append_cons`), and taking that
index out leaves them and the rest. -/
theorem contRemoveFirstResult : Obligations.ContRemoveFirstResult := by
  unfold Obligations.ContRemoveFirstResult
  refine ⟨decode_encode .contRemoveFirst, fun s p hp => ⟨fun h => ?_, fun l c r hcont hk hl => ?_⟩⟩
  · exact execContRemoveFirst_absent hp (firstMatch_eq_none fun j d _ hd => h d (List.mem_of_getElem? hd))
  · have hrest : s.cont.take l.length ++ s.cont.drop (l.length + 1) = l ++ r := by simp [hcont]
    calc exec .contRemoveFirst s = _ :=
          execContRemoveFirst_found hp (hcont ▸ firstMatch_append_cons (r := r) hk hl)
      _ = _ := by rw [hrest]

/-- Settles O35: the two ends of CONT_GET, by whether ARG_INDEX is the index of a chunk. -/
theorem contGetResult : Obligations.ContGetResult := by
  unfold Obligations.ContGetResult
  exact ⟨decode_encode .contGet, fun s p hp => ⟨execContGet_out hp, fun c hc => execContGet_in hp hc⟩⟩

/-- Settles O38: CONT_COUNT has one end, with the count and the serialized size. -/
theorem contCountResult : Obligations.ContCountResult := by
  unfold Obligations.ContCountResult
  exact ⟨decode_encode .contCount, fun s p hp => execContCount_some hp⟩

end Sys2Proof.Machine

/-! Precise errors (R236): what a command that ends in an error may have changed. -/

namespace Sys2Proof.Machine

section
variable {s t : State} {p : Pending} {i : Instr}

/-- A command that ends in an error has only read BUF and raised it, or has also put the recomputed checksum in RES_CRC
before raising CHECKSUM_MISMATCH; every other end of a command has STATUS.ERR 0 (R235, R236). -/
theorem CommandEnd.of_err_ne_zero (h : CommandEnd s p i t) (herr : t.err ≠ 0#8) :
    (∃ (e : CmdError) (off : Nat) (u : State), ReadsOnly s u ∧ t = u.finish e.code e.detail off) ∨
    ((i = .crcCheck ∨ i = .chunkParse ∨ i = .contParse) ∧ ∃ (v : Word) (off : Nat) (u : State), ReadsOnly s u ∧
      t = ({ u with resCrc := v } : State).finish 0x03#8 0#8 off) := by
  cases h with
  | raised _ e f n off _ hf hn => exact .inl ⟨e, off, _, ⟨f, n, rfl, hf, hn⟩, rfl⟩
  | mismatch _ f n v off hi hf hn => exact .inr ⟨hi, v, off, _, ⟨f, n, rfl, hf, hn⟩, rfl⟩
  | _ => exact absurd rfl herr

end

/-- Settles O40: neither of the two ways to end in an error (`CommandEnd.of_err_ne_zero`) writes a field listed but RES_CRC,
and only the mismatch writes that. -/
theorem errorsArePrecise : Obligations.ErrorsArePrecise := by
  unfold Obligations.ErrorsArePrecise
  intro i s p t hp h herr
  rcases (commandEnd_of_exec hp h).of_err_ne_zero herr with
    ⟨e, off, u, ⟨f, n, rfl, -, -⟩, rfl⟩ | ⟨hi, v, off, u, ⟨f, n, rfl, -, -⟩, rfl⟩
  · exact ⟨rfl, rfl, rfl, fun _ => rfl, rfl, rfl, rfl, rfl, .inl rfl⟩
  · exact ⟨rfl, rfl, rfl, fun _ => rfl, rfl, rfl, rfl, rfl, .inr ⟨rfl, hi⟩⟩

end Sys2Proof.Machine

/-! Host register writes (R32, R266 to R269): what the write of CMD, of any other register and of a reserved offset does. -/

namespace Sys2Proof.Machine

section
variable {s : State} {r : Reg}

/-- A write of CMD with nothing pending issues the word (R266). -/
theorem writeCmd_idle (hp : s.pend = none) (w : Word) : writeCmd w s = issue w s := by
  simp [writeCmd, State.busy, hp]

/-- A write of CMD with a command pending only sets OVR (R268). -/
theorem writeCmd_pending (hp : s.pend ≠ none) (w : Word) : writeCmd w s = { s with ovr := true } := by
  simp [writeCmd, State.busy, Option.isSome_iff_ne_none.mpr hp]

/-- The twenty registers stand at twenty offsets (R23). -/
theorem regAt_offset (r : Reg) : regAt r.offset = some r := by
  cases r <;> decide

/-- Every register can be written with a 32-bit access at its offset (R68). -/
theorem regAccessOk_offset (r : Reg) : regAccessOk r.offset 4 = true := by
  cases r <;> decide

/-- A write at the offset of CMD is the write of CMD (R32). -/
theorem hostWriteReg_cmd (s : State) (w : Word) : hostWriteReg Reg.cmd.offset 4 w s = writeCmd w s := by
  simp [hostWriteReg, regAccessOk_offset, regAt_offset]

/-- A write of a register other than CMD is at most a write of the ARG registers (R32, R269). -/
theorem hostWriteReg_of_ne_cmd (hr : r ≠ .cmd) (s : State) (v : Word) :
    hostWriteReg r.offset 4 v s = { s with args := writeArg r v s.args } := by
  rw [hostWriteReg, if_pos (regAccessOk_offset r), regAt_offset]
  cases r with
  | cmd => exact absurd rfl hr
  | _ => rfl

/-- A write of a reserved offset changes nothing (R32). -/
theorem hostWriteReg_reserved {o : Nat} (ha : o % 4 = 0) (hlo : 0x50 ≤ o) (hhi : o < 0x100) (s : State) (v : Word) :
    hostWriteReg o 4 v s = s := by
  rw [hostWriteReg, if_pos (regAccessOk_iff.mpr ⟨rfl, ha, hhi⟩), regAt_reserved hlo]

/-- The registers the host can only read (R23, access RO). -/
def readOnlyRegs : List Reg :=
  [.id, .status, .resLen, .resCrc, .resType, .resIndex, .resFlags, .errOffset, .capBuf, .capPayload, .capChunks, .capStore]

/-- A write of a read-only register changes nothing (R32). -/
theorem hostWriteReg_readOnly (hr : r ∈ readOnlyRegs) (s : State) (v : Word) : hostWriteReg r.offset 4 v s = s := by
  have hcmd : r ≠ .cmd := fun h => absurd (h ▸ hr) (by decide)
  have harg : writeArg r v s.args = s.args := by
    cases r with
    | argSrc | argLen | argDst | argCap | argType | argIndex | argCrc => exact absurd hr (by decide)
    | _ => rfl
  rw [hostWriteReg_of_ne_cmd hcmd, harg]

end

/-- Settles O49: the write reaches CMD (`hostWriteReg_cmd`), and its two ends are by whether a command is pending. -/
theorem cmdWriteIssuesOrIsDropped : Obligations.CmdWriteIssuesOrIsDropped := by
  unfold Obligations.CmdWriteIssuesOrIsDropped
  exact fun s w => ⟨fun hp => (hostWriteReg_cmd s w).trans (writeCmd_idle hp w),
    fun hp => (hostWriteReg_cmd s w).trans (writeCmd_pending hp w)⟩

/-- Settles O50: each ARG register by the one rule for registers other than CMD, then the read-only registers, whose
offsets the list names, and the reserved offsets. -/
theorem registerWrites : Obligations.RegisterWrites := by
  unfold Obligations.RegisterWrites
  intro s v
  have arg (r : Reg) (hr : r ≠ .cmd) := hostWriteReg_of_ne_cmd hr s v
  refine ⟨arg .argSrc (by decide), arg .argLen (by decide), arg .argDst (by decide), arg .argCap (by decide),
    arg .argType (by decide), arg .argIndex (by decide), arg .argCrc (by decide), fun o ho => ?_,
    fun o ha hlo hhi => hostWriteReg_reserved ha hlo hhi s v⟩
  obtain ⟨r, hr, rfl⟩ : ∃ r ∈ readOnlyRegs, r.offset = o := List.mem_map.mp ho
  exact hostWriteReg_readOnly hr s v

end Sys2Proof.Machine

/-! CONT_PARSE (R190, R191): the checks on the signature, the list of good frames, the first bad frame, and that legal
parameters leave no parse short of capacity. -/

namespace Sys2Proof.Machine

/-! ### Ends of the loop and of the command -/

section
variable {s t : State} {fuel a m off total : Nat} {list : List Chunk} (hm : off < m) (hfuel : m - off ≤ fuel)
include hm hfuel

/-- The loop ends at the first frame that fails, with that frame's error and offset (R190). -/
theorem parseLoop_of_fail {e : CmdError} (hf : parseFrame (a + off) (m - off) s = (.fail e, t)) :
    parseLoop fuel a m off total list s = (.fail e off, t) := by
  obtain ⟨fuel, rfl⟩ : ∃ n, fuel = n + 1 := ⟨fuel - 1, by omega⟩
  rw [parseLoop, if_neg (Nat.not_le.2 hm), hf]

/-- The loop ends at the first frame whose crc is wrong, with the recomputed checksum and that frame's offset (R190). -/
theorem parseLoop_of_mismatch {k : Word} (hf : parseFrame (a + off) (m - off) s = (.mismatch k, t)) :
    parseLoop fuel a m off total list s = (.mismatch k off, t) := by
  obtain ⟨fuel, rfl⟩ : ∃ n, fuel = n + 1 := ⟨fuel - 1, by omega⟩
  rw [parseLoop, if_neg (Nat.not_le.2 hm), hf]

end

/-- A list serialized in BUF is the signature there and the frames after it (R87, R192). -/
theorem holds_serialize_parts {s : State} {a n : Nat} {l : List Chunk} (h : Holds s a n (serialize l)) :
    8 ≤ n ∧ Holds s a 8 signature ∧ Holds s (a + 8) (n - 8) (l.flatMap frame) := by
  have hsig : signature.length = 8 := rfl
  have hlen := h.length
  rw [serialize, List.length_append, hsig] at hlen
  have hhead := h.slice 0 8 (by omega)
  have htail := h.slice 8 (n - 8) (by omega)
  rw [serialize, ← hsig, List.drop_left, List.take_of_length_le (by omega)] at htail
  exact ⟨by omega, by simpa [serialize, signature] using hhead, htail⟩

theorem execContParse_out {s : State} {p : Pending} (hp : s.pend = some p) (h : ¬ SourceOk s p.args) :
    execContParse s = .next (s.failed 0x11#8 1#8 0#32) := by
  unfold execContParse
  rw [withArgs_some hp, withSource_failed h]

section
variable {s : State} {p : Pending} (hp : s.pend = some p) (h : SourceOk s p.args) (h8 : 8 ≤ p.args.len.toNat)
  (hsig : Holds s p.args.src.toNat 8 signature)
include hp h h8 hsig

/-- An error of the loop is CONT_PARSE's own, at the loop's offset (R190). -/
theorem execContParse_fail {e : CmdError} {off : Nat}
    (hloop : parseLoop p.args.len.toNat p.args.src.toNat p.args.len.toNat 8 0 [] s = (.fail e off, s)) :
    execContParse s = .next (s.failed e.code e.detail (BitVec.ofNat 32 off)) := by
  rw [execContParse_loop hp h h8 hsig, hloop]
  rfl

/-- A mismatch found by the loop leaves the recomputed checksum in RES_CRC (R190, R236). -/
theorem execContParse_mismatch {k : Word} {off : Nat}
    (hloop : parseLoop p.args.len.toNat p.args.src.toNat p.args.len.toNat 8 0 [] s = (.mismatch k off, s)) :
    execContParse s = .next (({ s with resCrc := k } : State).failed 0x03#8 0#8 (BitVec.ofNat 32 off)) := by
  rw [execContParse_loop hp h h8 hsig, hloop]
  rfl

theorem execContParse_ok {l : List Chunk}
    (hloop : parseLoop p.args.len.toNat p.args.src.toNat p.args.len.toNat 8 0 [] s = (.ok l, s)) :
    execContParse s =
      .next ({ s with cont := l, resIndex := BitVec.ofNat 32 l.length, resLen := p.args.len } : State).succeeded := by
  rw [execContParse_loop hp h h8 hsig, hloop]
  rfl

end

/-! ### Good frames from the signature on -/

/-- Good frames after the signature pass through the loop; what decides is what stands after them (R190). -/
theorem parseLoop_after_serialize {s : State} {a m : Nat} {l : List Chunk} (hlegal : s.params.legal)
    (hbuf : m ≤ s.params.bufBytes) (hwf : ∀ c ∈ l, Chunk.wf c) (hm : serLen l < m)
    (hd : Holds s a (serLen l) (serialize l)) :
    ∃ fuel total list, m - serLen l ≤ fuel ∧
      parseLoop m a m 8 0 [] s = parseLoop fuel a m (serLen l) total list s := by
  obtain ⟨hcount, hstore⟩ := fits_of_legal hlegal (l := l) (by omega)
  have hoff : serLen l = 8 + (l.map frameLen).sum := rfl
  obtain ⟨-, -, hframes⟩ := holds_serialize_parts hd
  rw [hoff, Nat.add_sub_cancel_left] at hframes
  obtain ⟨fuel, hfuel, hloop⟩ := parseLoop_prefix (m := m) (fuel := m) (total := 0) (list := []) l hwf hframes (by omega)
    (by omega) (by simpa using hcount) (by simpa using hstore)
  exact ⟨fuel, _, _, hfuel, hloop⟩

/-! ### Capacity -/

/-- Under legal parameters the loop over a buffer that lies in BUF ends in no CAPACITY error: the frames parsed so far and
the next one lie in the buffer, so they fit CONT (`fits_of_legal`). -/
theorem parseLoop_fail_of_legal {fuel a m off total off' : Nat} {list : List Chunk} {e : CmdError} {s t : State}
    (h : parseLoop fuel a m off total list s = (.fail e off', t)) (hlegal : s.params.legal)
    (hbuf : m ≤ s.params.bufBytes) (hoff : off = serLen list) (htotal : total = storeUse list) : e.code = 0x02#8 := by
  induction fuel generalizing off total list s with
  | zero =>
    unfold parseLoop at h
    split at h
    · cases h
    · cases h
      rfl
  | succ fuel ih =>
    unfold parseLoop at h
    split at h
    · cases h
    rename_i hm
    have hread := parseFrame_readsOnly (a + off) (m - off) s
    simp only at h
    split at h
    · cases h
    · rename_i hf
      cases h
      rcases parseFrame_fail hf with rfl | rfl <;> rfl
    · rename_i c n s1 hf
      rw [hf] at hread
      obtain ⟨f, k, rfl, -, -⟩ := hread
      obtain ⟨-, rfl, hn⟩ := parseFrame_ok hf
      have hnext : off + frameLen c = serLen (list ++ [c]) := by simp [hoff, serLen, Nat.add_assoc]
      have hsum : total + c.length.toNat = storeUse (list ++ [c]) := by
        rw [storeUse_append, storeUse_single, htotal]
      obtain ⟨hcount, hstore⟩ := fits_of_legal hlegal (l := list ++ [c]) (by omega)
      rw [List.length_append, List.length_singleton] at hcount
      split at h
      · omega
      · split at h
        · omega
        · exact ih h hlegal hbuf hnext hsum

theorem finish_err_ne {s : State} {code other detail : Byte} {off : Nat} (h : code ≠ other) :
    (s.finish code detail off).err ≠ other := h

/-- CONT_PARSE under legal parameters never ends in CAPACITY (R190, R6). -/
theorem execContParse_not_capacity {s : State} {p : Pending} (hp : s.pend = some p) (hlegal : s.params.legal) :
    Post (fun t => t.err ≠ 0x12#8) (execContParse s) := by
  unfold execContParse
  rw [withArgs_some hp]
  refine post_withSource (fun _ => finish_err_ne (by decide)) fun hb => ?_
  split
  · exact post_raise (finish_err_ne (by decide))
  obtain ⟨f, n, hs, -, -⟩ := memRead_readsOnly p.args.src.toNat 8 s
  simp only [hs]
  split
  · exact post_raise (finish_err_ne (by decide))
  split
  · exact post_raise (finish_err_ne (by decide))
  · rename_i e off s2 hloop
    have hcode : e.code = 0x02#8 := parseLoop_fail_of_legal hloop hlegal (by simp only; omega) rfl rfl
    exact post_raise (by simp [hcode])
  · exact post_complete (finish_err_ne (by decide))

/-- CHUNK_PARSE under legal parameters never ends in CAPACITY, and the chunk it loads fits CR: its frame lies in BUF
(R151, R6). -/
theorem execChunkParse_fits {s : State} {p : Pending} (hp : s.pend = some p) (hlegal : s.params.legal) :
    Post (fun t => t.err ≠ 0x12#8 ∧ ∀ c, s.cr ≠ t.cr → t.cr = some c → c.length.toNat ≤ s.params.maxPayload)
      (execChunkParse s) := by
  refine execChunkParse_post hp ⟨finish_err_ne (by decide), fun c hne => absurd rfl hne⟩ (fun e he f n _ _ => ?_)
    (fun f n k _ _ => ⟨finish_err_ne (by decide), fun c hne => absurd rfl hne⟩) fun f n c _ _ _ hframe => ?_
  · exact ⟨by simp [he], fun c hne => absurd rfl hne⟩
  · refine ⟨finish_err_ne (by decide), fun d _ hd => ?_⟩
    obtain rfl : c = d := Option.some.inj hd
    obtain ⟨-, ⟨hmax, -⟩, -⟩ := hlegal
    unfold frameLen at hframe
    omega

/-- What every end of a command satisfies, its next state satisfies. -/
theorem Post.of_next {P : State → Prop} {o : Out} {t : State} (h : Post P o) (ho : o = .next t) : P t := by
  obtain ⟨u, hu, hP⟩ := h
  rw [ho] at hu
  cases hu
  exact hP

/-! ### The statements -/

/-- Settles O30: the bytes are the serialized list, the loop gives the list back (`parseLoop_frames`), and legal parameters
leave room for it (`fits_of_legal`). -/
theorem contParseGivesTheList : Obligations.ContParseGivesTheList := by
  unfold Obligations.ContParseGivesTheList
  intro s p l hp hlegal h hwf hd
  have hd : Holds s p.args.src.toNat p.args.len.toNat (serialize l) := hd
  obtain ⟨h8, hsig, hframes⟩ := holds_serialize_parts hd
  have hlen : serLen l = p.args.len.toNat := by
    rw [← serialize_length fun c hc => (hwf c hc).1, hd.length]
  obtain ⟨hcount, hstore⟩ := fits_of_legal hlegal (l := l) (by omega)
  refine execContParse_ok hp h h8 hsig ?_
  exact parseLoop_frames l hframes h8 (by omega) hwf (by simpa using hcount) (by simpa using hstore)

/-- Settles O31: the good frames pass through the loop (`parseLoop_after_serialize`), and each clause is one way the frame
parser fails on what stands after them. -/
theorem contParseReportsTheFirstBadFrame : Obligations.ContParseReportsTheFirstBadFrame := by
  unfold Obligations.ContParseReportsTheFirstBadFrame
  rintro s p l off hp hlegal h hwf rfl hoff hd
  obtain ⟨h8, hsig, -⟩ := holds_serialize_parts hd
  obtain ⟨fuel, total, list, hfuel, hloop⟩ := parseLoop_after_serialize hlegal (by omega) hwf hoff hd
  have h8 : 8 ≤ p.args.len.toNat := by omega
  refine ⟨fun hshort => ?_, fun n h12 hn hlong => ?_, fun c hl hfit hframe hcrc => ?_⟩
  · have hf := parseFrame_short (a := p.args.src.toNat + serLen l) (m := p.args.len.toNat - serLen l) (s := s) (by omega)
    exact execContParse_fail hp h h8 hsig (hloop.trans (parseLoop_of_fail hoff hfuel hf))
  · have hf := parseFrame_long (m := p.args.len.toNat - serLen l) (by omega) hn (by omega)
    exact execContParse_fail hp h h8 hsig (hloop.trans (parseLoop_of_fail hoff hfuel hf))
  · have hf := parseFrame_frame (m := p.args.len.toNat - serLen l) hframe hl (by omega)
    rw [if_neg hcrc.symm] at hf
    exact execContParse_mismatch hp h h8 hsig (hloop.trans (parseLoop_of_mismatch hoff hfuel hf))

/-- Settles O39: neither parse ends in CAPACITY (`execChunkParse_fits`, `execContParse_not_capacity`). -/
theorem parsesNeverRunOutOfCapacity : Obligations.ParsesNeverRunOutOfCapacity := by
  unfold Obligations.ParsesNeverRunOutOfCapacity
  exact fun s p hp hlegal => ⟨fun t ht => (execChunkParse_fits hp hlegal).of_next ht,
    fun t ht => (execContParse_not_capacity hp hlegal).of_next ht⟩

/-- Settles O29: the range, the eight bytes and the signature in their order. -/
theorem contParseChecksTheSignature : Obligations.ContParseChecksTheSignature := by
  unfold Obligations.ContParseChecksTheSignature
  exact ⟨decode_encode .contParse, fun s p hp => ⟨execContParse_out hp, execContParse_short hp,
    fun g h h8 hd hg => execContParse_badSignature hp h h8 hd hg⟩⟩

end Sys2Proof.Machine

/-! What a host step and a command can do to the state, and what every step therefore keeps: the invariant, the model
faults, the parameters (R43, R46, R62, R244, R260 to R270). -/

namespace Sys2Proof.Machine

/-! ### Everything a host step can do -/

/-- The states a host step can end in, started in `s`. -/
inductive HostEnd (s : State) : State → Prop where
  /-- Accesses that change nothing the block holds: the host sees more, or plans other steps. -/
  | observed (f : Recorded) (n : Nat) (l : List Seen) (q : List HostOp) (hf : Recorded.le s.faults f) :
      HostEnd s { s with faults := f, draws := n, seen := l, script := q }
  | argsWritten (x : Args) : HostEnd s { s with args := x }
  | issued (w : Word) : HostEnd s (issue w s)
  | overrun : HostEnd s { s with ovr := true }
  | byteWritten (f : Recorded) (n a : Nat) (v : Byte) (hf : Recorded.le s.faults f) (ha : a < s.params.bufBytes) :
      HostEnd s { s with faults := f, draws := n, buf := Memory.write s.buf a v }
  | reset (m : Memory) (hm : m.Sublist s.buf) : HostEnd s (keptByReset s m)

section
variable (s : State)

theorem HostEnd.unchanged : HostEnd s s := .observed s.faults s.draws s.seen s.script (Recorded.le_refl _)

theorem HostEnd.recorded (f : Fault) : HostEnd s (s.record f) :=
  .observed _ s.draws s.seen s.script (Recorded.le_add _ f)

theorem hostWriteReg_ends (o w : Nat) (v : Word) : HostEnd s (hostWriteReg o w v s) := by
  unfold hostWriteReg
  split
  · split
    · by_cases hp : s.pend = none
      · rw [writeCmd_idle hp]
        exact .issued v
      · rw [writeCmd_pending hp]
        exact .overrun
    · exact .argsWritten _
    · exact .unchanged s
  · exact .recorded s .hostAccess

theorem hostReadBuf_ends (a w : Nat) : HostEnd s (hostReadBuf a w s) := by
  unfold hostReadBuf
  split
  · dsimp only
    split
    · exact .observed _ _ _ _ (Recorded.le_add _ .uninitRead)
    · split
      · exact .observed _ _ _ _ (Recorded.le_refl _)
      · exact .observed _ _ _ _ (Recorded.le_refl _)
  · exact .recorded s .hostAccess

theorem hostWriteBuf_ends (a w : Nat) (v : Byte) : HostEnd s (hostWriteBuf a w v s) := by
  unfold hostWriteBuf
  split
  · have ha : a < s.params.bufBytes := (bufAccessOk_iff.1 ‹_›).2
    split
    · exact .byteWritten _ _ a _ (Recorded.le_add _ .hostHazard) ha
    · exact .byteWritten _ s.draws a v (Recorded.le_refl _) ha
  · exact .recorded s .hostAccess

/-- A register read shows the host a value at most, whatever the host then plans. -/
theorem hostReadReg_planned (o w : Nat) (q : List HostOp) : HostEnd s { hostReadReg o w s with script := q } := by
  obtain ⟨f, n, l, h, hf⟩ := hostReadReg_frame o w s
  rw [h]
  exact .observed f n l q hf

theorem hostReadReg_ends (o w : Nat) : HostEnd s (hostReadReg o w s) := by
  obtain ⟨f, n, l, h, hf⟩ := hostReadReg_frame o w s
  rw [h]
  exact .observed f n l s.script hf

/-- A host step ends in a state of `HostEnd`. -/
theorem hostOp_ends (o : HostOp) : HostEnd s (hostOp o s) := by
  cases o with
  | readReg o w => exact hostReadReg_ends s o w
  | writeReg o w v => exact hostWriteReg_ends s o w v
  | readBuf a w => exact hostReadBuf_ends s a w
  | writeBuf a w v => exact hostWriteBuf_ends s a w v
  | reset => exact .reset _ List.filter_sublist
  | powerOn => exact .reset [] (List.nil_sublist _)
  | wait | findAllTest key =>
    simp only [hostOp]
    split
    · exact hostReadReg_planned s _ 4 _
    · exact hostReadReg_ends s _ 4
  | removeAllTest key =>
    simp only [hostOp]
    split
    · exact hostReadReg_ends s _ 4
    · exact hostReadReg_planned s _ 4 _
  | findAllYield key =>
    obtain ⟨f, n, l, h, hf⟩ := hostReadReg_frame Reg.resIndex.offset 4 s
    simp only [hostOp, h]
    exact .observed f n _ _ hf

/-- The host's turn ends in a state of `HostEnd`, but for the script's head. -/
theorem hostTurn_ends : ∃ q, HostEnd { s with script := q } (hostTurn s) := by
  cases hs : s.script with
  | nil =>
    rw [hostTurn, hs]
    exact ⟨s.script, .unchanged s⟩
  | cons o q =>
    rw [hostTurn, hs]
    exact ⟨q, hostOp_ends _ o⟩

end

/-! ### Everything a step can do -/

/-- A step uses up at most the turn listed next; then the host takes its turn, or the block performs its command, reports an
illegal word, or has nothing to do (R20, R81). -/
inductive StepEnd (s : State) : State → Prop where
  | host (r : List Agent) (q : List HostOp) (t : State) (h : HostEnd { s with turns := r, script := q } t) : StepEnd s t
  | command (r : List Agent) (p : Pending) (i : Instr) (t : State) (hp : s.pend = some p)
      (h : CommandEnd { s with turns := r } p i t) : StepEnd s t
  | illegal (r : List Agent) (e : CmdError) : StepEnd s (({ s with turns := r } : State).finish e.code e.detail 0)
  | idle (r : List Agent) : StepEnd s { s with turns := r }

/-- Taking a turn changes the list of turns alone. -/
theorem takeTurn_state (s : State) : ∃ r, (takeTurn s).2 = { s with turns := r } := by
  unfold takeTurn
  split
  · exact ⟨_, rfl⟩
  · exact ⟨s.turns, rfl⟩

theorem blockTurn_stepEnd (s : State) (r : List Agent) :
    ∃ t, blockTurn { s with turns := r } = .next t ∧ StepEnd s t := by
  rcases Option.eq_none_or_eq_some s.pend with hp | ⟨p, hp⟩
  · refine ⟨{ s with turns := r }, ?_, .idle r⟩
    simp only [blockTurn, hp]
  · cases hd : decode p.cmd with
    | ok i =>
      obtain ⟨t, ht, hend⟩ := exec_ends (s := { s with turns := r }) hp i
      exact ⟨t, (blockTurn_decoded (s := { s with turns := r }) hp hd).trans ht, .command r p i t hp hend⟩
    | error e =>
      refine ⟨_, ?_, .illegal r (illegalCommand e)⟩
      simp only [blockTurn, hp, hd]
      rfl

/-- Every step answers a next state, one of `StepEnd`. -/
theorem step_ends (s : State) : ∃ t, step s = .next t ∧ StepEnd s t := by
  obtain ⟨r, hr⟩ := takeTurn_state s
  unfold step
  split
  · rename_i s1 h
    rw [h] at hr
    obtain rfl : s1 = { s with turns := r } := hr
    obtain ⟨q, hq⟩ := hostTurn_ends { s with turns := r }
    exact ⟨_, rfl, .host r q _ hq⟩
  · rename_i s1 h
    rw [h] at hr
    obtain rfl : s1 = { s with turns := r } := hr
    exact blockTurn_stepEnd s r

/-- What `step_ends` says of a given next state. -/
theorem stepEnd_of_step {s t : State} (h : step s = .next t) : StepEnd s t := by
  obtain ⟨u, hu, hend⟩ := step_ends s
  rw [h] at hu
  cases hu
  exact hend

/-- Settles O7: `step_ends`. -/
theorem everyStepAnswersANextState : Obligations.EveryStepAnswersANextState := by
  unfold Obligations.EveryStepAnswersANextState
  exact fun s => let ⟨t, ht, _⟩ := step_ends s; ⟨t, ht⟩

/-! ### Every command completes -/

/-- A code and detail that STATUS may hold: 0 and 0, or those of one listed error (R230, R231, R235). -/
def Listed (code detail : Byte) : Prop :=
  (code = 0#8 ∧ detail = 0#8) ∨ ∃ e : CmdError, code = e.code ∧ detail = e.detail

theorem listed_zero : Listed 0#8 0#8 := .inl ⟨rfl, rfl⟩

theorem listed_error (e : CmdError) : Listed e.code e.detail := .inr ⟨e, rfl, rfl⟩

/-- However a command ends, it has completed, with no error or a listed one (R233 to R235). -/
theorem CommandEnd.completed {s t : State} {p : Pending} {i : Instr} (h : CommandEnd s p i t) :
    t.pend = none ∧ t.done = true ∧ Listed t.err t.errDetail := by
  cases h with
  | raised _ e => exact ⟨rfl, rfl, listed_error e⟩
  | mismatch => exact ⟨rfl, rfl, listed_error .checksumMismatch⟩
  | _ => exact ⟨rfl, rfl, listed_zero⟩

/-- Settles O6: every command ends (`exec_ends`), and every end is a completion (`CommandEnd.completed`). -/
theorem everyCommandCompletes : Obligations.EveryCommandCompletes := by
  unfold Obligations.EveryCommandCompletes
  intro i s p hp
  obtain ⟨t, ht, hend⟩ := exec_ends hp i
  exact ⟨t, ht, hend.completed⟩

/-! ### The invariant -/

section
variable {s u : State} (h : State.Inv s)
include h

/-- A completion of a state that agrees with `s` where the invariant looks keeps it. -/
theorem State.Inv.completed {code detail : Byte} (off : Nat) (hlisted : Listed code detail)
    (hparams : u.params = s.params := by rfl) (hbuf : u.buf = s.buf := by rfl) (hcr : u.cr = s.cr := by rfl)
    (hcont : u.cont = s.cont := by rfl) (hflags : u.resFlags = s.resFlags := by rfl) :
    State.Inv (u.finish code detail off) :=
  (h.finish code detail off hlisted).congr hparams hbuf hcr hcont rfl rfl rfl rfl hflags

theorem State.Inv.withFlags {v : Word} (hv : v.toNat < 256) : State.Inv { s with resFlags := v } :=
  { h with flagsReserved := hv }

theorem State.Inv.withChunk {c : Chunk} (hc : Chunk.wf c ∧ c.length.toNat ≤ s.params.maxPayload) :
    State.Inv { s with cr := some c } :=
  { h with chunkHeld := fun _ hd => Option.some.inj hd ▸ hc }

theorem State.Inv.withCont {l : List Chunk} (hheld : ∀ c ∈ l, Chunk.wf c ∧ c.length.toNat ≤ s.params.maxPayload)
    (hcount : l.length ≤ s.params.maxChunks) (hstore : storeUse l ≤ s.params.storeBytes) :
    State.Inv { s with cont := l } :=
  { h with contHeld := hheld, contCount := hcount, contStore := hstore }

theorem State.Inv.withBuf {m : Memory} (hwf : Memory.wf m) (hin : ∀ c ∈ m, c.1 < s.params.bufBytes) :
    State.Inv { s with buf := m } :=
  { h with bufCanonical := hwf, bufInside := hin }

end

/-- A frame that fits BUF has a payload that fits CR (R6, R151). -/
theorem payload_fits_of_frame {p : Params} (h : p.legal) {c : Chunk} (hc : frameLen c ≤ p.bufBytes) :
    c.length.toNat ≤ p.maxPayload := by
  obtain ⟨-, ⟨hmax, -⟩, -⟩ := h
  unfold frameLen at hc
  omega

/-- Taking chunks out of a list makes its payload sum no larger. -/
theorem storeUse_sublist {l l' : List Chunk} (h : l.Sublist l') : storeUse l ≤ storeUse l' :=
  (h.map _).sum_le_sum fun _ _ => Nat.zero_le _

/-- Taking one element out leaves a sublist. -/
theorem take_append_drop_sublist (l : List Chunk) (i : Nat) : (l.take i ++ l.drop (i + 1)).Sublist l := by
  conv => rhs; rw [← List.take_append_drop i l]
  exact (List.Sublist.refl _).append (List.drop_sublist_drop_left l (Nat.le_succ i))

/-- However a command ends, it keeps the invariant. -/
theorem CommandEnd.inv {s t : State} {p : Pending} {i : Instr} (hend : CommandEnd s p i t) (h : State.Inv s) :
    State.Inv t := by
  cases hend with
  | raised _ e _ _ off => exact h.completed off (listed_error e)
  | mismatch _ _ _ _ off => exact h.completed off (listed_error .checksumMismatch)
  | crc | typeLoaded | typeRead | chunkType | chunkInfo | counted => exact h.completed 0 listed_zero
  | flagged _ v _ hv => exact (h.withFlags hv).completed 0 listed_zero
  | searched v found => exact (h.withFlags (foundFlags_lt found)).completed 0 listed_zero
  | stored _ n v _ hb hc =>
    refine (h.withBuf (Memory.writeAll_wf (v.take n) _ p.args.dst.toNat h.bufCanonical) fun c hmem => ?_).completed 0
      listed_zero
    rcases Memory.mem_writeAll hmem with ⟨-, hlt⟩ | hold
    · rw [List.length_take] at hlt
      omega
    · exact h.bufInside c hold
  | chunkLoaded _ _ _ _ c _ _ _ hw hl =>
    have hfits : c.length.toNat ≤ s.params.maxPayload := hl.elim id (payload_fits_of_frame h.paramsLegal)
    exact (h.withChunk ⟨hw, hfits⟩).completed 0 listed_zero
  | contLoaded _ _ l _ _ hc hs hw =>
    have hheld (c : Chunk) (hcl : c ∈ l) : Chunk.wf c ∧ c.length.toNat ≤ s.params.maxPayload :=
      ⟨(hw c hcl).1, payload_fits_of_frame h.paramsLegal (hw c hcl).2⟩
    exact (h.withCont hheld hc hs).completed 0 listed_zero
  | chunkCopied c hc => exact (h.withChunk (h.contHeld c hc)).completed 0 listed_zero
  | appended c hc hl hs =>
    have hheld (d : Chunk) (hd : d ∈ s.cont ++ [c]) : Chunk.wf d ∧ d.length.toNat ≤ s.params.maxPayload := by
      rcases List.mem_append.1 hd with hd | hd
      · exact h.contHeld d hd
      · exact List.mem_singleton.1 hd ▸ h.chunkHeld c hc
    have hcount : (s.cont ++ [c]).length ≤ s.params.maxChunks := by
      have := h.contCount
      rw [List.length_append, List.length_singleton]
      omega
    have hstore : storeUse (s.cont ++ [c]) ≤ s.params.storeBytes := by
      rwa [storeUse_append, storeUse_single]
    exact (h.withCont hheld hcount hstore).completed 0 listed_zero
  | removed i =>
    have hsub := take_append_drop_sublist s.cont i
    exact (h.withCont (fun c hc => h.contHeld c (hsub.subset hc)) (hsub.length_le.trans h.contCount)
      ((storeUse_sublist hsub).trans h.contStore)).completed 0 listed_zero

/-- A fresh power-on meets the invariant with any memory that does (R262). -/
theorem inv_keptByReset {s : State} {m : Memory} (hlegal : s.params.legal) (hwf : Memory.wf m)
    (hin : ∀ c ∈ m, c.1 < s.params.bufBytes) : State.Inv (keptByReset s m) :=
  { paramsLegal := hlegal, bufCanonical := hwf, bufInside := hin
    chunkHeld := fun _ hc => nomatch hc
    contHeld := fun _ hc => nomatch hc
    contCount := Nat.zero_le _
    contStore := Nat.zero_le _
    pendingClear := fun hp => nomatch hp
    errorListed := listed_zero
    flagsReserved := Nat.zero_lt_succ 255 }

/-- However a host step ends, it keeps the invariant. -/
theorem HostEnd.inv {s t : State} (hend : HostEnd s t) (h : State.Inv s) : State.Inv t := by
  cases hend with
  | observed | argsWritten | overrun => exact h.congr rfl rfl rfl rfl rfl rfl rfl rfl rfl
  | issued w =>
    exact { h with pendingClear := fun _ => ⟨rfl, rfl, rfl⟩, errorListed := listed_zero }
  | byteWritten f n a v _ ha =>
    have hbuf := h.withBuf (Memory.write_wf _ a v h.bufCanonical) fun c hmem => by
      rcases Memory.mem_write hmem with rfl | hold
      · exact ha
      · exact h.bufInside c hold
    exact hbuf.congr rfl rfl rfl rfl rfl rfl rfl rfl rfl
  | reset m hm =>
    exact inv_keptByReset h.paramsLegal (h.bufCanonical.sublist hm) fun c hc => h.bufInside c (hm.subset hc)

/-- Settles O45: a step is one of `StepEnd`, and the host's ends and the commands' ends each keep the invariant. -/
theorem stepKeepsTheInvariant : Obligations.StepKeepsTheInvariant := by
  unfold Obligations.StepKeepsTheInvariant
  intro s t h hstep
  have same (r : List Agent) (q : List HostOp) : State.Inv { s with turns := r, script := q } :=
    h.congr rfl rfl rfl rfl rfl rfl rfl rfl rfl
  cases stepEnd_of_step hstep with
  | host r q _ hend => exact hend.inv (same r q)
  | command r p i _ _ hend => exact hend.inv (same r s.script)
  | illegal r e => exact h.completed 0 (listed_error e)
  | idle r => exact same r s.script

/-- Settles O46: a power-on holds nothing, and the vector defaults meet the constraints of R6. -/
theorem resetMeetsTheInvariant : Obligations.ResetMeetsTheInvariant := by
  unfold Obligations.ResetMeetsTheInvariant
  have fresh (p : Params) (hp : p.legal) : State.Inv (State.powerOn p) :=
    inv_keptByReset (s := State.powerOn p) (m := []) hp List.Pairwise.nil fun _ hc => nomatch hc
  exact ⟨fresh Params.vectorDefaults (by decide), fresh⟩

/-! ### Faults and parameters -/

theorem CommandEnd.faults_params {s t : State} {p : Pending} {i : Instr} (h : CommandEnd s p i t) :
    Recorded.le s.faults t.faults ∧ t.params = s.params := by
  cases h with
  | raised _ _ _ _ _ _ hf | mismatch _ _ _ _ _ _ hf | crc _ _ _ _ _ hf | typeLoaded _ _ _ _ _ hf
  | chunkLoaded _ _ _ _ _ _ hf | contLoaded _ _ _ hf => exact ⟨hf, rfl⟩
  | _ => exact ⟨Recorded.le_refl _, rfl⟩

theorem HostEnd.faults_params {s t : State} (h : HostEnd s t) : Recorded.le s.faults t.faults ∧ t.params = s.params := by
  cases h with
  | observed _ _ _ _ hf | byteWritten _ _ _ _ hf => exact ⟨hf, rfl⟩
  | _ => exact ⟨Recorded.le_refl _, rfl⟩

/-- Settles O47: of the ways a step can end, those that read or access may record a fault, and none clears one. -/
theorem faultsAndParametersAreKept : Obligations.FaultsAndParametersAreKept := by
  unfold Obligations.FaultsAndParametersAreKept
  intro s t hstep
  cases stepEnd_of_step hstep with
  | host r q _ hend => exact hend.faults_params
  | command r p i _ _ hend => exact hend.faults_params
  | illegal r e => exact ⟨Recorded.le_refl _, rfl⟩
  | idle r => exact ⟨Recorded.le_refl _, rfl⟩

/-! ### A pending command ends -/

/-- A host step lists no turns. -/
theorem HostEnd.turns {s t : State} (h : HostEnd s t) : t.turns = s.turns := by
  cases h <;> rfl

/-- Settles O58: by induction on the turns listed. The block's turn, listed or by default, ends the command; a host's turn
either ends it (a reset) or leaves a command pending and one turn less. -/
theorem pendingCommandEnds : Obligations.PendingCommandEnds := by
  unfold Obligations.PendingCommandEnds
  intro s p hp
  have one {u v : State} (h : step u = .next v) : Host.Core.run Sys2Proof.core 1 u = .next v :=
    run_succ Sys2Proof.core 0 h
  induction hturns : s.turns generalizing s p with
  | nil =>
    obtain ⟨t, ht, hdone⟩ := blockTurn_ends hp
    exact ⟨1, t, by simp, one ((step_block hp hturns).trans ht), hdone⟩
  | cons agent r ih =>
    cases agent with
    | block =>
      obtain ⟨t, ht, hdone⟩ := blockTurn_ends (s := { s with turns := r }) hp
      exact ⟨1, t, by simp, one ((step_listed_block hturns).trans ht), hdone⟩
    | host =>
      have hstep := step_listed_host hturns
      obtain ⟨q, hend⟩ := hostTurn_ends { s with turns := r }
      cases hpend : (hostTurn { s with turns := r }).pend with
      | none => exact ⟨1, _, by simp, one hstep, hpend⟩
      | some p' =>
        obtain ⟨k, t, hk, hrun, hdone⟩ := ih _ p' hpend hend.turns
        exact ⟨k + 1, t, by simpa using hk, (run_succ Sys2Proof.core k hstep).trans hrun, hdone⟩

end Sys2Proof.Machine

/-! What a step cannot see: BUF outside a command's source range (R67, R163), and where the platform places the two spaces
(R72). -/

namespace Sys2Proof.Machine

/-! ### The same state over another memory and placement -/

/-- The same state with BUF `m`, on a platform that places the two spaces elsewhere. -/
def State.over (s : State) (m : Memory) (a b : Nat) : State := { s.placedAt a b with buf := m }

section
variable (s : State) (m : Memory) (a b : Nat)

@[simp] theorem over_buf : (s.over m a b).buf = m := rfl
@[simp] theorem over_cont : (s.over m a b).cont = s.cont := rfl
@[simp] theorem over_maxPayload : (s.over m a b).params.maxPayload = s.params.maxPayload := rfl
@[simp] theorem over_maxChunks : (s.over m a b).params.maxChunks = s.params.maxChunks := rfl
@[simp] theorem over_storeBytes : (s.over m a b).params.storeBytes = s.params.storeBytes := rfl

end

/-- The two memories agree on the n cells from an address up. -/
def Agree (m m' : Memory) (x n : Nat) : Prop := ∀ y, x ≤ y → y < x + n → Memory.read m y = Memory.read m' y

theorem Agree.mono {m m' : Memory} {x n x' n' : Nat} (h : Agree m m' x n) (hlo : x ≤ x') (hhi : x' + n' ≤ x + n) :
    Agree m m' x' n' := fun y h1 h2 => h y (by omega) (by omega)

section
variable {s : State} {m : Memory} (a b : Nat)

/-- A read of cells on which the memories agree answers the same (R63). -/
theorem memRead_over {x n : Nat} (h : Agree m s.buf x n) :
    memRead x n (s.over m a b) = ((memRead x n s).1, (memRead x n s).2.over m a b) := by
  have hcells : Memory.readAll m x n = Memory.readAll s.buf x n := Memory.readAll_congr h
  simp only [memRead, over_buf, hcells]
  split <;> rfl

/-- The frame parser over a range on which the memories agree answers the same (R150). -/
theorem parseFrame_over {x n : Nat} (h : Agree m s.buf x n) :
    parseFrame x n (s.over m a b) = ((parseFrame x n s).1, (parseFrame x n s).2.over m a b) := by
  have read {u : State} {x' n' : Nat} (hu : ReadsOnly s u) (hlo : x ≤ x') (hhi : x' + n' ≤ x + n) :
      memRead x' n' (u.over m a b) = ((memRead x' n' u).1, (memRead x' n' u).2.over m a b) :=
    memRead_over a b (hu.buf ▸ h.mono hlo hhi)
  unfold parseFrame
  by_cases h12 : n < 12
  · simp only [if_pos h12]
  have r1 := memRead_readsOnly x 4 s
  simp only [if_neg h12, read (.refl s) (Nat.le_refl x) (show x + 4 ≤ x + n by omega)]
  by_cases hl : n < 12 + (be32 (memRead x 4 s).1).toNat
  · simp only [if_pos hl]
  have r2 := r1.trans (memRead_readsOnly (x + 4) 4 _)
  have r3 := r2.trans (memRead_readsOnly (x + 8) (be32 (memRead x 4 s).1).toNat _)
  simp only [if_neg hl, read r1 (show x ≤ x + 4 by omega) (show x + 4 + 4 ≤ x + n by omega),
    read r2 (show x ≤ x + 8 by omega) (show x + 8 + (be32 (memRead x 4 s).1).toNat ≤ x + n by omega),
    read r3 (show x ≤ x + 8 + (be32 (memRead x 4 s).1).toNat by omega)
      (show x + 8 + (be32 (memRead x 4 s).1).toNat + 4 ≤ x + n by omega)]
  split <;> rfl

/-- The loop of CONT_PARSE over a range on which the memories agree answers the same (R190). -/
theorem parseLoop_over {fuel x n off total : Nat} {list : List Chunk} (h : Agree m s.buf x n) :
    parseLoop fuel x n off total list (s.over m a b) =
      ((parseLoop fuel x n off total list s).1, (parseLoop fuel x n off total list s).2.over m a b) := by
  induction fuel generalizing off total list s with
  | zero =>
    unfold parseLoop
    split <;> rfl
  | succ fuel ih =>
    unfold parseLoop
    by_cases hoff : n ≤ off
    · simp only [if_pos hoff]
    have hread := parseFrame_readsOnly (x + off) (n - off) s
    have hframe := parseFrame_over a b
      (h.mono (show x ≤ x + off by omega) (show x + off + (n - off) ≤ x + n by omega))
    simp only [if_neg hoff, hframe]
    obtain ⟨r, u, hr⟩ : ∃ r u, parseFrame (x + off) (n - off) s = (r, u) := ⟨_, _, rfl⟩
    rw [hr] at hread ⊢
    cases r with
    | mismatch k => rfl
    | fail e => rfl
    | ok c k =>
      dsimp only
      rw [over_maxChunks, over_storeBytes]
      by_cases hcount : list.length = s.params.maxChunks
      · simp only [if_pos hcount]
      by_cases hsum : total + c.length.toNat > s.params.storeBytes
      · simp only [if_neg hcount, if_pos hsum]
      simp only [if_neg hcount, if_neg hsum]
      exact ih (hread.buf ▸ h)

end

/-! ### Two runs of one command -/

/-- The outcomes of two runs of a command, in `s` and in `s` over another memory and placement: the same state but for BUF
and the placement, and the same BUF where it was the same. -/
def Mirrors (s : State) (m : Memory) (a b : Nat) (o o' : Out) : Prop :=
  ∃ t m', o = .next t ∧ o' = .next (t.over m' a b) ∧ (m = s.buf → m' = t.buf)

section
variable {s : State} {m : Memory} {a b : Nat}

theorem mirrors_next {t t' : State} (ht : t' = t.over t'.buf a b) (hbuf : m = s.buf → t'.buf = t.buf) :
    Mirrors s m a b (.next t) (.next t') :=
  ⟨t, t'.buf, rfl, congrArg _ ht, hbuf⟩

/-- Two runs that leave BUF as it was end alike. -/
theorem mirrors_bufKept {t t' : State} (hs : t.buf = s.buf) (hm : t'.buf = m) (ht : t' = t.over t'.buf a b) :
    Mirrors s m a b (.next t) (.next t') :=
  mirrors_next ht fun h => hm.trans (h.trans hs.symm)

theorem mirrors_withArgs {k k' : Args → Out} (h : ∀ p, s.pend = some p → Mirrors s m a b (k p.args) (k' p.args)) :
    Mirrors s m a b (withArgs s k) (withArgs (s.over m a b) k') := by
  rcases Option.eq_none_or_eq_some s.pend with hp | ⟨p, hp⟩
  · rw [withArgs_none hp, withArgs_none (s := s.over m a b) hp]
    exact mirrors_bufKept rfl rfl rfl
  · rw [withArgs_some hp, withArgs_some (s := s.over m a b) hp]
    exact h p hp

theorem mirrors_needType {k k' : TypeCode → Out} (h : ∀ t, Mirrors s m a b (k t) (k' t)) :
    Mirrors s m a b (needType s k) (needType (s.over m a b) k') := by
  rcases Option.eq_none_or_eq_some s.tr with ht | ⟨t, ht⟩
  · rw [needType_none ht, needType_none (s := s.over m a b) ht]
    exact mirrors_bufKept rfl rfl rfl
  · rw [needType_some ht, needType_some (s := s.over m a b) ht]
    exact h t

theorem mirrors_needChunk {k k' : Chunk → Out} (h : ∀ c, Mirrors s m a b (k c) (k' c)) :
    Mirrors s m a b (needChunk s k) (needChunk (s.over m a b) k') := by
  rcases Option.eq_none_or_eq_some s.cr with hc | ⟨c, hc⟩
  · rw [needChunk_none hc, needChunk_none (s := s.over m a b) hc]
    exact mirrors_bufKept rfl rfl rfl
  · rw [needChunk_some hc, needChunk_some (s := s.over m a b) hc]
    exact h c

theorem mirrors_withSource {x : Args} {k k' : Out} (h : Mirrors s m a b k k') :
    Mirrors s m a b (withSource x s k) (withSource x (s.over m a b) k') := by
  by_cases hb : SourceOk s x
  · rwa [withSource_in hb, withSource_in (s := s.over m a b) hb]
  · rw [withSource_out hb, withSource_out (s := s.over m a b) hb]
    exact mirrors_bufKept rfl rfl rfl

theorem mirrors_withDest {x : Args} {k k' : Out} (h : Mirrors s m a b k k') :
    Mirrors s m a b (withDest x s k) (withDest x (s.over m a b) k') := by
  by_cases hb : DestOk s x
  · rwa [withDest_in hb, withDest_in (s := s.over m a b) hb]
  · rw [withDest_out hb, withDest_out (s := s.over m a b) hb]
    exact mirrors_bufKept rfl rfl rfl

theorem mirrors_putDest (x : Args) (n : Nat) (v : List Byte) :
    Mirrors s m a b (putDest x n v s) (putDest x n v (s.over m a b)) := by
  unfold putDest
  split
  · exact mirrors_bufKept rfl rfl rfl
  · exact mirrors_next rfl fun h => by rw [h]; rfl

end

/-! ### The six commands that read BUF (R67) -/

section
variable {s : State} {m : Memory} (a b : Nat)
  (h : ∀ p, s.pend = some p → Agree m s.buf p.args.src.toNat p.args.len.toNat)
include h

theorem execCrcChecksum_mirrors : Mirrors s m a b (execCrcChecksum s) (execCrcChecksum (s.over m a b)) := by
  unfold execCrcChecksum
  refine mirrors_withArgs fun p hp => mirrors_withSource ?_
  rw [memRead_over a b (h p hp)]
  exact mirrors_bufKept (memRead_readsOnly _ _ s).buf rfl rfl

theorem execCrcCheck_mirrors : Mirrors s m a b (execCrcCheck s) (execCrcCheck (s.over m a b)) := by
  unfold execCrcCheck
  refine mirrors_withArgs fun p hp => mirrors_withSource ?_
  rw [memRead_over a b (h p hp)]
  dsimp only
  split
  · exact mirrors_bufKept (memRead_readsOnly _ _ s).buf rfl rfl
  · exact mirrors_bufKept (memRead_readsOnly _ _ s).buf rfl rfl

theorem execTypeFromText_mirrors : Mirrors s m a b (execTypeFromText s) (execTypeFromText (s.over m a b)) := by
  unfold execTypeFromText
  refine mirrors_withArgs fun p hp => mirrors_withSource ?_
  by_cases hlen : p.args.len ≠ 4#32
  · rw [if_pos hlen, if_pos hlen]
    exact mirrors_bufKept rfl rfl rfl
  have hfour : p.args.len = 4#32 := not_not.1 hlen
  rw [if_neg hlen, if_neg hlen, memRead_over a b (by simpa [hfour] using h p hp)]
  dsimp only
  split
  · exact mirrors_bufKept (memRead_readsOnly _ _ s).buf rfl rfl
  · exact mirrors_bufKept (memRead_readsOnly _ _ s).buf rfl rfl

theorem execChunkNew_mirrors : Mirrors s m a b (execChunkNew s) (execChunkNew (s.over m a b)) := by
  unfold execChunkNew
  refine mirrors_withArgs fun p hp => mirrors_needType fun t => mirrors_withSource ?_
  rw [over_maxPayload]
  by_cases hmax : p.args.len.toNat > s.params.maxPayload
  · rw [if_pos hmax, if_pos hmax]
    exact mirrors_bufKept rfl rfl rfl
  rw [if_neg hmax, if_neg hmax, memRead_over a b (h p hp)]
  exact mirrors_bufKept (memRead_readsOnly _ _ s).buf rfl rfl

theorem execChunkParse_mirrors : Mirrors s m a b (execChunkParse s) (execChunkParse (s.over m a b)) := by
  unfold execChunkParse
  refine mirrors_withArgs fun p hp => mirrors_withSource ?_
  have hbuf := (parseFrame_readsOnly p.args.src.toNat p.args.len.toNat s).buf
  rw [parseFrame_over a b (h p hp)]
  obtain ⟨r, u, hr⟩ : ∃ r u, parseFrame p.args.src.toNat p.args.len.toNat s = (r, u) := ⟨_, _, rfl⟩
  rw [hr] at hbuf ⊢
  cases r with
  | mismatch k => exact mirrors_bufKept hbuf rfl rfl
  | fail e => exact mirrors_bufKept hbuf rfl rfl
  | ok c n => exact mirrors_bufKept hbuf rfl rfl

theorem execContParse_mirrors : Mirrors s m a b (execContParse s) (execContParse (s.over m a b)) := by
  unfold execContParse
  refine mirrors_withArgs fun p hp => mirrors_withSource ?_
  have hagree := h p hp
  by_cases h8 : p.args.len.toNat < 8
  · rw [if_pos h8, if_pos h8]
    exact mirrors_bufKept rfl rfl rfl
  rw [if_neg h8, if_neg h8, memRead_over a b (hagree.mono (Nat.le_refl _) (by omega))]
  have hb := (memRead_readsOnly p.args.src.toNat 8 s).buf
  obtain ⟨g, u, hu⟩ : ∃ g u, memRead p.args.src.toNat 8 s = (g, u) := ⟨_, _, rfl⟩
  rw [hu] at hb ⊢
  dsimp only at hb ⊢
  by_cases hg : g ≠ signature
  · rw [if_pos hg, if_pos hg]
    exact mirrors_bufKept hb rfl rfl
  rw [if_neg hg, if_neg hg, parseLoop_over a b (hb ▸ hagree)]
  have hbuf := (parseLoop_readsOnly p.args.len.toNat p.args.src.toNat p.args.len.toNat 8 0 [] u).buf.trans hb
  obtain ⟨r, v, hr⟩ :
      ∃ r v, parseLoop p.args.len.toNat p.args.src.toNat p.args.len.toNat 8 0 [] u = (r, v) := ⟨_, _, rfl⟩
  rw [hr] at hbuf ⊢
  cases r with
  | mismatch k off => exact mirrors_bufKept hbuf rfl rfl
  | fail e off => exact mirrors_bufKept hbuf rfl rfl
  | ok l => exact mirrors_bufKept hbuf rfl rfl

end

/-! ### All commands -/

/-- A command run over a memory that agrees on the latched source range, if the command declares one, and on any placement,
ends alike (R67, R72). -/
theorem exec_mirrors (i : Instr) {s : State} {m : Memory} (a b : Nat)
    (h : ∀ p, s.pend = some p → declaresSource i = true → Agree m s.buf p.args.src.toNat p.args.len.toNat) :
    Mirrors s m a b (exec i s) (exec i (s.over m a b)) := by
  cases i with
  | crcChecksum => exact execCrcChecksum_mirrors a b fun p hp => h p hp rfl
  | crcCheck => exact execCrcCheck_mirrors a b fun p hp => h p hp rfl
  | typeFromBytes =>
    simp only [exec, execTypeFromBytes]
    exact mirrors_withArgs fun _ _ => mirrors_bufKept rfl rfl rfl
  | typeFromText => exact execTypeFromText_mirrors a b fun p hp => h p hp rfl
  | typeAsBytes =>
    simp only [exec, execTypeAsBytes]
    exact mirrors_withArgs fun _ _ => mirrors_needType fun _ => mirrors_bufKept rfl rfl rfl
  | typeAsText =>
    simp only [exec, execTypeAsText]
    exact mirrors_withArgs fun _ _ => mirrors_needType fun _ => mirrors_withDest (mirrors_putDest _ _ _)
  | typeProps =>
    simp only [exec, execTypeProps]
    exact mirrors_withArgs fun _ _ => mirrors_needType fun _ => mirrors_bufKept rfl rfl rfl
  | typeEq =>
    simp only [exec, execTypeEq]
    exact mirrors_withArgs fun _ _ => mirrors_needType fun _ => mirrors_bufKept rfl rfl rfl
  | chunkNew => exact execChunkNew_mirrors a b fun p hp => h p hp rfl
  | chunkParse => exact execChunkParse_mirrors a b fun p hp => h p hp rfl
  | chunkSerialize =>
    simp only [exec, execChunkSerialize]
    exact mirrors_withArgs fun _ _ => mirrors_needChunk fun _ => mirrors_withDest (mirrors_putDest _ _ _)
  | chunkType =>
    simp only [exec, execChunkType]
    exact mirrors_withArgs fun _ _ => mirrors_needChunk fun _ => mirrors_bufKept rfl rfl rfl
  | chunkInfo =>
    simp only [exec, execChunkInfo]
    exact mirrors_withArgs fun _ _ => mirrors_needChunk fun _ => mirrors_bufKept rfl rfl rfl
  | chunkData =>
    simp only [exec, execChunkData]
    exact mirrors_withArgs fun _ _ => mirrors_needChunk fun _ => mirrors_withDest (mirrors_putDest _ _ _)
  | chunkPayloadText =>
    simp only [exec, execChunkPayloadText]
    refine mirrors_withArgs fun _ _ => mirrors_needChunk fun c => mirrors_withDest ?_
    split
    · exact mirrors_bufKept rfl rfl rfl
    · split
      · exact mirrors_bufKept rfl rfl rfl
      · exact mirrors_putDest _ _ _
  | contParse => exact execContParse_mirrors a b fun p hp => h p hp rfl
  | contSerialize =>
    simp only [exec, execContSerialize]
    exact mirrors_withArgs fun _ _ => mirrors_withDest (mirrors_putDest _ _ _)
  | contFind =>
    simp only [exec, execContFind]
    refine mirrors_withArgs fun p _ => ?_
    rw [over_cont]
    cases firstMatch (unpack4 p.args.type) p.args.index.toNat 0 s.cont with
    | none => exact mirrors_bufKept rfl rfl rfl
    | some i => exact mirrors_bufKept rfl rfl rfl
  | contGet =>
    simp only [exec, execContGet]
    refine mirrors_withArgs fun p _ => ?_
    rw [over_cont]
    cases s.cont[p.args.index.toNat]? with
    | none => exact mirrors_bufKept rfl rfl rfl
    | some c => exact mirrors_bufKept rfl rfl rfl
  | contAppend =>
    simp only [exec, execContAppend]
    refine mirrors_withArgs fun _ _ => mirrors_needChunk fun c => ?_
    rw [over_cont, over_maxChunks, over_storeBytes]
    by_cases hcount : s.cont.length = s.params.maxChunks
    · rw [if_pos hcount, if_pos hcount]
      exact mirrors_bufKept rfl rfl rfl
    by_cases hsum : storeUse s.cont + c.length.toNat > s.params.storeBytes
    · rw [if_neg hcount, if_neg hcount, if_pos hsum, if_pos hsum]
      exact mirrors_bufKept rfl rfl rfl
    · rw [if_neg hcount, if_neg hcount, if_neg hsum, if_neg hsum]
      exact mirrors_bufKept rfl rfl rfl
  | contRemoveFirst =>
    simp only [exec, execContRemoveFirst]
    refine mirrors_withArgs fun p _ => ?_
    rw [over_cont]
    cases firstMatch (unpack4 p.args.type) 0 0 s.cont with
    | none => exact mirrors_bufKept rfl rfl rfl
    | some i => exact mirrors_bufKept rfl rfl rfl
  | contCount =>
    simp only [exec, execContCount]
    exact mirrors_withArgs fun _ _ => mirrors_bufKept rfl rfl rfl

/-- Settles O43: `exec_mirrors` with the placement as it was. -/
theorem commandsReadOnlyTheirSource : Obligations.CommandsReadOnlyTheirSource := by
  unfold Obligations.CommandsReadOnlyTheirSource
  intro i s p m t hp ht h
  have hagree (q : Pending) (hq : s.pend = some q) (hd : declaresSource i = true) :
      Agree m s.buf q.args.src.toNat q.args.len.toNat := by
    obtain rfl : p = q := Option.some.inj (hp.symm.trans hq)
    exact fun y hlo hhi => h y hd hlo hhi
  have hplace (u : State) (m : Memory) (hu : u.params = s.params) :
      u.over m s.params.regBase s.params.bufBase = { u with buf := m } := by
    rw [← hu]
    rfl
  obtain ⟨u, m', hu, hover, -⟩ := exec_mirrors i s.params.regBase s.params.bufBase hagree
  obtain rfl : t = u := Host.Outcome.next.inj (ht.symm.trans hu)
  have hparams : t.params = s.params := (commandEnd_of_exec hp ht).faults_params.2
  rw [hplace s m rfl, hplace t m' hparams] at hover
  exact ⟨m', hover⟩

/-! ### The placement (R72) -/

section
variable (s : State) (a b : Nat)

/-- No register reads the placement (R72). -/
theorem regValue_placedAt (r : Reg) : (s.placedAt a b).regValue r = s.regValue r := by
  cases r <;> rfl

theorem readRegister_placedAt (o : Nat) :
    readRegister o (s.placedAt a b) = ((readRegister o s).1, (readRegister o s).2.placedAt a b) := by
  have hbusy : (s.placedAt a b).busy = s.busy := rfl
  unfold readRegister
  cases regAt o with
  | none => rfl
  | some r =>
    simp only [hbusy, regValue_placedAt]
    split <;> rfl

theorem hostReadReg_placedAt (o w : Nat) : hostReadReg o w (s.placedAt a b) = (hostReadReg o w s).placedAt a b := by
  cases h : regAccessOk o w with
  | false =>
    rw [hostReadReg_bad h, hostReadReg_bad h]
    rfl
  | true =>
    rw [hostReadReg_ok h, hostReadReg_ok h, readRegister_placedAt]
    rfl

theorem hostWriteReg_placedAt (o w : Nat) (v : Word) :
    hostWriteReg o w v (s.placedAt a b) = (hostWriteReg o w v s).placedAt a b := by
  unfold hostWriteReg
  split
  · split
    · rcases Option.eq_none_or_eq_some s.pend with hp | ⟨p, hp⟩
      · rw [writeCmd_idle hp, writeCmd_idle (s := s.placedAt a b) hp]
        rfl
      · have hne : s.pend ≠ none := hp ▸ Option.some_ne_none p
        rw [writeCmd_pending hne, writeCmd_pending (s := s.placedAt a b) hne]
        rfl
    · rfl
    · rfl
  · rfl

theorem hostReadBuf_placedAt (x w : Nat) : hostReadBuf x w (s.placedAt a b) = (hostReadBuf x w s).placedAt a b := by
  have hok : bufAccessOk (s.placedAt a b) x w = bufAccessOk s x w := rfl
  have hdest : inPendingDest (s.placedAt a b) x = inPendingDest s x := rfl
  have hbuf : (s.placedAt a b).buf = s.buf := rfl
  simp only [hostReadBuf, hok, hdest, hbuf]
  split
  · split
    · rfl
    · split <;> rfl
  · rfl

theorem hostWriteBuf_placedAt (x w : Nat) (v : Byte) :
    hostWriteBuf x w v (s.placedAt a b) = (hostWriteBuf x w v s).placedAt a b := by
  have hok : bufAccessOk (s.placedAt a b) x w = bufAccessOk s x w := rfl
  have hsource : inPendingSource (s.placedAt a b) x = inPendingSource s x := rfl
  have hdest : inPendingDest (s.placedAt a b) x = inPendingDest s x := rfl
  simp only [hostWriteBuf, hok, hsource, hdest]
  split
  · split <;> rfl
  · rfl

@[simp] theorem lastWord_placedAt : lastWord (s.placedAt a b) = lastWord s := rfl

/-- No host step depends on the placement (R72). -/
theorem hostOp_placedAt (o : HostOp) : hostOp o (s.placedAt a b) = (hostOp o s).placedAt a b := by
  cases o with
  | readReg o w => exact hostReadReg_placedAt s a b o w
  | writeReg o w v => exact hostWriteReg_placedAt s a b o w v
  | readBuf x w => exact hostReadBuf_placedAt s a b x w
  | writeBuf x w v => exact hostWriteBuf_placedAt s a b x w v
  | reset => rfl
  | powerOn => rfl
  | wait | removeAllTest key | findAllTest key =>
    simp only [hostOp, hostReadReg_placedAt, lastWord_placedAt]
    split <;> rfl
  | findAllYield key =>
    simp only [hostOp, hostReadReg_placedAt, lastWord_placedAt]
    rfl

theorem hostTurn_placedAt : hostTurn (s.placedAt a b) = (hostTurn s).placedAt a b := by
  have hscript : (s.placedAt a b).script = s.script := rfl
  unfold hostTurn
  rw [hscript]
  cases s.script with
  | nil => rfl
  | cons o q => exact hostOp_placedAt { s with script := q } a b o

/-- The block's step does not depend on the placement: a command by `exec_mirrors` over the same memory (R72). -/
theorem blockTurn_placedAt {t : State} (h : blockTurn s = .next t) :
    blockTurn (s.placedAt a b) = .next (t.placedAt a b) := by
  rcases Option.eq_none_or_eq_some s.pend with hp | ⟨p, hp⟩
  · simp only [blockTurn, hp] at h
    cases h
    simp only [blockTurn, State.placedAt, hp]
  have hp' : (s.placedAt a b).pend = some p := hp
  cases hd : decode p.cmd with
  | ok i =>
    rw [blockTurn_decoded hp hd] at h
    rw [blockTurn_decoded hp' hd]
    obtain ⟨u, m, hu, hover, hm⟩ := exec_mirrors i (s := s) (m := s.buf) a b fun _ _ _ _ _ _ => rfl
    obtain rfl : t = u := Host.Outcome.next.inj (h.symm.trans hu)
    rw [hm rfl] at hover
    exact hover
  | error e =>
    simp only [blockTurn, hp, hd, raise] at h
    cases h
    simp only [blockTurn, hp', hd]
    rfl

end

/-- Settles O48: the same turn is taken, and neither agent's move depends on the placement. -/
theorem placementIsInvisible : Obligations.PlacementIsInvisible := by
  unfold Obligations.PlacementIsInvisible
  intro s t a b h
  have hturn : takeTurn (s.placedAt a b) = ((takeTurn s).1, (takeTurn s).2.placedAt a b) := by
    have hturns : (s.placedAt a b).turns = s.turns := rfl
    unfold takeTurn
    rw [hturns]
    cases s.turns <;> rfl
  unfold step at h ⊢
  rw [hturn]
  obtain ⟨agent, u, hu⟩ : ∃ agent u, takeTurn s = (agent, u) := ⟨_, _, rfl⟩
  rw [hu] at h ⊢
  cases agent with
  | host =>
    obtain rfl := Host.Outcome.next.inj h
    exact congrArg Host.Outcome.next (hostTurn_placedAt u a b)
  | block => exact blockTurn_placedAt u a b h

end Sys2Proof.Machine

/-! The host's accesses and resets: what STATUS and every other register read, BUF reads and writes, accesses without a
meaning, and what a reset leaves (R26, R32, R62, R68, R260 to R270). -/

namespace Sys2Proof.Machine

/-! ### STATUS (R26) -/

section
variable (s : State)

/-- STATUS bit by bit: six flags, the code and the detail, and no other bit (R26). -/
theorem getLsbD_status {n : Nat} (hn : n < 32) :
    s.status.getLsbD n =
      ((s.busy && decide (n = 0)) || (s.done && decide (n = 1)) || (s.errAny && decide (n = 2)) ||
        (s.trValid && decide (n = 3)) || (s.crValid && decide (n = 4)) || (s.ovr && decide (n = 5)) ||
        (!decide (n < 8) && s.err.getLsbD (n - 8)) || (!decide (n < 16) && s.errDetail.getLsbD (n - 16))) := by
  have hlo : n - 8 < 32 := by omega
  have hhi : n - 16 < 32 := by omega
  simp (disch := decide) only [State.status, BitVec.getLsbD_or, BitVec.getLsbD_shiftLeft, BitVec.getLsbD_setWidth,
    getLsbD_flag, hn, hlo, hhi, decide_true, Bool.true_and]

/-- Below bit 8 STATUS holds flags only. -/
theorem getLsbD_status_low {n : Nat} (hn : n < 8) :
    s.status.getLsbD n =
      ((s.busy && decide (n = 0)) || (s.done && decide (n = 1)) || (s.errAny && decide (n = 2)) ||
        (s.trValid && decide (n = 3)) || (s.crValid && decide (n = 4)) || (s.ovr && decide (n = 5))) := by
  have h16 : n < 16 := by omega
  simp [getLsbD_status s (show n < 32 by omega), hn, h16]

/-- From bit 8 up STATUS holds the code and the detail only. -/
theorem getLsbD_status_high {n : Nat} (h8 : 8 ≤ n) (hn : n < 32) :
    s.status.getLsbD n = (s.err.getLsbD (n - 8) || (!decide (n < 16) && s.errDetail.getLsbD (n - 16))) := by
  have hflag : ∀ k < 8, n ≠ k := fun k hk => by omega
  simp [getLsbD_status s hn, hflag, Nat.not_lt.2 h8]

/-- STATUS.ERR is bits 15:8 (R26). -/
theorem status_err : s.status.extractLsb' 8 8 = s.err := by
  refine BitVec.eq_of_getLsbD_eq fun k hk => ?_
  have h16 : 8 + k < 16 := by omega
  simp [hk, getLsbD_status_high s (show 8 ≤ 8 + k by omega) (by omega), h16]

/-- STATUS.ERR_DETAIL is bits 23:16 (R26). -/
theorem status_errDetail : s.status.extractLsb' 16 8 = s.errDetail := by
  refine BitVec.eq_of_getLsbD_eq fun k hk => ?_
  have herr : s.err.getLsbD (16 + k - 8) = false := BitVec.getLsbD_of_ge _ _ (by omega)
  simp [hk, getLsbD_status_high s (show 8 ≤ 16 + k by omega) (by omega), herr]

/-- STATUS bits 31:24 are 0 (R26). -/
theorem status_reserved_high : s.status.extractLsb' 24 8 = 0#8 := by
  refine BitVec.eq_of_getLsbD_eq fun k hk => ?_
  have herr : s.err.getLsbD (24 + k - 8) = false := BitVec.getLsbD_of_ge _ _ (by omega)
  have hdetail : s.errDetail.getLsbD (24 + k - 16) = false := BitVec.getLsbD_of_ge _ _ (by omega)
  simp [hk, getLsbD_status_high s (show 8 ≤ 24 + k by omega) (by omega), herr, hdetail]

end

/-- Settles O51: the flags by `getLsbD_status_low`, the two fields and the zeros above them bit by bit. -/
theorem statusFields : Obligations.StatusFields := by
  unfold Obligations.StatusFields
  intro s
  have bit {n : Nat} (hn : n < 8) := getLsbD_status_low s hn
  refine ⟨status_busy s, ?_, ?_, ?_, ?_, ?_, ?_, ?_, status_err s, status_errDetail s, status_reserved_high s⟩
  · simp only [bit (show 1 < 8 by decide)]
    simp
  · simp only [bit (show 2 < 8 by decide)]
    simp [State.errAny]
  · simp only [bit (show 3 < 8 by decide)]
    simp [State.trValid]
  · simp only [bit (show 4 < 8 by decide)]
    simp [State.crValid]
  · simp only [bit (show 5 < 8 by decide)]
    simp
  · simp only [bit (show 6 < 8 by decide)]
    simp
  · simp only [bit (show 7 < 8 by decide)]
    simp

/-! ### Register reads (R32, R270) -/

section
variable {s : State} {r : Reg}

/-- A read of a register that R270 does not blur shows its value and changes nothing the block holds. -/
theorem hostReadReg_sharp (s : State) (hr : r.blurredWhileBusy = false) :
    hostReadReg r.offset 4 s = { s with seen := s.seen ++ [.reg r.offset (s.regValue r)] } := by
  rw [hostReadReg_ok (regAccessOk_offset r), readRegister_sharp (regAt_offset r) hr]
  rfl

/-- With nothing pending a read of any register shows its value. -/
theorem hostReadReg_idle (r : Reg) (hp : s.pend = none) :
    hostReadReg r.offset 4 s = { s with seen := s.seen ++ [.reg r.offset (s.regValue r)] } := by
  rw [hostReadReg_ok (regAccessOk_offset r), readRegister_idle (regAt_offset r) hp]
  rfl

/-- With a command pending a blurred register reads a fresh free word (R270). -/
theorem hostReadReg_blurred (hr : r.blurredWhileBusy = true) (hp : s.pend ≠ none) :
    hostReadReg r.offset 4 s =
      { s with draws := s.draws + 1, seen := s.seen ++ [.reg r.offset (Config.freeWord s.draws)] } := by
  have hbusy : s.busy = true := Option.isSome_iff_ne_none.2 hp
  rw [hostReadReg_ok (regAccessOk_offset r), readRegister, regAt_offset]
  simp only [hbusy, hr, Bool.and_self, if_true]
  rfl

/-- A reserved offset reads 0 (R23, R32). -/
theorem hostReadReg_reserved {o : Nat} (ha : o % 4 = 0) (hlo : 0x50 ≤ o) (hhi : o < 0x100) (s : State) :
    hostReadReg o 4 s = { s with seen := s.seen ++ [.reg o 0#32] } := by
  rw [hostReadReg_ok (regAccessOk_iff.2 ⟨rfl, ha, hhi⟩), readRegister, regAt_reserved hlo]
  rfl

end

/-- The registers that R270 does not blur. -/
def sharpRegs : List Reg :=
  [.id, .cmd, .status, .argSrc, .argLen, .argDst, .argCap, .argType, .argIndex, .argCrc, .capBuf, .capPayload, .capChunks,
   .capStore]

/-- The registers that R270 blurs while a command is pending. -/
def blurredRegs : List Reg := [.resLen, .resCrc, .resType, .resIndex, .resFlags, .errOffset]

/-- Settles O52: the lists are the sharp and the blurred registers with their values, read by the one rule for each. -/
theorem registerReads : Obligations.RegisterReads := by
  unfold Obligations.RegisterReads
  have sharp : ∀ r ∈ sharpRegs, r.blurredWhileBusy = false := by decide
  refine fun s => ⟨fun ov hov => ?_, fun o ha hlo hhi => hostReadReg_reserved ha hlo hhi s, fun hp ov hov => ?_⟩
  · obtain ⟨r, hr, rfl⟩ : ∃ r ∈ sharpRegs, (r.offset, s.regValue r) = ov := List.mem_map.1 hov
    exact hostReadReg_sharp s (sharp r hr)
  · obtain ⟨r, -, rfl⟩ : ∃ r ∈ blurredRegs, (r.offset, s.regValue r) = ov := List.mem_map.1 hov
    exact hostReadReg_idle r hp

/-! ### BUF accesses (R62, R267, R270) -/

section
variable {s : State} {a : Nat} (ha : a < s.params.bufBytes)
include ha

theorem hostReadBuf_written {b : Byte} (hb : Memory.read s.buf a = some b) (hd : inPendingDest s a = false) :
    hostReadBuf a 1 s = { s with seen := s.seen ++ [.byte a b] } := by
  unfold hostReadBuf
  simp only [bufAccessOk_iff.2 ⟨rfl, ha⟩, if_true, hb, hd]
  rfl

/-- A written byte of a pending destination range reads a fresh free byte (R270). -/
theorem hostReadBuf_blurred {b : Byte} (hb : Memory.read s.buf a = some b) (hd : inPendingDest s a = true) :
    hostReadBuf a 1 s =
      { s with draws := s.draws + 1, seen := s.seen ++ [.byte a (Config.freeByte s.draws)] } := by
  unfold hostReadBuf
  simp only [bufAccessOk_iff.2 ⟨rfl, ha⟩, if_true, hb, hd]
  rfl

/-- An unwritten byte reads a fresh free byte, and UNINIT_READ is recorded (R62). -/
theorem hostReadBuf_unwritten (hb : Memory.read s.buf a = none) :
    hostReadBuf a 1 s =
      { s with faults := { s.faults with uninitRead := true }, draws := s.draws + 1,
               seen := s.seen ++ [.byte a (Config.freeByte s.draws)] } := by
  unfold hostReadBuf
  simp only [bufAccessOk_iff.2 ⟨rfl, ha⟩, if_true, hb]
  rfl

theorem hostWriteBuf_free (v : Byte) (hsrc : inPendingSource s a = false) (hdst : inPendingDest s a = false) :
    hostWriteBuf a 1 v s = { s with buf := Memory.write s.buf a v } := by
  unfold hostWriteBuf
  simp only [bufAccessOk_iff.2 ⟨rfl, ha⟩, if_true, hsrc, hdst]
  rfl

/-- A write into a pending command's declared ranges records HOST_HAZARD (R267). -/
theorem hostWriteBuf_racing (v : Byte) (h : (inPendingSource s a || inPendingDest s a) = true) :
    (hostWriteBuf a 1 v s).faults = { s.faults with hostHazard := true } := by
  unfold hostWriteBuf
  simp only [bufAccessOk_iff.2 ⟨rfl, ha⟩, if_true, h]
  rfl

end

/-- A write of one byte stores that byte and no other (R62). -/
theorem storedAt_write {s : State} (a : Nat) (v : Byte) (h : Memory.wf s.buf) : StoredAt s (Memory.write s.buf a v) a [v] :=
  fun x => Memory.read_writeAll [v] s.buf a x h

/-- Settles O54: the three accesses, each by its rule. -/
theorem hostBufAccess : Obligations.HostBufAccess := by
  unfold Obligations.HostBufAccess
  exact fun s a ha => ⟨fun b hb hd => hostReadBuf_written ha hb hd, hostReadBuf_unwritten ha,
    fun v hsrc hdst hwf => ⟨_, hostWriteBuf_free ha v hsrc hdst, storedAt_write a v hwf⟩⟩

/-- While a command is pending STATUS holds no completion (R270, `State.Inv`). -/
theorem status_pending {s : State} (h : State.Inv s) (hp : s.pend ≠ none) :
    s.status = flag true 0 ||| flag s.tr.isSome 3 ||| flag s.cr.isSome 4 ||| flag s.ovr 5 := by
  have hbusy : s.busy = true := Option.isSome_iff_ne_none.2 hp
  obtain ⟨hdone, herr, hdetail⟩ := h.pendingClear hbusy
  have hflag (n : Nat) : flag false n = 0#32 := by simp [flag]
  simp [State.status, State.errAny, State.trValid, State.crValid, hbusy, hdone, herr, hdetail, hflag]

/-- Settles O53: STATUS by `status_pending`, the blurred registers and the BUF bytes by their rules. -/
theorem readsWhileBusy : Obligations.ReadsWhileBusy := by
  unfold Obligations.ReadsWhileBusy
  have blurred : ∀ r ∈ blurredRegs, r.blurredWhileBusy = true := by decide
  refine fun s hinv hp => ⟨?_, fun o ho => ?_, fun a b ha hb hd => hostReadBuf_blurred ha hb hd,
    fun a b ha hb hd => hostReadBuf_written ha hb hd⟩
  · rw [← status_pending hinv hp]
    exact hostReadReg_sharp (r := .status) s rfl
  · obtain ⟨r, hr, rfl⟩ : ∃ r ∈ blurredRegs, r.offset = o := List.mem_map.1 ho
    exact hostReadReg_blurred (blurred r hr) hp

/-- Settles O55: the access checks fail, and all that is left is the record. -/
theorem meaninglessAccessIsRecorded : Obligations.MeaninglessAccessIsRecorded := by
  unfold Obligations.MeaninglessAccessIsRecorded
  intro s o w a v b
  refine ⟨fun h => ?_, fun h => ?_⟩
  · have hbad : regAccessOk o w = false := by
      rw [Bool.eq_false_iff, ne_eq, regAccessOk_iff]
      omega
    exact ⟨hostReadReg_bad hbad, by simp only [hostOp, hostWriteReg, hbad]; rfl⟩
  · have hbad : bufAccessOk s a w = false := by
      rw [Bool.eq_false_iff, ne_eq, bufAccessOk_iff]
      omega
    exact ⟨by simp only [hostOp, hostReadBuf, hbad]; rfl, by simp only [hostOp, hostWriteBuf, hbad]; rfl⟩

section
variable {s : State} {p : Pending} {i : Instr} (hp : s.pend = some p) (hd : decode p.cmd = .ok i) (a : Nat)
include hp hd

/-- A legal pending command's source range, if it declares one (R267). -/
theorem inPendingSource_legal :
    inPendingSource s a = true ↔
      declaresSource i = true ∧ p.args.src.toNat ≤ a ∧ a < p.args.src.toNat + p.args.len.toNat := by
  simp only [inPendingSource, hp, hd, Bool.and_eq_true, inRange_iff]

/-- A legal pending command's destination range, if it declares one (R267, R270). -/
theorem inPendingDest_legal :
    inPendingDest s a = true ↔
      declaresDest i = true ∧ p.args.dst.toNat ≤ a ∧ a < p.args.dst.toNat + p.args.cap.toNat := by
  simp only [inPendingDest, hp, hd, Bool.and_eq_true, inRange_iff]

end

/-- Settles O56: the two declared ranges are where a write races (`hostWriteBuf_racing`), and without them none does. -/
theorem racingWriteIsRecorded : Obligations.RacingWriteIsRecorded := by
  unfold Obligations.RacingWriteIsRecorded
  intro s p i a v hp hd ha
  have hsrc := inPendingSource_legal hp hd a
  have hdst := inPendingDest_legal hp hd a
  refine ⟨fun h => hostWriteBuf_racing ha v ?_, fun hns hnd => ?_⟩
  · rwa [Bool.or_eq_true, hsrc, hdst]
  · have hs : inPendingSource s a = false := by simp [Bool.eq_false_iff, hsrc, hns]
    have hd : inPendingDest s a = false := by simp [Bool.eq_false_iff, hdst, hnd]
    rw [hostOp, hostWriteBuf_free ha v hs hd]

/-! ### Reset (R261 to R263) -/

/-- The reset values of R262 field by field. -/
theorem keptByReset_eq_afterReset (s : State) (m : Memory) : keptByReset s m = s.afterReset m := rfl

/-- BUF after a reset: the pending destination range is unwritten, every other byte as it was (R261). -/
theorem read_bufAfterReset (s : State) (a : Nat) :
    Memory.read (bufAfterReset s) a = if inPendingDest s a then none else Memory.read s.buf a := by
  rw [bufAfterReset, Memory.read_filter s.buf (fun x => !inPendingDest s x)]
  cases inPendingDest s a <;> rfl

/-- Settles O57: the fields by `keptByReset_eq_afterReset`, and BUF by `read_bufAfterReset` for each pending word. -/
theorem resetState : Obligations.ResetState := by
  unfold Obligations.ResetState
  refine fun s => ⟨⟨bufAfterReset s, keptByReset_eq_afterReset s _, fun hp a => ?_, fun p i hp hd a => ?_,
    fun p e hp hd a => ?_⟩, [], keptByReset_eq_afterReset s [], fun _ => rfl⟩
  · simp [read_bufAfterReset, inPendingDest, hp]
  · simp only [read_bufAfterReset, inPendingDest_legal hp hd]
  · simp [read_bufAfterReset, inPendingDest, hp, hd]

end Sys2Proof.Machine

/-! The host's loops REMOVE_ALL and FIND_ALL (R92, R196, R201) under every list of turns: what a host step, a command line
and a round of each loop reach, and the loops by induction on the matches left. -/

namespace Sys2Proof.Machine

/-! ### What a run reaches under every list of turns -/

/-- Under every list of turns, a run from `s` reaches a state that satisfies `P`, in at most `n` steps more than the turns
it uses up. -/
def Reaches (n : Nat) (s : State) (P : State → Prop) : Prop :=
  ∀ r : List Agent, ∃ k t, k + t.turns.length ≤ r.length + n ∧
    Host.Core.run Sys2Proof.core k { s with turns := r } = .next t ∧ P t

section
variable {s : State} {P Q : State → Prop} {n m : Nat}

theorem Reaches.now (h : ∀ r, P { s with turns := r }) : Reaches 0 s P :=
  fun r => ⟨0, _, by simp, rfl, h r⟩

theorem Reaches.imp (h : Reaches n s P) (k : ∀ t, P t → Q t) : Reaches n s Q := fun r =>
  let ⟨j, t, hj, hrun, hP⟩ := h r
  ⟨j, t, hj, hrun, k t hP⟩

/-- A run goes on from whatever state it reaches, under the turns that are left. -/
theorem Reaches.bind (h : Reaches n s P) (k : ∀ t, P t → Reaches m t Q) : Reaches (n + m) s Q := by
  intro r
  obtain ⟨k1, t, hk1, h1, hP⟩ := h r
  obtain ⟨k2, u, hk2, h2, hQ⟩ := k t hP t.turns
  exact ⟨k1 + k2, u, by omega, (run_add Sys2Proof.core k1 k2 h1).trans h2, hQ⟩

/-- With nothing pending the host's next step is one step, the block's turns before it pass (R265). -/
theorem reaches_host {o : HostOp} {q : List HostOp} (hs : s.script = o :: q) (hp : s.pend = none)
    (h : ∀ r, P (hostOp o { s with turns := r, script := q })) : Reaches 1 s P := by
  intro r0
  obtain ⟨r, k, hk, hrun⟩ := run_reaches_host (s := { s with turns := r0 }) hs hp
  have hturns : (hostOp o { s with turns := r, script := q }).turns = r := (hostOp_ends _ o).turns
  exact ⟨k, _, by rwa [hturns], hrun, h r⟩

/-- A command leaves the host's side of the state alone. -/
theorem CommandEnd.host_kept {s t : State} {p : Pending} {i : Instr} (h : CommandEnd s p i t) :
    t.script = s.script ∧ t.turns = s.turns ∧ t.seen = s.seen := by
  cases h <;> exact ⟨rfl, rfl, rfl⟩

/-- While the host WAITs the pending command is performed, the host's polls before it only read STATUS (R91, R265). -/
theorem reaches_exec {p : Pending} {i : Instr} {q : List HostOp} (hp : s.pend = some p) (hd : decode p.cmd = .ok i)
    (hs : s.script = .wait :: q)
    (h : ∀ r (polls : List Word) t,
      exec i { s with turns := r, seen := s.seen ++ polls.map (.reg 0x08) } = .next t → P t) : Reaches 1 s P := by
  intro r0
  obtain ⟨r, polls, k, hk, hrun⟩ := run_reaches_exec (s := { s with turns := r0 }) hp hd hs
  obtain ⟨t, ht, hend⟩ :=
    exec_ends (s := { s with turns := r, seen := s.seen ++ polls.map (.reg 0x08) }) hp i
  obtain ⟨-, hturns, -⟩ := hend.host_kept
  exact ⟨k, t, by rwa [hturns], hrun.trans ht, h r polls t ht⟩

end

/-! ### One command line (R91) -/

/-- The ARG registers after the keyed writes of a command line (R91). -/
def writeKeys (keys : List (ArgKey × Word)) (x : Args) : Args :=
  keys.foldl (fun x kv => writeArg kv.1.reg kv.2 x) x

/-- `s` with a command line's registers written and its word issued, and the host at its WAIT, having polled `polls`: the
state the block performs the command in. -/
def State.started (s : State) (i : Instr) (keys : List (ArgKey × Word)) (r : List Agent) (q : List HostOp)
    (polls : List Word) : State :=
  { issue (encode i) { s with args := writeKeys keys s.args } with
    turns := r, script := .wait :: q, seen := s.seen ++ polls.map (.reg 0x08) }

section
variable {s : State} {i : Instr} {keys : List (ArgKey × Word)} {q : List HostOp} {P : State → Prop}

theorem hostOp_opWr_key (k : ArgKey) (v : Word) (s : State) :
    hostOp (opWr k.reg v) s = { s with args := writeArg k.reg v s.args } :=
  hostWriteReg_of_ne_cmd (by cases k <;> decide) s v

theorem hostOp_opWr_cmd {u : State} (hp : u.pend = none) (w : Word) : hostOp (opWr .cmd w) u = issue w u :=
  (hostWriteReg_cmd u w).trans (writeCmd_idle hp w)

/-- The keyed writes of a command line take one host step each. -/
theorem reaches_writeKeys (hs : s.script = keys.map (fun kv => opWr kv.1.reg kv.2) ++ q) (hp : s.pend = none) :
    Reaches keys.length s fun t => ∃ r, t = { s with args := writeKeys keys s.args, turns := r, script := q } := by
  induction keys generalizing s with
  | nil =>
    have hq : s.script = q := hs
    exact .now fun r => ⟨r, by rw [← hq]; rfl⟩
  | cons kv keys ih =>
    rw [List.length_cons, Nat.add_comm]
    refine (reaches_host (P := fun t => ∃ r, t = { s with args := writeArg kv.1.reg kv.2 s.args, turns := r,
                                                          script := keys.map (fun kv => opWr kv.1.reg kv.2) ++ q })
      hs hp fun r => ⟨r, hostOp_opWr_key _ _ _⟩).bind ?_
    rintro _ ⟨r, rfl⟩
    exact ih rfl hp

/-- A command line runs to the end of its WAIT in one step for each keyed write and one each for the CMD write, the command
and the last poll (R91). -/
theorem reaches_commandLine (hs : s.script = commandLine i keys ++ q) (hp : s.pend = none)
    (h : ∀ r polls t r', exec i (s.started i keys r q polls) = .next t → t.pend = none →
      P { t with turns := r', script := q, seen := t.seen ++ [.reg 0x08 t.status] }) :
    Reaches (keys.length + 1 + 1 + 1) s P := by
  have hscript : s.script = keys.map (fun kv => opWr kv.1.reg kv.2) ++ opWr .cmd (encode i) :: .wait :: q := by
    simpa [commandLine] using hs
  have hwrites := reaches_writeKeys hscript hp
  have hissued := hwrites.bind (Q := fun t => ∃ r, t = { s.started i keys r q [] with seen := s.seen }) <| by
    rintro _ ⟨r, rfl⟩
    exact reaches_host rfl hp fun r => ⟨r, hostOp_opWr_cmd
      (u := { s with args := writeKeys keys s.args, turns := r, script := .wait :: q }) hp _⟩
  have hdone := hissued.bind (Q := fun t => t.pend = none ∧ t.script = .wait :: q ∧
    ∃ r polls, exec i (s.started i keys r q polls) = .next t) <| by
    rintro _ ⟨r, rfl⟩
    refine reaches_exec rfl (decode_encode i) rfl fun r polls t ht => ?_
    have hend := commandEnd_of_exec rfl ht
    exact ⟨hend.completed.1, hend.host_kept.1, r, polls, ht⟩
  refine hdone.bind ?_
  rintro t ⟨hidle, hwait, r, polls, ht⟩
  refine reaches_host hwait hidle fun r' => ?_
  rw [hostOp_wait, if_neg (by simp [State.busy, hidle])]
  exact h r polls t r' ht hidle

end

/-- What the loops leave as it was: TR, CR, BUF and the model faults. -/
def Untouched (s t : State) : Prop := t.tr = s.tr ∧ t.cr = s.cr ∧ t.buf = s.buf ∧ t.faults = s.faults

theorem Untouched.trans {s t u : State} (h : Untouched s t) (k : Untouched t u) : Untouched s u := by
  obtain ⟨h1, h2, h3, h4⟩ := h
  obtain ⟨k1, k2, k3, k4⟩ := k
  exact ⟨k1.trans h1, k2.trans h2, k3.trans h3, k4.trans h4⟩

/-! ### REMOVE_ALL (R92, R201) -/

section
variable {s : State} {key : Word} {q : List HostOp}

/-- The loop test of REMOVE_ALL reads STATUS and goes round again unless ERR is NOT_FOUND. -/
theorem hostOp_removeAllTest (key : Word) (s : State) :
    hostOp (.removeAllTest key) s =
      { s with seen := s.seen ++ [.reg 0x08 s.status],
               script := if s.err = 0x05#8 then s.script else removeAll key ++ s.script } := by
  simp only [hostOp, hostReadReg_status, lastWord_sees, status_err]
  by_cases h : s.err = CmdError.notFound.code
  · rw [if_pos h, if_pos (show s.err = 0x05#8 from h)]
    rfl
  · rw [if_neg h, if_neg (show ¬ s.err = 0x05#8 from h)]
    rfl

/-- One round of REMOVE_ALL: CONT_REMOVE_FIRST is performed, and the host goes round again unless it ended in NOT_FOUND. -/
theorem reaches_removeAll_round {P : State → Prop} (hs : s.script = removeAll key ++ q) (hp : s.pend = none)
    (h : ∀ r q' polls t r' l,
      exec .contRemoveFirst (s.started .contRemoveFirst [(.type, key)] r q' polls) = .next t → t.pend = none →
      P { t with turns := r', seen := l, script := if t.err = 0x05#8 then q else removeAll key ++ q }) :
    Reaches 5 s P := by
  have hline : s.script = commandLine .contRemoveFirst [(.type, key)] ++ .removeAllTest key :: q := by
    simpa [removeAll] using hs
  refine Reaches.bind (n := 4) (m := 1) (P := fun u => ∃ r polls t r' l,
    exec .contRemoveFirst (s.started .contRemoveFirst [(.type, key)] r (.removeAllTest key :: q) polls) = .next t ∧
      t.pend = none ∧ u = { t with turns := r', script := .removeAllTest key :: q, seen := l })
    (reaches_commandLine hline hp fun r polls t r' ht hidle => ⟨r, polls, t, r', _, ht, hidle, rfl⟩) ?_
  rintro _ ⟨r, polls, t, r', l, ht, hidle, rfl⟩
  refine reaches_host rfl hidle fun r'' => ?_
  rw [hostOp_removeAllTest]
  exact h r _ polls t r'' _ ht hidle

/-- A round that finds no chunk of the type ends the loop with NOT_FOUND and CONT as it was. -/
theorem reaches_removeAll_absent (hs : s.script = removeAll key ++ q) (hp : s.pend = none)
    (hnone : ∀ c ∈ s.cont, c.type ≠ unpack4 key) :
    Reaches 5 s fun t => t.script = q ∧ t.pend = none ∧ t.err = 0x05#8 ∧ t.cont = s.cont ∧ Untouched s t := by
  refine reaches_removeAll_round hs hp fun r q' polls t r' l ht _ => ?_
  have habsent := execContRemoveFirst_absent (s := s.started .contRemoveFirst [(.type, key)] r q' polls) rfl
    (firstMatch_eq_none fun j d _ hd => hnone d (List.mem_of_getElem? hd))
  obtain rfl := Host.Outcome.next.inj (ht.symm.trans habsent)
  exact ⟨rfl, rfl, rfl, rfl, rfl, rfl, rfl, rfl⟩

/-- A round that finds a chunk of the type takes the first one out and goes round again. -/
theorem reaches_removeAll_found {l₁ l₂ : List Chunk} {c : Chunk} (hs : s.script = removeAll key ++ q)
    (hp : s.pend = none) (hcont : s.cont = l₁ ++ c :: l₂) (hc : c.type = unpack4 key)
    (hl : ∀ d ∈ l₁, d.type ≠ unpack4 key) :
    Reaches 5 s fun t => t.script = removeAll key ++ q ∧ t.pend = none ∧ t.cont = l₁ ++ l₂ ∧ Untouched s t := by
  refine reaches_removeAll_round hs hp fun r q' polls t r' l ht _ => ?_
  have hfirst : firstMatch (unpack4 key) 0 0 s.cont = some l₁.length := hcont ▸ firstMatch_append_cons hc hl
  have hrest : s.cont.take l₁.length ++ s.cont.drop (l₁.length + 1) = l₁ ++ l₂ := by simp [hcont]
  have hfound := execContRemoveFirst_found (s := s.started .contRemoveFirst [(.type, key)] r q' polls) rfl hfirst
  obtain rfl := Host.Outcome.next.inj (ht.symm.trans hfound)
  exact ⟨rfl, rfl, hrest, rfl, rfl, rfl, rfl⟩

end

/-- A list with a chunk of the type has a first one; without it there is one match less, and the other chunks are the
same. -/
theorem exists_first_match {k : TypeCode} {l : List Chunk} {n : Nat}
    (h : (l.filter fun c => c.type = k).length = n + 1) :
    ∃ l₁ c l₂, l = l₁ ++ c :: l₂ ∧ c.type = k ∧ (∀ d ∈ l₁, d.type ≠ k) ∧
      ((l₁ ++ l₂).filter fun c => c.type = k).length = n ∧
      (l₁ ++ l₂).filter (fun c => c.type ≠ k) = l.filter (fun c => c.type ≠ k) := by
  cases hf : l.find? fun c => decide (c.type = k) with
  | none =>
    have hnone : l.filter (fun c => c.type = k) = [] := by simpa using hf
    simp [hnone] at h
  | some c =>
    obtain ⟨hc, l₁, l₂, rfl, hl⟩ := List.find?_eq_some_iff_append.1 hf
    have hck : c.type = k := of_decide_eq_true hc
    refine ⟨l₁, c, l₂, rfl, hck, fun d hd => by simpa using hl d hd, ?_, by simp [hck]⟩
    simp only [List.filter_append, List.filter_cons, hck, decide_true, if_true, List.length_append,
      List.length_cons] at h ⊢
    omega

/-- REMOVE_ALL to its end, by induction on the chunks of the type: each round removes the first, and the round that finds
none ends the loop. -/
theorem reaches_removeAll {s : State} {key : Word} {q : List HostOp} (hs : s.script = removeAll key ++ q)
    (hp : s.pend = none) :
    Reaches (5 * ((s.cont.filter fun c => c.type = unpack4 key).length + 1)) s fun t =>
      t.script = q ∧ t.pend = none ∧ t.err = 0x05#8 ∧ t.cont = s.cont.filter (fun c => c.type ≠ unpack4 key) ∧
        Untouched s t := by
  induction hn : (s.cont.filter fun c => c.type = unpack4 key).length generalizing s with
  | zero =>
    have hnone : ∀ c ∈ s.cont, c.type ≠ unpack4 key := by
      simpa [List.filter_eq_nil_iff] using List.length_eq_zero_iff.1 hn
    have hall : s.cont.filter (fun c => c.type ≠ unpack4 key) = s.cont :=
      List.filter_eq_self.2 fun c hc => by simpa using hnone c hc
    rw [hall]
    exact reaches_removeAll_absent hs hp hnone
  | succ n ih =>
    obtain ⟨l₁, c, l₂, hcont, hc, hl, hcount, hrest⟩ := exists_first_match hn
    rw [show 5 * (n + 1 + 1) = 5 + 5 * (n + 1) by omega]
    refine (reaches_removeAll_found hs hp hcont hc hl).bind ?_
    rintro t ⟨hts, htp, htc, htu⟩
    rw [← htc] at hcount hrest
    refine (ih hts htp hcount).imp fun u hu => ?_
    obtain ⟨hus, hup, hue, huc, hu⟩ := hu
    exact ⟨hus, hup, hue, huc.trans hrest, htu.trans hu⟩

/-- Settles O59: `reaches_removeAll`, under the turns listed in `s`. -/
theorem removeAllRemovesEveryMatch : Obligations.RemoveAllRemovesEveryMatch := by
  unfold Obligations.RemoveAllRemovesEveryMatch
  intro s key q hp hs
  obtain ⟨k, t, hk, hrun, hscript, hpend, herr, hcont, hkept⟩ := reaches_removeAll hs hp s.turns
  exact ⟨k, t, by omega, hrun, hscript, hpend, herr, hcont, hkept⟩

/-! ### The matches FIND_ALL has still to yield (R196) -/

/-- The chunk at index `i` is there and has type `k`. -/
def isMatch (k : TypeCode) (l : List Chunk) (i : Nat) : Bool := (l[i]?.map fun c => decide (c.type = k)).getD false

/-- The indices of the chunks of type `k` at or after `start`, in file order. -/
def matchesFrom (k : TypeCode) (start : Nat) (l : List Chunk) : List Nat :=
  (List.range' start (l.length - start)).filter (isMatch k l)

section
variable {k : TypeCode} {start i : Nat} {l : List Chunk}

theorem isMatch_iff : isMatch k l i = true ↔ ∃ c, l[i]? = some c ∧ c.type = k := by
  cases h : l[i]? <;> simp [isMatch, h]

theorem matchesFrom_of_absent (h : firstMatch k start 0 l = none) : matchesFrom k start l = [] := by
  refine List.filter_eq_nil_iff.2 fun i hi hmatch => ?_
  obtain ⟨c, hc, hk⟩ := isMatch_iff.1 hmatch
  exact firstMatch_none h i (by rw [Nat.zero_add]; exact (List.mem_range'_1.1 hi).1) c hc hk

/-- The first match found is the next one to yield, and the search goes on after it. -/
theorem matchesFrom_of_found (h : firstMatch k start 0 l = some i) :
    i < l.length ∧ matchesFrom k start l = i :: matchesFrom k (i + 1) l := by
  obtain ⟨-, hstart, ⟨c, hc, hk⟩, hleast⟩ := firstMatch_some h
  have hi : i < l.length := (List.getElem?_eq_some_iff.1 hc).1
  have hbefore : (List.range' start (i - start)).filter (isMatch k l) = [] := by
    refine List.filter_eq_nil_iff.2 fun j hj hmatch => ?_
    obtain ⟨d, hd, hdk⟩ := isMatch_iff.1 hmatch
    obtain ⟨hlo, hhi⟩ := List.mem_range'_1.1 hj
    exact hleast j (by omega) (by omega) d hd hdk
  have hsplit : List.range' start (l.length - start) =
      List.range' start (i - start) ++ i :: List.range' (i + 1) (l.length - (i + 1)) := by
    rw [← List.range'_succ, show l.length - start = i - start + (l.length - (i + 1) + 1) by omega,
      ← List.range'_append_1, Nat.add_sub_cancel' hstart]
  have hmatch : isMatch k l i = true := isMatch_iff.2 ⟨c, hc, hk⟩
  refine ⟨hi, ?_⟩
  rw [matchesFrom, hsplit, List.filter_append, hbefore, List.nil_append, List.filter_cons_of_pos hmatch]
  rfl

/-- From index 0 on, a match is left for each chunk of the type. -/
theorem length_matchesFrom_zero (k : TypeCode) (l : List Chunk) :
    (matchesFrom k 0 l).length = (l.filter fun c => c.type = k).length := by
  have hmap : l.map (fun c => decide (c.type = k)) = (List.range l.length).map (isMatch k l) := by
    refine List.ext_getElem (by simp) fun i h1 h2 => ?_
    have hi : i < l.length := by simpa using h1
    simp [isMatch, hi]
  have hcount := congrArg (List.countP id) hmap
  rw [List.countP_map, List.countP_map] at hcount
  rw [matchesFrom, Nat.sub_zero, ← List.range_eq_range', ← List.countP_eq_length_filter, ← List.countP_eq_length_filter]
  exact hcount.symm

end

/-! ### FIND_ALL (R92, R196) -/

/-- Register reads yield no index. -/
theorem yielded_append_regs {s t : State} {l : List Seen} (h : t.seen = s.seen ++ l)
    (hl : ∀ x ∈ l, ∃ o v, x = .reg o v) : t.yielded = s.yielded := by
  unfold State.yielded
  rw [h, List.filterMap_append]
  refine (congrArg _ (List.filterMap_eq_nil_iff.2 fun x hx => ?_)).trans (List.append_nil _)
  obtain ⟨o, v, rfl⟩ := hl x hx
  rfl

/-- An index yielded is the last one. -/
theorem yielded_append_found {s t : State} {i : Word} (h : t.seen = s.seen ++ [.found i]) :
    t.yielded = s.yielded ++ [i] := by
  unfold State.yielded
  rw [h, List.filterMap_append]
  rfl

/-- RES_FLAGS.FOUND is bit 7 (R36, R196). -/
theorem getLsbD_foundFlags (found : Bool) : (foundFlags found).getLsbD 7 = found := by
  cases found <;> rfl

section
variable {s : State} {key index : Word} {q : List HostOp}

/-- The loop test of FIND_ALL reads RES_FLAGS and goes on to yield if FOUND is set. -/
theorem hostOp_findAllTest (key : Word) (hp : s.pend = none) :
    hostOp (.findAllTest key) s =
      { s with seen := s.seen ++ [.reg 0x38 s.resFlags],
               script := if s.resFlags.getLsbD 7 then .findAllYield key :: s.script else s.script } := by
  have hread : hostReadReg Reg.resFlags.offset 4 s = s.sees (.reg 0x38 s.resFlags) := hostReadReg_idle .resFlags hp
  simp only [hostOp, hread, lastWord_sees]
  by_cases h : s.resFlags.getLsbD 7 = true
  · rw [if_pos h, if_pos h]
    rfl
  · rw [if_neg h, if_neg h]
    rfl

/-- The rest of FIND_ALL's round reads RES_INDEX, yields it, and puts the search from the next index in front. -/
theorem hostOp_findAllYield (key : Word) (hp : s.pend = none) :
    hostOp (.findAllYield key) s =
      { s with seen := s.seen ++ [.reg 0x34 s.resIndex] ++ [.found s.resIndex],
               script := findAllFrom key (s.resIndex + 1#32) ++ s.script } := by
  have hread : hostReadReg Reg.resIndex.offset 4 s = s.sees (.reg 0x34 s.resIndex) := hostReadReg_idle .resIndex hp
  simp only [hostOp, hread, lastWord_sees]
  rfl

/-- One search of FIND_ALL: CONT_FIND is performed, and the host goes on to yield if it found a chunk. -/
theorem reaches_findAll_search {P : State → Prop} (hs : s.script = findAllFrom key index ++ q) (hp : s.pend = none)
    (h : ∀ r q' polls t r' l,
      exec .contFind (s.started .contFind [(.type, key), (.index, index)] r q' polls) = .next t → t.pend = none →
      (∀ u : State, u.seen = l → u.yielded = s.yielded) →
      P { t with turns := r', seen := l, script := if t.resFlags.getLsbD 7 then .findAllYield key :: q else q }) :
    Reaches 6 s P := by
  have hline : s.script = commandLine .contFind [(.type, key), (.index, index)] ++ .findAllTest key :: q := by
    simpa [findAllFrom] using hs
  refine Reaches.bind (n := 5) (m := 1) (P := fun u => ∃ r polls t r' l,
    exec .contFind (s.started .contFind [(.type, key), (.index, index)] r (.findAllTest key :: q) polls) = .next t ∧
      t.pend = none ∧ u = { t with turns := r', script := .findAllTest key :: q, seen := l } ∧ l = s.seen ++
        (polls.map (.reg 0x08) ++ [.reg 0x08 t.status]))
    (reaches_commandLine hline hp fun r polls t r' ht hidle => ⟨r, polls, t, r', _, ht, hidle, rfl, ?_⟩) ?_
  · have hseen : t.seen = s.seen ++ polls.map (.reg 0x08) := (commandEnd_of_exec rfl ht).host_kept.2.2
    rw [hseen, List.append_assoc]
  · rintro _ ⟨r, polls, t, r', l, ht, hidle, rfl, rfl⟩
    refine reaches_host rfl hidle fun r'' => ?_
    rw [hostOp_findAllTest]
    · refine h r _ polls t r'' _ ht hidle fun u hu => ?_
      rw [List.append_assoc] at hu
      refine yielded_append_regs hu fun x hx => ?_
      simp only [List.mem_append, List.mem_map, List.mem_singleton] at hx
      rcases hx with (⟨v, -, rfl⟩ | rfl) | rfl
      · exact ⟨0x08, v, rfl⟩
      · exact ⟨0x08, t.status, rfl⟩
      · exact ⟨0x38, t.resFlags, rfl⟩
    · exact hidle

/-- A search that finds nothing ends the loop. -/
theorem reaches_findAll_absent (hs : s.script = findAllFrom key index ++ q) (hp : s.pend = none)
    (hnone : firstMatch (unpack4 key) index.toNat 0 s.cont = none) :
    Reaches 6 s fun t => t.script = q ∧ t.pend = none ∧ t.cont = s.cont ∧ Untouched s t ∧ t.yielded = s.yielded := by
  refine reaches_findAll_search hs hp fun r q' polls t r' l ht _ hyield => ?_
  have habsent := execContFind_absent
    (s := s.started .contFind [(.type, key), (.index, index)] r q' polls) rfl hnone
  obtain rfl := Host.Outcome.next.inj (ht.symm.trans habsent)
  exact ⟨if_neg (Bool.eq_false_iff.1 (getLsbD_foundFlags false)), rfl, rfl, ⟨rfl, rfl, rfl, rfl⟩, hyield _ rfl⟩

/-- A search that finds index `i` yields it, and the next search starts after it. -/
theorem reaches_findAll_found {i : Nat} (hs : s.script = findAllFrom key index ++ q) (hp : s.pend = none)
    (hfound : firstMatch (unpack4 key) index.toNat 0 s.cont = some i) :
    Reaches 7 s fun t => t.script = findAllFrom key (BitVec.ofNat 32 (i + 1)) ++ q ∧ t.pend = none ∧
      t.cont = s.cont ∧ Untouched s t ∧ t.yielded = s.yielded ++ [BitVec.ofNat 32 i] := by
  refine Reaches.bind (n := 6) (m := 1) (P := fun t => t.script = .findAllYield key :: q ∧ t.pend = none ∧
    t.cont = s.cont ∧ Untouched s t ∧ t.yielded = s.yielded ∧ t.resIndex = BitVec.ofNat 32 i)
    (reaches_findAll_search hs hp fun r q' polls t r' l ht _ hyield => ?_) ?_
  · have hend := execContFind_found
      (s := s.started .contFind [(.type, key), (.index, index)] r q' polls) rfl hfound
    obtain rfl := Host.Outcome.next.inj (ht.symm.trans hend)
    exact ⟨if_pos (getLsbD_foundFlags true), rfl, rfl, ⟨rfl, rfl, rfl, rfl⟩, hyield _ rfl, rfl⟩
  · rintro t ⟨hts, htp, htc, htu, hty, hti⟩
    refine reaches_host hts htp fun r => ?_
    have hread : ({ t with seen := t.seen ++ [.reg 0x34 t.resIndex] } : State).yielded = t.yielded :=
      yielded_append_regs rfl (by simp)
    have hnext : BitVec.ofNat 32 (i + 1) = t.resIndex + 1#32 := by rw [hti, BitVec.ofNat_add_ofNat]
    rw [hostOp_findAllYield]
    · refine ⟨by rw [hnext], htp, htc, htu, ?_⟩
      rw [← hty, ← hread, ← hti]
      exact yielded_append_found rfl
    · exact htp

end

/-- FIND_ALL from index `start` to its end, by induction on the matches left: each round yields the next one, and the search
that finds none ends the loop. -/
theorem reaches_findAll {s : State} {key : Word} {start : Nat} {q : List HostOp}
    (hs : s.script = findAllFrom key (BitVec.ofNat 32 start) ++ q) (hp : s.pend = none) (hstart : start ≤ s.cont.length)
    (hlen : s.cont.length < 2 ^ 32) :
    Reaches (7 * (matchesFrom (unpack4 key) start s.cont).length + 6) s fun t =>
      t.script = q ∧ t.pend = none ∧ t.cont = s.cont ∧ Untouched s t ∧
        t.yielded = s.yielded ++ (matchesFrom (unpack4 key) start s.cont).map (BitVec.ofNat 32) := by
  have hindex : (BitVec.ofNat 32 start).toNat = start := by
    rw [BitVec.toNat_ofNat, Nat.mod_eq_of_lt (by omega)]
  induction hn : matchesFrom (unpack4 key) start s.cont generalizing s start with
  | nil =>
    have hnone : firstMatch (unpack4 key) start 0 s.cont = none := by
      cases hf : firstMatch (unpack4 key) start 0 s.cont with
      | none => rfl
      | some i => simp [(matchesFrom_of_found hf).2] at hn
    simpa using reaches_findAll_absent hs hp (hindex.symm ▸ hnone)
  | cons i l ih =>
    cases hf : firstMatch (unpack4 key) start 0 s.cont with
    | none => simp [matchesFrom_of_absent hf] at hn
    | some j =>
      obtain ⟨hj, hmatches⟩ := matchesFrom_of_found hf
      obtain ⟨rfl, hrest⟩ := List.cons.inj (hmatches.symm.trans hn)
      rw [show 7 * (j :: l).length + 6 = 7 + (7 * l.length + 6) by rw [List.length_cons]; omega]
      refine (reaches_findAll_found hs hp (hindex.symm ▸ hf)).bind ?_
      rintro t ⟨hts, htp, htc, htu, hty⟩
      have hnext : (BitVec.ofNat 32 (j + 1)).toNat = j + 1 := by
        rw [BitVec.toNat_ofNat, Nat.mod_eq_of_lt (by omega)]
      refine (ih hts htp (by rw [htc]; exact hj) (by rwa [htc]) hnext (by rwa [htc])).imp fun u hu => ?_
      obtain ⟨hus, hup, huc, huu, huy⟩ := hu
      exact ⟨hus, hup, huc.trans htc, htu.trans huu, by rw [huy, hty]; simp⟩

/-- Settles O60: `reaches_findAll` from index 0, where a match is left for each chunk of the type. -/
theorem findAllYieldsEveryMatch : Obligations.FindAllYieldsEveryMatch := by
  unfold Obligations.FindAllYieldsEveryMatch
  intro s key q hp hs hlen
  obtain ⟨k, t, hk, hrun, hscript, hpend, hcont, ⟨htr, hcr, hbuf, hfaults⟩, hyielded⟩ :=
    reaches_findAll (start := 0) hs hp (Nat.zero_le _) hlen s.turns
  rw [length_matchesFrom_zero] at hk
  rw [matchesFrom, Nat.sub_zero, ← List.range_eq_range'] at hyielded
  exact ⟨k, t, by omega, hrun, hscript, hpend, hcont, htr, hcr, hbuf, hfaults, hyielded⟩

end Sys2Proof.Machine

/-! The decoder over every word, and whose command or host step a step performs (R80 to R85, R265); the known CRC values
(R100). -/

namespace Sys2Proof.Machine

/-! ### Every word -/

/-- The value of a word whose reserved bits are 0 is that of its opcode (R80). -/
theorem toNat_of_rsvField_zero {w : Word} (h : rsvField w = 0#24) : w.toNat = (opcodeField w).toNat := by
  have hw : w.toNat = (rsvField w ++ opcodeField w).toNat := congrArg BitVec.toNat (word_eq_fields w)
  rw [hw, h, toNat_append_eq_mul_add]
  simp

/-- With the reserved bits 0 a word is unassigned exactly when the opcode map has no row for its opcode (R81). -/
theorem decode_unassigned_iff {w : Word} (h : rsvField w = 0#24) :
    decode w = .error .unassignedOpcode ↔ opcodeMap.lookup (opcodeField w) = none := by
  cases hl : opcodeMap.lookup (opcodeField w) <;> simp [decode, h, hl]

/-- The opcodes without a row in the opcode map, checked on the 256 bytes (R82, R85). -/
theorem lookup_eq_none_iff : ∀ b : Byte,
    (b.toNat = 0 ∨ (0x03 ≤ b.toNat ∧ b.toNat ≤ 0x0F) ∨ (0x16 ≤ b.toNat ∧ b.toNat ≤ 0x1F) ∨
      (0x27 ≤ b.toNat ∧ b.toNat ≤ 0x2F) ∨ (0x37 ≤ b.toNat ∧ b.toNat ≤ 0xFF)) ↔ opcodeMap.lookup b = none := by
  decide +kernel

/-- Settles O3: the reserved bits first, then the rows of the opcode map, and `decode_eq_ok_iff` for the commands. -/
theorem legalWordsAreExactlyTheCommands : Obligations.LegalWordsAreExactlyTheCommands := by
  unfold Obligations.LegalWordsAreExactlyTheCommands
  refine ⟨fun w h => decode_reserved h, fun w h => ?_, decode_eq_ok_iff⟩
  rw [toNat_of_rsvField_zero h, decode_unassigned_iff h]
  exact lookup_eq_none_iff (opcodeField w)

/-- Settles O2: `decode_encode`. -/
theorem decodeOfEncodeIsTheCommand : Obligations.DecodeOfEncodeIsTheCommand := by
  unfold Obligations.DecodeOfEncodeIsTheCommand
  exact decode_encode

/-- Settles O1: four commands' words, the word 0, and a word with a reserved bit set. -/
theorem sampleWordsDecode : Obligations.SampleWordsDecode := by
  unfold Obligations.SampleWordsDecode
  exact ⟨decode_encode .crcCheck, decode_encode .typeFromText, decode_encode .chunkPayloadText,
    decode_encode .contRemoveFirst, decode_unassigned (by decide) (by intro i; cases i <;> decide),
    decode_reserved (by decide)⟩

/-- Settles O10: the two inputs evaluated. -/
theorem crcKnownValues : Obligations.CrcKnownValues := by
  unfold Obligations.CrcKnownValues
  decide +kernel

/-! ### Whose move a step is -/

section
variable {s : State} {p : Pending} {r : List Agent} (hp : s.pend = some p)
  (hturn : s.turns = .block :: r ∨ s.turns = [] ∧ r = [])
include hp hturn

/-- The block moves when its turn is listed next, or when none is listed and a command is pending (R265; log 15). -/
theorem step_blockTurn : step s = blockTurn { s with turns := r } := by
  rcases hturn with ht | ⟨ht, rfl⟩
  · exact step_listed_block ht
  · rw [step_block hp ht, ← ht]

/-- When the block moves it performs the command its word decodes to (R81). -/
theorem step_decoded {i : Instr} (hd : decode p.cmd = .ok i) : step s = exec i { s with turns := r } :=
  (step_blockTurn hp hturn).trans (blockTurn_decoded (s := { s with turns := r }) hp hd)

/-- When the block moves on an illegal word it reports it and does nothing else (R81, R234). -/
theorem step_illegal {e : DecodeError} (hd : decode p.cmd = .error e) :
    step s = .next (({ s with turns := r } : State).failed (illegalCommand e).code (illegalCommand e).detail 0#32) := by
  rw [step_blockTurn hp hturn]
  simp only [blockTurn, hp, hd]
  rfl

end

/-- Settles O4: the block's move by `step_decoded`, the host's by the two rules of `Laws/Run.lean`. -/
theorem stepRunsTheDecodedCommand : Obligations.StepRunsTheDecodedCommand := by
  unfold Obligations.StepRunsTheDecodedCommand
  refine ⟨fun s p i hp hd ht => ?_, fun s p i r hp hd ht => step_decoded hp (.inl ht) hd, fun s o q r hs ht => ?_,
    fun s o q hs ht hp => step_host hs ht hp⟩
  · rw [step_block hp ht, blockTurn_decoded hp hd]
  · rw [step_listed_host ht]
    simp only [hostTurn, hs]

/-- Settles O5: the three kinds of word by what each decodes to. -/
theorem illegalWordReportsIllegalCommand : Obligations.IllegalWordReportsIllegalCommand := by
  unfold Obligations.IllegalWordReportsIllegalCommand
  intro s p r hp hturn
  refine ⟨fun hrsv => step_illegal hp hturn (decode_reserved hrsv), fun hrsv hnone => ?_, fun i hi => ?_⟩
  · have hunassigned (i : Instr) : opcode i ≠ opcodeField p.cmd := by
      intro hi
      apply hnone i
      rw [word_eq_fields (encode i), word_eq_fields p.cmd, rsvField_encode, opcodeField_encode, hi, hrsv]
    exact step_illegal hp hturn (decode_unassigned hrsv hunassigned)
  · exact step_decoded hp hturn ((decode_eq_ok_iff p.cmd i).2 hi)

end Sys2Proof.Machine

/-! All commands (R83, R232, R63): what each may write, the checks on operands and ranges in their order, and the unwritten
source byte. -/

namespace Sys2Proof.Machine

/-! ### What a command may write (R83) -/

section
variable {s t : State} {p : Pending} {i : Instr} (h : CommandEnd s p i t)
include h

theorem CommandEnd.tr_kept (hi : i ∉ [Instr.typeFromBytes, .typeFromText, .chunkType]) : t.tr = s.tr := by
  cases h with
  | typeLoaded _ _ _ _ hrow => rcases hrow with rfl | rfl <;> exact absurd (by decide) hi
  | chunkType => exact absurd (by decide) hi
  | _ => rfl

theorem CommandEnd.cr_kept (hi : i ∉ [Instr.chunkNew, .chunkParse, .contGet]) : t.cr = s.cr := by
  cases h with
  | chunkLoaded _ _ _ _ _ hrow => rcases hrow with rfl | rfl <;> exact absurd (by decide) hi
  | chunkCopied => exact absurd (by decide) hi
  | _ => rfl

theorem CommandEnd.cont_kept (hi : i ∉ [Instr.contParse, .contAppend, .contRemoveFirst]) : t.cont = s.cont := by
  cases h with
  | contLoaded | appended | removed => exact absurd (by decide) hi
  | _ => rfl

theorem CommandEnd.resLen_kept (hi : i ∉ [Instr.typeAsText, .chunkNew, .chunkParse, .chunkSerialize, .chunkInfo,
    .chunkData, .chunkPayloadText, .contParse, .contSerialize, .contCount]) : t.resLen = s.resLen := by
  cases h with
  | stored _ _ _ hrow => rcases hrow with rfl | rfl | rfl | rfl | rfl <;> exact absurd (by decide) hi
  | chunkLoaded _ _ _ _ _ hrow => rcases hrow with rfl | rfl <;> exact absurd (by decide) hi
  | chunkInfo | contLoaded | counted => exact absurd (by decide) hi
  | _ => rfl

theorem CommandEnd.resCrc_kept
    (hi : i ∉ [Instr.crcChecksum, .crcCheck, .chunkNew, .chunkParse, .chunkInfo, .contParse]) : t.resCrc = s.resCrc := by
  cases h with
  | mismatch _ _ _ _ _ hrow => rcases hrow with rfl | rfl | rfl <;> exact absurd (by decide) hi
  | crc _ _ _ _ hrow => rcases hrow with rfl | rfl <;> exact absurd (by decide) hi
  | chunkLoaded _ _ _ _ _ hrow => rcases hrow with rfl | rfl <;> exact absurd (by decide) hi
  | chunkInfo => exact absurd (by decide) hi
  | _ => rfl

theorem CommandEnd.resType_kept (hi : i ∉ [Instr.typeAsBytes, .chunkType, .chunkInfo]) : t.resType = s.resType := by
  cases h with
  | typeRead | chunkType | chunkInfo => exact absurd (by decide) hi
  | _ => rfl

theorem CommandEnd.resIndex_kept
    (hi : i ∉ [Instr.contParse, .contFind, .contAppend, .contRemoveFirst, .contCount]) : t.resIndex = s.resIndex := by
  cases h with
  | contLoaded | searched | appended | removed | counted => exact absurd (by decide) hi
  | _ => rfl

theorem CommandEnd.resFlags_kept (hi : i ∉ [Instr.typeProps, .typeEq, .contFind]) : t.resFlags = s.resFlags := by
  cases h with
  | flagged _ _ hrow => rcases hrow with rfl | rfl <;> exact absurd (by decide) hi
  | searched => exact absurd (by decide) hi
  | _ => rfl

theorem CommandEnd.buf_kept
    (hi : i ∉ [Instr.typeAsText, .chunkSerialize, .chunkData, .chunkPayloadText, .contSerialize]) : t.buf = s.buf := by
  cases h with
  | stored _ _ _ hrow => rcases hrow with rfl | rfl | rfl | rfl | rfl <;> exact absurd (by decide) hi
  | _ => rfl

/-- A store stays inside the destination range (R64, R66). -/
theorem CommandEnd.read_outside (hwf : Memory.wf s.buf) {a : Nat}
    (ha : ¬ (p.args.dst.toNat ≤ a ∧ a < p.args.dst.toNat + p.args.cap.toNat)) :
    Memory.read t.buf a = Memory.read s.buf a := by
  cases h with
  | stored _ n v _ _ hc =>
    have hlen : (v.take n).length ≤ n := List.length_take_le n v
    rw [finish_buf, memWrite_buf, Memory.read_writeAll _ _ _ _ hwf, if_neg (by omega)]
  | _ => rfl

theorem CommandEnd.args_ovr_kept : t.args = s.args ∧ t.ovr = s.ovr := by
  cases h <;> exact ⟨rfl, rfl⟩

end

/-- Settles O41: each field by what may write it, over the ends of `CommandEnd`. -/
theorem commandsWriteOnlyTheirRow : Obligations.CommandsWriteOnlyTheirRow := by
  unfold Obligations.CommandsWriteOnlyTheirRow
  intro i s p t hp ht
  have h := commandEnd_of_exec hp ht
  obtain ⟨hargs, hovr⟩ := h.args_ovr_kept
  obtain ⟨hscript, hturns, hseen⟩ := h.host_kept
  exact ⟨h.tr_kept, h.cr_kept, h.cont_kept, h.resLen_kept, h.resCrc_kept, h.resType_kept, h.resIndex_kept,
    h.resFlags_kept, fun hi a => by rw [h.buf_kept hi], fun hwf a ha => h.read_outside hwf ha, hargs, hovr,
    h.faults_params.2, hscript, hturns, hseen⟩

/-! ### Missing operand, then range (R232) -/

/-- Settles O42: for each command listed, its own rule for the operand or the range it lacks. -/
theorem missingOperandThenRange : Obligations.MissingOperandThenRange := by
  unfold Obligations.MissingOperandThenRange
  intro s p hp
  simp only [List.forall_mem_cons, List.not_mem_nil, false_implies, implies_true, and_true]
  refine ⟨fun ht => ?_, fun hc => ?_, fun hrange ht => ?_, fun hrange ht hc => ?_⟩
  · exact ⟨execTypeAsBytes_none hp ht, execTypeAsText_none hp ht, execTypeProps_none hp ht, execTypeEq_none hp ht,
      execChunkNew_none hp ht⟩
  · exact ⟨execChunkSerialize_none hp hc, execChunkType_none hp hc, execChunkInfo_none hp hc, execChunkData_none hp hc,
      execChunkPayloadText_none hp hc, execContAppend_none hp hc⟩
  · obtain ⟨k, hk⟩ := Option.ne_none_iff_exists'.1 ht
    exact ⟨execCrcChecksum_out hp hrange, execCrcCheck_out hp hrange, execTypeFromText_out hp hrange,
      execChunkNew_out hp hk hrange, execChunkParse_out hp hrange, execContParse_out hp hrange⟩
  · obtain ⟨k, hk⟩ := Option.ne_none_iff_exists'.1 ht
    obtain ⟨c, hc⟩ := Option.ne_none_iff_exists'.1 hc
    exact ⟨execTypeAsText_out hp hk hrange, execChunkSerialize_out hp hc hrange, execChunkData_out hp hc hrange,
      execChunkPayloadText_out hp hc hrange, execContSerialize_out hp hrange⟩

/-! ### An unwritten source byte (R63) -/

/-- UNINIT_READ is recorded. -/
def UninitRecorded (t : State) : Prop := t.faults.uninitRead = true

section
variable {s : State} {p : Pending} (hp : s.pend = some p)
include hp

/-- A command whose every end has UNINIT_READ recorded completes with it recorded (`exec_ends`). -/
theorem completesUninit_of_post {i : Instr} (h : Post UninitRecorded (exec i s)) : CompletesUninit i s := by
  obtain ⟨t, ht, hrec⟩ := h
  exact ⟨t, ht, hrec, (commandEnd_of_exec hp ht).completed.2.1⟩

variable (h : SourceOk s p.args)
include h

section
variable (hu : Unwritten s p.args.src.toNat p.args.len.toNat)
include hu

theorem execCrcChecksum_uninit : Post UninitRecorded (execCrcChecksum s) := by
  unfold execCrcChecksum
  rw [withArgs_some hp, withSource_in h]
  exact post_complete (memRead_uninit hu)

theorem execCrcCheck_uninit : Post UninitRecorded (execCrcCheck s) := by
  unfold execCrcCheck
  rw [withArgs_some hp, withSource_in h]
  dsimp only
  split
  · exact post_raise (memRead_uninit hu)
  · exact post_complete (memRead_uninit hu)

theorem execChunkNew_uninit (ht : s.tr ≠ none) (hmax : p.args.len.toNat ≤ s.params.maxPayload) :
    Post UninitRecorded (execChunkNew s) := by
  obtain ⟨t, ht⟩ := Option.ne_none_iff_exists'.1 ht
  unfold execChunkNew
  rw [withArgs_some hp, needType_some ht, withSource_in h, if_neg (Nat.not_lt.2 hmax)]
  exact post_complete (memRead_uninit hu)

end

theorem execTypeFromText_uninit (hlen : p.args.len = 4#32) (hu : Unwritten s p.args.src.toNat 4) :
    Post UninitRecorded (execTypeFromText s) := by
  unfold execTypeFromText
  rw [withArgs_some hp, withSource_in h, if_neg (not_not_intro hlen)]
  dsimp only
  split
  · exact post_raise (memRead_uninit hu)
  · exact post_complete (memRead_uninit hu)

/-- Whatever the frame parser answers, CHUNK_PARSE keeps what it recorded. -/
theorem execChunkParse_uninit
    (hu : (parseFrame p.args.src.toNat p.args.len.toNat s).2.faults.uninitRead = true) :
    Post UninitRecorded (execChunkParse s) := by
  unfold execChunkParse
  rw [withArgs_some hp, withSource_in h]
  split
  · rename_i hf
    rw [hf] at hu
    exact post_raise hu
  · rename_i hf
    rw [hf] at hu
    exact post_raise hu
  · rename_i hf
    rw [hf] at hu
    exact post_complete hu

/-- CONT_PARSE keeps what its read of the signature recorded, and past a signature what its loop recorded. -/
theorem execContParse_uninit (h8 : 8 ≤ p.args.len.toNat)
    (hsig : (memRead p.args.src.toNat 8 s).1 ≠ signature → (memRead p.args.src.toNat 8 s).2.faults.uninitRead = true)
    (hloop : (parseLoop p.args.len.toNat p.args.src.toNat p.args.len.toNat 8 0 []
      (memRead p.args.src.toNat 8 s).2).2.faults.uninitRead = true) :
    Post UninitRecorded (execContParse s) := by
  unfold execContParse
  rw [withArgs_some hp, withSource_in h, if_neg (Nat.not_lt.2 h8)]
  dsimp only
  split
  · exact post_raise (hsig ‹_›)
  split
  · rename_i hl
    rw [hl] at hloop
    exact post_raise hloop
  · rename_i hl
    rw [hl] at hloop
    exact post_raise hloop
  · rename_i hl
    rw [hl] at hloop
    exact post_complete hloop

/-- An unwritten byte of the signature stays recorded, whatever the loop then does. -/
theorem execContParse_uninit_signature (h8 : 8 ≤ p.args.len.toNat) (hu : Unwritten s p.args.src.toNat 8) :
    Post UninitRecorded (execContParse s) :=
  execContParse_uninit hp h h8 (fun _ => memRead_uninit hu)
    ((parseLoop_readsOnly _ _ _ _ _ _ _).uninit (memRead_uninit hu))

/-- After the signature and good frames, what the parser records at the next frame stays recorded. -/
theorem execContParse_uninit_frame {l : List Chunk} (hlegal : s.params.legal) (hwf : ∀ c ∈ l, Chunk.wf c)
    (hlen : serLen l < p.args.len.toNat) (hd : Holds s p.args.src.toNat (serLen l) (serialize l))
    (hu : (parseFrame (p.args.src.toNat + serLen l) (p.args.len.toNat - serLen l) s).2.faults.uninitRead = true) :
    Post UninitRecorded (execContParse s) := by
  obtain ⟨h8, hsig, -⟩ := holds_serialize_parts hd
  obtain ⟨fuel, total, list, hfuel, hloop⟩ := parseLoop_after_serialize hlegal (by omega) hwf hlen hd
  have hread := memRead_of_holds hsig
  refine execContParse_uninit hp h (by omega) (fun hne => absurd (by rw [hread]) hne) ?_
  rw [hread, hloop]
  exact parseLoop_uninit hlen hfuel hu

end

/-- Settles O44: each command by its rule, CHUNK_PARSE and CONT_PARSE by what the frame parser records. -/
theorem unwrittenSourceIsRecorded : Obligations.UnwrittenSourceIsRecorded := by
  unfold Obligations.UnwrittenSourceIsRecorded
  intro s p hp h
  have done {i : Instr} (hpost : Post UninitRecorded (exec i s)) := completesUninit_of_post hp hpost
  refine ⟨fun hu => ⟨done (execCrcChecksum_uninit hp h hu), done (execCrcCheck_uninit hp h hu),
    fun ht hmax => done (execChunkNew_uninit hp h hu ht hmax)⟩, fun hlen hu => done (execTypeFromText_uninit hp h hlen hu),
    fun h12 hu => done (execChunkParse_uninit hp h (parseFrame_uninit_length h12 hu)),
    fun n hn hfit hu => done (execChunkParse_uninit hp h (parseFrame_uninit_frame hn hfit hu)),
    fun h8 hu => done (execContParse_uninit_signature hp h h8 hu), ?_⟩
  rintro l off hlegal hwf rfl h12 hd
  have nextFrame
      (hu : (parseFrame (p.args.src.toNat + serLen l) (p.args.len.toNat - serLen l) s).2.faults.uninitRead = true) :
      CompletesUninit .contParse s :=
    done (execContParse_uninit_frame hp h hlegal hwf (by omega) hd hu)
  exact ⟨fun hu => nextFrame (parseFrame_uninit_length (by omega) hu),
    fun n hn hfit hu => nextFrame (parseFrame_uninit_frame hn (by omega) hu)⟩

end Sys2Proof.Machine
